-- ==== Sys2Proof/Word.lean ====
section
/-! DEFINITION. The word types of CORE: bytes, addresses, register words and the two IEEE interchange
patterns (spec/00_scope.md R9, R11, R14). A binary64 or binary32 value is held as its bit pattern, since
a register "holds any 64-bit pattern and reads back the exact pattern written" (spec/10_state.md R24). -/

namespace Sys2Proof

/-- One byte of system memory. -/
abbrev Byte := BitVec 8

/-- A byte address of system memory; address arithmetic wraps modulo 2^64 (R62). -/
abbrev Addr := BitVec 64

/-- The 64-bit data word of one host access (R80). -/
abbrev Data := BitVec 64

/-- An IEEE 754 binary64 value, as its interchange bit pattern (R14, R89). -/
abbrev F64 := BitVec 64

/-- An IEEE 754 binary32 value, as its interchange bit pattern (R14, R221). -/
abbrev F32 := BitVec 32

/-- The 7-bit dispatch key K, FORMAT in bits 6..4 and OP in bits 3..0 (R84). -/
abbrev Key := BitVec 7

end Sys2Proof
end

