-- ==== Sys2Proof/Syntax.lean ====
section
/-! DEFINITION. The instructions of CORE, one constructor for each row of spec/opcode_table.json, and the
closed enumerations its registers and stages name (spec/00_scope.md R18, R19; spec/30_encoding.md R86 to R88;
spec/10_state.md R24). -/

namespace Sys2Proof

/-- The eight sample formats (R86). -/
inductive Format where
  | s8 | s16 | s24 | s32 | s64 | float | double | complex
  deriving DecidableEq, Repr, Inhabited

/-- The five waveform kinds of an oscillator or an LFO (R87). -/
inductive Kind where
  | sine | sawtooth | triangle | square | pulse
  deriving DecidableEq, Repr, Inhabited

/-- The five entries of the LFO kernel (R87, R150); `pulse` selects `computeImpulse` (C7). -/
inductive LfoEntry where
  | computeSine | computeSawtooth | computeTriangle | computeSquare | computeImpulse
  deriving DecidableEq, Repr, Inhabited

/-- The eight routing destinations (R18, R88). NONE is no destination (R120). -/
inductive Dest where
  | osc0Frequency | osc0Phase | osc0Volume
  | osc1Frequency | osc1Phase | osc1Volume
  | pitchTuning | volume
  deriving DecidableEq, Repr, Inhabited

/-- The five modulation sources (R18). -/
inductive Source where
  | env0 | env1 | lfo0 | lfo1 | noise
  deriving DecidableEq, Repr, Inhabited

/-- The two oscillators (R37). -/
inductive OscId where
  | osc0 | osc1
  deriving DecidableEq, Repr, Inhabited

/-- The two envelope drivers (R38). -/
inductive EnvId where
  | env0 | env1
  deriving DecidableEq, Repr, Inhabited

/-- The two LFO drivers (R39). -/
inductive LfoId where
  | lfo0 | lfo1
  deriving DecidableEq, Repr, Inhabited

/-- The named registers of one instance's window (R24). -/
inductive Reg where
  | cmd | status | bufferBase | stride | format | samplerate | bufferLength | offset | frameCount | volume
  | osc0Kind | osc0Frequency | osc0Phase | osc0Volume
  | osc1Kind | osc1Frequency | osc1Phase | osc1Volume
  | env0Attack | env0Decay | env0Sustain | env0Release | env0Frequency | env0Route
  | env1Attack | env1Decay | env1Sustain | env1Release | env1Frequency | env1Route
  | lfo0Kind | lfo0Frequency | lfo0Depth | lfo0Tuning | lfo0Route
  | lfo1Kind | lfo1Frequency | lfo1Depth | lfo1Tuning | lfo1Route
  | noiseMode | noiseFrequency | noiseGain | noiseRoute
  | pitchBaseKey | pitchTuning
  deriving DecidableEq, Repr, Inhabited

/-- The instructions: one constructor for each row of spec/opcode_table.json, in the table's order. A row that
leaves key bits free carries them as operands, so that no bit of a key is dropped: NOP and the three RESERVED
rows ignore FORMAT (R84) and a RESERVED row stands for two, four or eight OP codes (R107). -/
inductive Instr where
  /-- NOP (R100): OP = 0x0, FORMAT ignored. -/
  | nop (fmt : Format)
  /-- COMPUTE.S8 (R225). -/
  | computeS8
  /-- COMPUTE.S16 (R226). -/
  | computeS16
  /-- COMPUTE.S24 (R227). -/
  | computeS24
  /-- COMPUTE.S32 (R228). -/
  | computeS32
  /-- COMPUTE.S64 (R229). -/
  | computeS64
  /-- COMPUTE.FLOAT (R230). -/
  | computeFloat
  /-- COMPUTE.DOUBLE (R231). -/
  | computeDouble
  /-- COMPUTE.COMPLEX (R232). -/
  | computeComplex
  /-- RESERVED, the row of OP = 0x2 and 0x3 (R107). -/
  | reserved2 (fmt : Format) (op : BitVec 4)
  /-- RESERVED, the row of OP = 0x4 .. 0x7 (R107). -/
  | reserved4 (fmt : Format) (op : BitVec 4)
  /-- RESERVED, the row of OP = 0x8 .. 0xF (R107). -/
  | reserved8 (fmt : Format) (op : BitVec 4)
  deriving DecidableEq, Repr, Inhabited

end Sys2Proof
end

