-- ==== Sys2Proof/WellFormed.lean ====
section
/-! DEFINITION. Which terms of `Instr` stand for a key of spec/opcode_table.json: the OP operand of a
RESERVED row must be one of the codes that row's mask admits (R84, R107). Every other constructor is
well-formed by its type. -/

namespace Sys2Proof

/-- `i` is an instruction some key encodes: a RESERVED row's OP lies in that row's range. -/
def Instr.wellFormed : Instr → Bool
  | .nop _ => true
  | .computeS8 => true
  | .computeS16 => true
  | .computeS24 => true
  | .computeS32 => true
  | .computeS64 => true
  | .computeFloat => true
  | .computeDouble => true
  | .computeComplex => true
  | .reserved2 _ op => op &&& 0xE#4 == 0x2#4
  | .reserved4 _ op => op &&& 0xC#4 == 0x4#4
  | .reserved8 _ op => op &&& 0x8#4 == 0x8#4

/-- `wellFormed` as a proposition, for statements. -/
abbrev Instr.WellFormed (i : Instr) : Prop := i.wellFormed = true

end Sys2Proof
end

