-- ==== Sys2Proof/Decode.lean ====
section
/-! DEFINITION. The encodings of spec/30_encoding.md: the codes of FORMAT (R86), of the waveform kinds (R87) and
of the destination tags (R88), the dispatch key (R84), the decoder (R85) and, after it, the encoder of a
well-formed instruction. CORE has no instruction stream: an instruction's word is the 7-bit key K, which this
package lays out as one byte whose bit 7 is 0. -/

namespace Sys2Proof

/-! ## Codes of the enumerated fields -/

/-- R86: the FORMAT code. -/
def Format.code : Format → BitVec 3
  | .s8 => 0 | .s16 => 1 | .s24 => 2 | .s32 => 3 | .s64 => 4 | .float => 5 | .double => 6 | .complex => 7

/-- R86, R25: every FORMAT code names a format. -/
def Format.ofCode (c : BitVec 3) : Format :=
  match c.toNat with
  | 0 => .s8 | 1 => .s16 | 2 => .s24 | 3 => .s32 | 4 => .s64 | 5 => .float | 6 => .double | _ => .complex

/-- R87: the KIND code. -/
def Kind.code : Kind → BitVec 3
  | .sine => 0 | .sawtooth => 1 | .triangle => 2 | .square => 3 | .pulse => 4

/-- R87, R25: a KIND code as a write stores it; the reserved codes 5, 6 and 7 store 0 (sine). -/
def Kind.ofCode (c : BitVec 3) : Kind :=
  match c.toNat with
  | 1 => .sawtooth | 2 => .triangle | 3 => .square | 4 => .pulse | _ => .sine

/-- R87, R150: the LFO kernel entry a kind selects. -/
def Kind.lfoEntry : Kind → LfoEntry
  | .sine => .computeSine
  | .sawtooth => .computeSawtooth
  | .triangle => .computeTriangle
  | .square => .computeSquare
  | .pulse => .computeImpulse

/-- R88: the tag code of a destination; 0 is NONE and no destination's code. -/
def Dest.code : Dest → BitVec 4
  | .osc0Frequency => 1 | .osc0Phase => 2 | .osc0Volume => 3
  | .osc1Frequency => 4 | .osc1Phase => 5 | .osc1Volume => 6
  | .pitchTuning => 7 | .volume => 8

/-- R88, R25: a ROUTE slot as a write stores it; the reserved codes 9 .. 15 store 0 (NONE). -/
def legalTag (t : BitVec 4) : BitVec 4 := if t.toNat ≤ 8 then t else 0

/-! ## The dispatch key and the decoder -/

/-- R84: `K = {R.FORMAT[2:0], data[3:0]}`; bits 63..4 of the command word are ignored (R82). -/
def dispatchKey (fmt : Format) (data : Data) : Key := fmt.code ++ data.setWidth 4

/-- OP, the low four bits of a key (R84). -/
def keyOp (k : Key) : BitVec 4 := k.extractLsb' 0 4

/-- FORMAT, the high three bits of a key (R84). -/
def keyFormat (k : Key) : Format := Format.ofCode (k.extractLsb' 4 3)

/-- The COMPUTE instruction of a format (R83, R85). -/
def Instr.compute : Format → Instr
  | .s8 => .computeS8 | .s16 => .computeS16 | .s24 => .computeS24 | .s32 => .computeS32
  | .s64 => .computeS64 | .float => .computeFloat | .double => .computeDouble | .complex => .computeComplex

/-- The format a COMPUTE instruction runs with, and none for NOP and the reserved commands (R85, R215). -/
def Instr.computeFormat : Instr → Option Format
  | .nop _ => none
  | .computeS8 => some .s8
  | .computeS16 => some .s16
  | .computeS24 => some .s24
  | .computeS32 => some .s32
  | .computeS64 => some .s64
  | .computeFloat => some .float
  | .computeDouble => some .double
  | .computeComplex => some .complex
  | .reserved2 _ _ => none
  | .reserved4 _ _ => none
  | .reserved8 _ _ => none

/-- R85, `decode(K)`: total on the 128 keys. The RESERVED codes are told apart by their table row. -/
def decodeKey (k : Key) : Instr :=
  match (keyOp k).toNat with
  | 0 => .nop (keyFormat k)
  | 1 => Instr.compute (keyFormat k)
  | n =>
    if n < 4 then .reserved2 (keyFormat k) (keyOp k)
    else if n < 8 then .reserved4 (keyFormat k) (keyOp k)
    else .reserved8 (keyFormat k) (keyOp k)

/-- What decoding a list of bytes answers. `noBytes` and `notAKey` reject by name; a byte that is a key never is
rejected, since CORE has no illegal encoding (R90). -/
inductive Decoded where
  | instr (i : Instr) (rest : List Byte)
  | noBytes
  | notAKey (b : Byte)
  deriving DecidableEq, Repr

/-- Decode one instruction from bytes: a byte below 0x80 is the key of R84, and bit 7 is no bit of a key. -/
def decode : List Byte → Decoded
  | [] => .noBytes
  | b :: rest => if b.toNat < 128 then .instr (decodeKey (b.setWidth 7)) rest else .notAKey b

/-- The instruction read from the table's word `w` of `nbits` bits, laid out as one byte. -/
def decodeTableWord (nbits w : Nat) : Option Instr :=
  match decode [BitVec.ofNat 8 (w % 2 ^ nbits)] with
  | .instr i _ => some i
  | .noBytes => none
  | .notAKey _ => none

/-! ## The opcode table and the encoder -/

/-- One row of spec/opcode_table.json: a key belongs to the row when `k &&& mask = bits` (R84). -/
structure OpcodeRow where
  mnemonic : String
  bits : Key
  mask : Key
  deriving DecidableEq, Repr

/-- spec/opcode_table.json, row by row. -/
def opcodeTable : List OpcodeRow :=
  [⟨"NOP", 0x00, 0x0F⟩, ⟨"COMPUTE.S8", 0x01, 0x7F⟩, ⟨"COMPUTE.S16", 0x11, 0x7F⟩, ⟨"COMPUTE.S24", 0x21, 0x7F⟩,
   ⟨"COMPUTE.S32", 0x31, 0x7F⟩, ⟨"COMPUTE.S64", 0x41, 0x7F⟩, ⟨"COMPUTE.FLOAT", 0x51, 0x7F⟩,
   ⟨"COMPUTE.DOUBLE", 0x61, 0x7F⟩, ⟨"COMPUTE.COMPLEX", 0x71, 0x7F⟩,
   ⟨"RESERVED", 0x02, 0x0E⟩, ⟨"RESERVED", 0x04, 0x0C⟩, ⟨"RESERVED", 0x08, 0x08⟩]

/-- The table row of an instruction, by its place in `opcodeTable`. -/
def Instr.row : Instr → Nat
  | .nop _ => 0
  | .computeS8 => 1
  | .computeS16 => 2
  | .computeS24 => 3
  | .computeS32 => 4
  | .computeS64 => 5
  | .computeFloat => 6
  | .computeDouble => 7
  | .computeComplex => 8
  | .reserved2 _ _ => 9
  | .reserved4 _ _ => 10
  | .reserved8 _ _ => 11

/-- The places in `opcodeTable` of the rows a key matches (R84). -/
def matchingRows (k : Key) : List Nat :=
  (List.range opcodeTable.length).filter fun r =>
    match opcodeTable[r]? with
    | some row => k &&& row.mask == row.bits
    | none => false

/-- The key of a well-formed instruction, from the table's encoding strings (R84). -/
def encodeKey : Instr → Key
  | .nop fmt => fmt.code ++ 0x0#4
  | .computeS8 => 0x01
  | .computeS16 => 0x11
  | .computeS24 => 0x21
  | .computeS32 => 0x31
  | .computeS64 => 0x41
  | .computeFloat => 0x51
  | .computeDouble => 0x61
  | .computeComplex => 0x71
  | .reserved2 fmt op => fmt.code ++ op
  | .reserved4 fmt op => fmt.code ++ op
  | .reserved8 fmt op => fmt.code ++ op

/-- The bytes of an instruction: its key in one byte. -/
def encode (i : Instr) : List Byte := [(encodeKey i).setWidth 8]

end Sys2Proof
end

