-- ==== Sys2Proof/Machine/Float.lean ====
section
/-! DEFINITION. Binary64 and binary32 arithmetic, exactly as spec/00_scope.md R14 and R15 and spec/47_format.md R224
give it: round to nearest, ties to even, subnormals kept, overflow to infinity, no flags.

A finite binary64 is a whole number of units of 2^-1074 and a finite binary32 a whole number of units of 2^-149, so
every operation is computed exactly on integers and rounded once. An operation that gives a NaN answers the pattern
`Fp.nan` for "some NaN": its payload is drawn where the value leaves the arithmetic (`Machine.settle`). -/

namespace Sys2Proof.Machine.Fp

/-! ## Rounding -/

/-- `num / den` rounded to the nearest integer, ties to even. -/
def roundHalfEven (num den : Nat) : Nat :=
  let q := num / den
  let r := num % den
  if den < 2 * r ∨ (2 * r = den ∧ q % 2 = 1) then q + 1 else q

/-- The magnitude bits (exponent field over `frac` fraction bits) of the value `num / den`, in units of the format's
least subnormal, rounded to nearest even; the exponent field is not bounded here. -/
def roundMag (frac num den : Nat) : Nat :=
  let e := Nat.log2 (num / den) - frac
  e * 2 ^ frac + roundHalfEven num (den * 2 ^ e)

/-- The magnitude bits of binary64 infinity. -/
def infMag : Nat := 0x7FF0000000000000

/-- The magnitude bits of binary32 infinity. -/
def infMag32 : Nat := 0x7F800000

/-- A binary64 of the given sign and magnitude bits, overflowing to infinity. -/
def pack (neg : Bool) (mag : Nat) : F64 :=
  BitVec.ofNat 64 (min mag infMag + if neg then 2 ^ 63 else 0)

/-- A binary32 of the given sign and magnitude bits, overflowing to infinity (R224). -/
def pack32 (neg : Bool) (mag : Nat) : F32 :=
  BitVec.ofNat 32 (min mag infMag32 + if neg then 2 ^ 31 else 0)

/-! ## Constants, each the binary64 value of the literal its name says (R8, R14, R15) -/

/-- +0.0 -/
def zero : F64 := 0x0000000000000000
/-- −0.0 -/
def negZero : F64 := 0x8000000000000000
/-- 1.0 -/
def one : F64 := 0x3FF0000000000000
/-- −1.0 -/
def negOne : F64 := 0xBFF0000000000000
/-- 2.0 -/
def two : F64 := 0x4000000000000000
/-- 3.0 -/
def three : F64 := 0x4008000000000000
/-- 4.0 -/
def four : F64 := 0x4010000000000000
/-- 5.0 -/
def five : F64 := 0x4014000000000000
/-- 12.0 -/
def twelve : F64 := 0x4028000000000000
/-- 48.0 -/
def fortyEight : F64 := 0x4048000000000000
/-- 100.0 -/
def hundred : F64 := 0x4059000000000000
/-- 440.0 -/
def fourForty : F64 := 0x407B800000000000
/-- 1200.0 -/
def twelveHundred : F64 := 0x4092C00000000000
/-- PI64 (R15) -/
def pi : F64 := 0x400921FB54442D18
/-- TWO_PI (R15) -/
def twoPi : F64 := 0x401921FB54442D18
/-- "Some NaN": the answer of an operation that produces one. -/
def nan : F64 := 0x7FF8000000000000
/-- "Some NaN" of binary32. -/
def nan32 : F32 := 0x7FC00000

/-! ## Reading a pattern -/

/-- The sign bit. -/
def neg (x : F64) : Bool := x.msb

/-- The exponent field, bits 62..52 (R81). -/
def expField (x : F64) : Nat := x.toNat / 2 ^ 52 % 2 ^ 11

/-- The fraction field, bits 51..0 (R81). -/
def fracField (x : F64) : Nat := x.toNat % 2 ^ 52

/-- A NaN of binary64. -/
def isNaN (x : F64) : Bool := expField x == 2047 && fracField x != 0

/-- An infinity of binary64. -/
def isInf (x : F64) : Bool := expField x == 2047 && fracField x == 0

/-- Finite: neither NaN nor an infinity. -/
def isFinite (x : F64) : Bool := expField x != 2047

/-- The magnitude in units of 2^-1074; an infinity counts one unit of its place above every finite value. -/
def mag (x : F64) : Nat :=
  if expField x = 0 then fracField x else (2 ^ 52 + fracField x) * 2 ^ (expField x - 1)

/-- The value in units of 2^-1074. -/
def units (x : F64) : Int := if neg x then -(mag x : Int) else mag x

/-- The sign bit of a binary32. -/
def neg32 (x : F32) : Bool := x.msb

/-- The exponent field of a binary32. -/
def expField32 (x : F32) : Nat := x.toNat / 2 ^ 23 % 2 ^ 8

/-- The fraction field of a binary32. -/
def fracField32 (x : F32) : Nat := x.toNat % 2 ^ 23

/-- A NaN of binary32. -/
def isNaN32 (x : F32) : Bool := expField32 x == 255 && fracField32 x != 0

/-- An infinity of binary32. -/
def isInf32 (x : F32) : Bool := expField32 x == 255 && fracField32 x == 0

/-- The magnitude of a binary32 in units of 2^-149. -/
def mag32 (x : F32) : Nat :=
  if expField32 x = 0 then fracField32 x else (2 ^ 23 + fracField32 x) * 2 ^ (expField32 x - 1)

/-- The value of a binary32 in units of 2^-149. -/
def units32 (x : F32) : Int := if neg32 x then -(mag32 x : Int) else mag32 x

/-! ## Arithmetic (R14) -/

/-- A non-zero exact value `v / den` of units, rounded; an exact zero takes the sign given. -/
def roundUnits (zeroNeg : Bool) (v : Int) (den : Nat) : F64 :=
  if v = 0 then pack zeroNeg 0 else pack (v < 0) (roundMag 52 v.natAbs den)

/-- `x + y`. -/
def add (x y : F64) : F64 :=
  if isNaN x || isNaN y then nan
  else if isInf x then (if isInf y && neg x != neg y then nan else x)
  else if isInf y then y
  else roundUnits (neg x && neg y) (units x + units y) 1

/-- `−x`, the sign flipped. -/
def negate (x : F64) : F64 := x ^^^ 0x8000000000000000

/-- `x − y`. -/
def sub (x y : F64) : F64 := add x (negate y)

/-- `x × y`. -/
def mul (x y : F64) : F64 :=
  let s := neg x != neg y
  if isNaN x || isNaN y then nan
  else if isInf x || isInf y then (if mag x = 0 ∨ mag y = 0 then nan else pack s infMag)
  else pack s (roundMag 52 (mag x * mag y) (2 ^ 1074))

/-- `x / y`. -/
def div (x y : F64) : F64 :=
  let s := neg x != neg y
  if isNaN x || isNaN y then nan
  else if isInf x then (if isInf y then nan else pack s infMag)
  else if isInf y then pack s 0
  else if mag y = 0 then (if mag x = 0 then nan else pack s infMag)
  else pack s (roundMag 52 (mag x * 2 ^ 1074) (mag y))

/-- `fmod(x, y)` of R15: exact, with the sign of `x`. DEDUCED (log 12): for an infinite `y` the multiple
taken off is zero, and a NaN `y` gives a NaN. -/
def fmod (x y : F64) : F64 :=
  if isNaN x || isNaN y || isInf x || mag y == 0 then nan
  else if isInf y then x
  else pack (neg x) (roundMag 52 (mag x % mag y) 1)

/-! ## Comparisons: false whenever an operand is a NaN (R15); zeros of either sign are equal -/

/-- `x < y`. -/
def lt (x y : F64) : Bool := !isNaN x && !isNaN y && decide (units x < units y)

/-- `x ≤ y`. -/
def le (x y : F64) : Bool := !isNaN x && !isNaN y && decide (units x ≤ units y)

/-- `x = y`, as values. -/
def eqv (x y : F64) : Bool := !isNaN x && !isNaN y && decide (units x = units y)

/-! ## Conversions (R15, R224) -/

/-- `to_f64(n)` of an integer. -/
def ofInt (n : Int) : F64 := roundUnits false (n * 2 ^ 1074) 1

/-- `to_f64(n)` of a natural number. -/
def ofNat (n : Nat) : F64 := ofInt n

/-- `trunc(x)` of a finite `x`. -/
def trunc (x : F64) : Int :=
  if neg x then -((mag x / 2 ^ 1074 : Nat) : Int) else ((mag x / 2 ^ 1074 : Nat) : Int)

/-- `to_f32(x)`. -/
def toF32 (x : F64) : F32 :=
  if isNaN x then nan32
  else if isInf x then pack32 (neg x) infMag32
  else pack32 (neg x) (roundMag 23 (mag x) (2 ^ 925))

/-- `widen(y)`, exact. -/
def widen (y : F32) : F64 :=
  if isNaN32 y then nan
  else if isInf32 y then pack (neg32 y) infMag
  else pack (neg32 y) (roundMag 52 (mag32 y * 2 ^ 925) 1)

/-- `x +f32 y` (R222): the binary32 addition. -/
def add32 (x y : F32) : F32 :=
  if isNaN32 x || isNaN32 y then nan32
  else if isInf32 x then (if isInf32 y && neg32 x != neg32 y then nan32 else x)
  else if isInf32 y then y
  else
    let v := units32 x + units32 y
    if v = 0 then pack32 (neg32 x && neg32 y) 0 else pack32 (v < 0) (roundMag 23 v.natAbs 1)

/-! ## NaNs by payload -/

/-- The NaN a free 64-bit value stands for; every NaN pattern stands for itself. -/
def nanOf (v : BitVec 64) : F64 := if isNaN v then v else v ||| 0x7FF8000000000000

/-- The binary32 NaN a free 32-bit value stands for; every NaN pattern stands for itself. -/
def nanOf32 (v : BitVec 32) : F32 := if isNaN32 v then v else v ||| 0x7FC00000

end Sys2Proof.Machine.Fp
end

