-- ==== Sys2Proof/Config.lean ====
section
/-! DEFINITION. What an implementation or the platform fixes, and the free values (spec/00_scope.md R7, R12, R16).
Every OPEN parameter of R7 is an opaque constant with no body: nothing in Lean can evaluate it, so a theorem
holds whatever it is. `Params` gathers them, so that the stages can also be run, in tests, at the parameter
values the spec's test vectors assume; the machine itself uses `Config.params`. -/

namespace Sys2Proof

/-- One row of the shared coefficient table: the four weights (R70). -/
structure CoeffRow where
  c0 : F64
  c1 : F64
  c2 : F64
  c3 : F64
  deriving DecidableEq, Repr, Inhabited

/-- ENV_SEGMENT_BASIS: how the envelope's quarter length is derived (R7, R131, R140). -/
inductive SegmentBasis where
  | noteQuarters | driveFrequency
  deriving DecidableEq, Repr, Inhabited

/-- A run of byte addresses of system memory: `size` bytes from `base`, wrapping modulo 2^64. -/
structure Region where
  base : Addr
  size : Nat
  deriving DecidableEq, Repr, Inhabited

/-- What the platform decides about addresses: INSTANCE_BASE[n] for each n below INSTANCE_COUNT (R23, R247), which
addresses are no ordinary memory (R67), on which addresses a sample access cannot be completed (R68) and which
addresses the shared table device takes up, if any (R248, R272). Plain data, held in the machine's state and written by
no step. DESIGN CHOICE (log 9, unsafe in part): each list holds for every instance alike, and for reads and stores; R69
leaves a platform free to refuse an access to one instance and complete it for another, and such a platform is left out. -/
structure Platform where
  windows : List Addr
  device : List Region
  unreachable : List Region
  table : List Region
  deriving DecidableEq, Repr, Inhabited

/-- The arguments of one LFO_KERNEL call (R151, R155). -/
structure LfoCall where
  entry : LfoEntry
  frequency : F64
  depth : F64
  tuning : F64
  samplerate : BitVec 32
  offset : BitVec 64
  frames : Nat
  buffer : List F64
  deriving DecidableEq, Repr, Inhabited

/-- The parameters of R7. -/
structure Params where
  /-- MAX_FRAMES, at least 1. -/
  maxFrames : Nat
  /-- FREQ_EPSILON, a positive binary64. -/
  freqEpsilon : F64
  /-- FULL_SCALE_S32. -/
  fullScaleS32 : F64
  /-- NOISE_MODE_FIXED, what NOISE_MODE reads. -/
  noiseModeFixed : BitVec 64
  /-- COEFF[r], the shared table's row r. -/
  coeff : BitVec 8 → CoeffRow
  /-- SIN. -/
  sin : F64 → F64
  /-- POW2. -/
  pow2 : F64 → F64
  /-- ENV_KERNEL: the slice W[c .. c+n-1] it works on, the cursor c, v0, slope, and then j, to the new W[c+j].
  By its type it reads and writes nothing outside that slice (R137). -/
  envKernel : List F64 → Nat → F64 → F64 → Nat → F64
  /-- ENV_SEGMENT_BASIS. -/
  segmentBasis : SegmentBasis
  /-- LFO_KERNEL: the call's arguments, and then the index of the value returned (R151). -/
  lfoKernel : LfoCall → Nat → F64
  /-- `draw()`: the n-th free value (R12). -/
  free : Nat → BitVec 64
  /-- What an unspecified entry of a working buffer holds (R26, R50). -/
  stale : Nat → F64

/-- DESIGN CHOICE (safe): any number; `Config.maxFrames` is one more, so that every MAX_FRAMES of R7 is possible. -/
opaque Config.maxFramesLessOne : Nat

/-- MAX_FRAMES (R7): an integer at least 1. -/
def Config.maxFrames : Nat := Config.maxFramesLessOne + 1

/-- The pattern FREQ_EPSILON is taken from. -/
opaque Config.freqEpsilonPattern : F64

/-- FREQ_EPSILON (R7): any positive binary64. A pattern that is none stands for the least positive one. -/
def Config.freqEpsilon : F64 :=
  if 0 < Config.freqEpsilonPattern.toNat ∧ Config.freqEpsilonPattern.toNat ≤ 0x7FF0000000000000
  then Config.freqEpsilonPattern else 1#64

/-- FULL_SCALE_S32 (R7, R216). -/
opaque Config.fullScaleS32 : F64

/-- NOISE_MODE_FIXED (R7, R39). -/
opaque Config.noiseModeFixed : BitVec 64

/-- COEFF (R7, R70). -/
opaque Config.coeff : BitVec 8 → CoeffRow

/-- SIN (R16). -/
opaque Config.sin : F64 → F64

/-- POW2 (R16). -/
opaque Config.pow2 : F64 → F64

/-- ENV_KERNEL (R137). -/
opaque Config.envKernel : List F64 → Nat → F64 → F64 → Nat → F64

/-- LFO_KERNEL (R151). -/
opaque Config.lfoKernel : LfoCall → Nat → F64

/-- The free values `draw()` takes (R12): applied to the counter `State.draws`, each draw takes a fresh one. -/
opaque Config.freeValue : Nat → BitVec 64

/-- The unspecified entries of a working buffer (R26, R50); R45 says no result depends on one. -/
opaque Config.staleEntry : Nat → F64

/-- The platform's address decisions (R7, R68): INSTANCE_COUNT, INSTANCE_BASE[n], BUS_ERROR and the memory map. -/
opaque Config.platform : Platform

/-- The machine's parameters: R7's values where R7 decides one (NOTE_QUARTERS), opaque constants elsewhere. -/
def Config.params : Params where
  maxFrames := Config.maxFrames
  freqEpsilon := Config.freqEpsilon
  fullScaleS32 := Config.fullScaleS32
  noiseModeFixed := Config.noiseModeFixed
  coeff := Config.coeff
  sin := Config.sin
  pow2 := Config.pow2
  envKernel := Config.envKernel
  segmentBasis := .noteQuarters
  lfoKernel := Config.lfoKernel
  free := Config.freeValue
  stale := Config.staleEntry

end Sys2Proof
end

