-- ==== Sys2Proof/Machine/State.lean ====
section
/-! DEFINITION. The state of CORE as plain data: everything spec/10_state.md gives the machine, the system memory
and platform state around it (spec/20_memory.md, spec/60_exceptions.md), the queue of host transactions that is
CORE's program (spec/30_encoding.md R92), and the reasons a step can stop. -/

namespace Sys2Proof.Machine

/-- An oscillator descriptor (R37). -/
structure OscRegs where
  kind : Kind
  frequency : F64
  phase : F64
  volume : F64
  deriving DecidableEq, Repr

/-- An envelope descriptor (R38, R40). -/
structure EnvRegs where
  attack : F64
  decay : F64
  sustain : F64
  release : F64
  frequency : F64
  route : BitVec 32
  deriving DecidableEq, Repr

/-- An LFO descriptor (R39, R40). -/
structure LfoRegs where
  kind : Kind
  frequency : F64
  depth : F64
  tuning : F64
  route : BitVec 32
  deriving DecidableEq, Repr

/-- The noise descriptor (R39, R40); NOISE_MODE is the constant NOISE_MODE_FIXED and holds no state. -/
structure NoiseRegs where
  frequency : F64
  gain : F64
  route : BitVec 32
  deriving DecidableEq, Repr

/-- The parameter registers of one instance (R24). -/
structure Regs where
  bufferBase : BitVec 64
  stride : BitVec 32
  format : Format
  samplerate : BitVec 32
  bufferLength : BitVec 32
  offset : BitVec 64
  frameCount : BitVec 64
  volume : F64
  osc0 : OscRegs
  osc1 : OscRegs
  env0 : EnvRegs
  env1 : EnvRegs
  lfo0 : LfoRegs
  lfo1 : LfoRegs
  noise : NoiseRegs
  pitchBaseKey : F64
  pitchTuning : F64
  deriving DecidableEq, Repr

/-- The six working buffers (R43). A list holds entries 0, 1, … that some rule has specified; every later entry is
unspecified (R26, R50). -/
structure Work where
  env0 : List F64
  env1 : List F64
  lfo0 : List F64
  lfo1 : List F64
  noise : List F64
  pitch : List F64
  deriving DecidableEq, Repr

/-- The state of one CORE instance: its registers (R24), working buffers (R43), PHASE_ACC and INCR (R46), and the
COMPUTE in flight. STATUS.BUSY (R27) is `inFlight.isSome`; the format is the one the CMD write selected (R215). -/
structure CoreState where
  regs : Regs
  work : Work
  phaseAcc : BitVec 64
  incr : BitVec 64
  inFlight : Option Format
  deriving DecidableEq, Repr

/-- One transaction or platform event, in the order in which they happen. -/
inductive Event where
  /-- The host of instance `inst` writes `bytes` bytes at window offset `offset` (R80, R92 `WR`). `overlapped` says
  that the next events of the queue happen before a COMPUTE this write starts has completed (R102, R270, R273). -/
  | regWrite (inst : Nat) (offset : BitVec 10) (bytes : Nat) (data : Data) (overlapped : Bool)
  /-- The host of instance `inst` reads `bytes` bytes at window offset `offset` (R80, R92 `RD`). -/
  | regRead (inst : Nat) (offset : BitVec 10) (bytes : Nat)
  /-- The host or another agent stores bytes from address `addr` (R60, R92 `MEM`), in one access. `overlapped` is that
  of `regWrite`, for an access that the platform's map makes a CMD write (R23, R80). -/
  | memWrite (addr : Addr) (data : List Byte) (overlapped : Bool)
  /-- The host or another agent reads `n` bytes from address `addr` (R60, R273), in one access. -/
  | memRead (addr : Addr) (n : Nat)
  /-- The COMPUTE in flight of instance `inst` takes its atomic step (R105). -/
  | proceed (inst : Nat)
  /-- The platform resets instance `inst` (R260, R261). -/
  | reset (inst : Nat)
  /-- The platform constructs the shared coefficient table, or writes it again (R262, R72). -/
  | constructTable
  deriving DecidableEq, Repr

/-- What a read returned: a register's data word (R81) or bytes of memory. -/
inductive Reply where
  | reg (data : Data)
  | mem (data : List Byte)
  deriving DecidableEq, Repr

/-- The whole machine: the instances, system memory, the shared table device, the platform and what is still to
come. INVENTORY.md, heading State, names the rule behind each field. -/
structure State where
  /-- The number of the instance that `core` is. -/
  cur : Nat
  /-- The instance the last transaction addressed. -/
  core : CoreState
  /-- Every other instance that is not at its reset state, by number (R247). -/
  others : List (Nat × CoreState)
  /-- System memory (R60): the bytes that are not 0, by address. -/
  mem : List Host.Cell
  /-- The shared coefficient table has been constructed (R262). -/
  tableBuilt : Bool
  /-- TABLE_LOCK (R47): free, or held by one instance. -/
  tableLock : Option Nat
  /-- The platform's address decisions (R7); no step writes them. -/
  platform : Platform
  /-- The transactions and events still to come, the first to happen first (R92). -/
  bus : List Event
  /-- What reads have returned, newest first. -/
  replies : List Reply
  /-- How many free values have been drawn (R12). -/
  draws : Nat
  deriving DecidableEq, Repr

/-- The model faults of R241. None is a behaviour of CORE: each marks a duty of the host or the platform that the run
broke, and from it on nothing is promised. All are safe: the model stops where a chip would go on. -/
inductive Fault where
  /-- HOST_WRITE_WHILE_BUSY (R270): raised by a host write to a register, CMD included, while BUSY = 1. Safe. -/
  | hostWriteWhileBusy
  /-- BUFFER_SHARED (R75, R273): raised by an access of another agent to a byte of the call window's elements of an
  instance that is BUSY. Safe. -/
  | bufferShared
  /-- BUFFER_IN_WINDOW (R272): raised by a COMPUTE with an element inside a CORE register window or the shared table
  device. Safe. -/
  | bufferInWindow
  /-- DEVICE_MEMORY (R67): raised by a COMPUTE with an element that is not ordinary memory. Safe. -/
  | deviceMemory
  /-- BUS_ERROR (R68): raised by a COMPUTE whose sample access the platform cannot complete. Safe. -/
  | busError
  /-- TABLE_WRITE (R72): raised by a write of the shared table, or a store into the table device, while an instance is
  BUSY. Safe. -/
  | tableWrite
  /-- TABLE_UNCONSTRUCTED (R262): raised by a COMPUTE that reaches the pitch stage before the table is constructed.
  Safe. -/
  | tableUnconstructed
  deriving DecidableEq, Repr

/-- What the model gives no meaning. -/
inductive Refusal where
  /-- An instruction that has no meaning yet; raised by `exec`'s arm alone. Safe. No instruction is refused so. -/
  | notModelled (mnemonic : String)
  /-- An event that names an instance the platform does not have (R247); raised by `Machine.atInstance`. It is no
  transaction with any CORE, so no rule says what it does. Safe. -/
  | noSuchInstance (inst : Nat)
  /-- An access of the host or another agent to a device (R67) or to the shared table device, which R248 says is reached
  by no path but the table ports; raised by `Machine.agentAccess`. The spec does not say what a device does there. It is
  an event and no instruction. Safe. -/
  | deviceAccess (addr : Addr)
  deriving DecidableEq, Repr

/-- R24, column "reset": every register all zero bits. -/
def Regs.reset : Regs where
  bufferBase := 0
  stride := 0
  format := .s8
  samplerate := 0
  bufferLength := 0
  offset := 0
  frameCount := 0
  volume := 0
  osc0 := ⟨.sine, 0, 0, 0⟩
  osc1 := ⟨.sine, 0, 0, 0⟩
  env0 := ⟨0, 0, 0, 0, 0, 0⟩
  env1 := ⟨0, 0, 0, 0, 0, 0⟩
  lfo0 := ⟨.sine, 0, 0, 0, 0⟩
  lfo1 := ⟨.sine, 0, 0, 0, 0⟩
  noise := ⟨0, 0, 0⟩
  pitchBaseKey := 0
  pitchTuning := 0

/-- Working buffers of which no entry is specified (R26, R50). -/
def Work.unspecified : Work := ⟨[], [], [], [], [], []⟩

/-- R50: one instance after reset. -/
def CoreState.reset : CoreState where
  regs := Regs.reset
  work := Work.unspecified
  phaseAcc := 0
  incr := 0
  inFlight := none

/-- R260, R50: the machine right after reset, no host transaction pending. DESIGN CHOICE (log 8, log 10): memory lists
nothing, and the platform has met its duty of R264 step 1, so the shared table is constructed. -/
def State.reset : State where
  cur := 0
  core := CoreState.reset
  others := []
  mem := []
  tableBuilt := true
  tableLock := none
  platform := Config.platform
  bus := []
  replies := []
  draws := 0

end Sys2Proof.Machine
end

