-- ==== Sys2Proof/Machine/Ops.lean ====
section
/-! DEFINITION. The named operations over memory, the instances, the free values and the shared table
(spec/20_memory.md). CORE takes no exception and returns from none (spec/60_exceptions.md R235, R239), so there is
no operation for either. -/

namespace Sys2Proof.Machine

/-! ## Sparse maps: sorted lists of (number, value) that list no default value -/

/-- The value at `k`, and `d` where none is listed. -/
def Sparse.get {α : Type} (d : α) : List (Nat × α) → Nat → α
  | [], _ => d
  | (a, v) :: m, k => if k = a then v else Sparse.get d m k

/-- Insert before the first larger number. -/
def Sparse.insert {α : Type} (k : Nat) (v : α) : List (Nat × α) → List (Nat × α)
  | [] => [(k, v)]
  | (a, w) :: m => if k < a then (k, v) :: (a, w) :: m else (a, w) :: Sparse.insert k v m

/-- Write `v` at `k`: the value unlisted places have removes the entry. -/
def Sparse.set {α : Type} [DecidableEq α] (d : α) (k : Nat) (v : α) (m : List (Nat × α)) : List (Nat × α) :=
  let rest := m.filter fun e => e.1 != k
  if v = d then rest else Sparse.insert k v rest

/-- The canonical form: numbers strictly rising, no value that unlisted places have. -/
abbrev Sparse.Wf {α : Type} [DecidableEq α] (d : α) (m : List (Nat × α)) : Prop :=
  m.Pairwise (fun x y => x.1 < y.1) ∧ ∀ e ∈ m, e.2 ≠ d

/-! ## System memory -/

/-- What a byte of memory that nothing has written reads as. DESIGN CHOICE (log 8, unsafe): 0, as the programs of
spec/95_test_vectors.md part 3 assume. -/
def unlistedByte : Byte := 0

/-- The canonical form of memory: addresses strictly rising, inside the address space, no entry an unlisted byte's. -/
abbrev Memory.wf (m : List Host.Cell) : Prop := Sparse.Wf unlistedByte m ∧ ∀ e ∈ m, e.1 < 2 ^ 64

/-- One byte of memory. -/
def readByte (m : List Host.Cell) (a : Addr) : Byte := Sparse.get unlistedByte m a.toNat

/-- Store one byte. -/
def writeByte (a : Addr) (b : Byte) (m : List Host.Cell) : List Host.Cell := Sparse.set unlistedByte a.toNat b m

/-- `MemRead(addr, n)`: little-endian, the addresses wrapping (R11, R62, R63). -/
def readLE (m : List Host.Cell) (a : Addr) : Nat → Nat
  | 0 => 0
  | n + 1 => (readByte m a).toNat + 256 * readLE m (a + 1) n

/-- `MemWrite(addr, n, v)`: the `n` low-order bytes of `v`, little-endian (R11, R62, R63). -/
def writeLE (a : Addr) : Nat → Nat → List Host.Cell → List Host.Cell
  | 0, _, m => m
  | n + 1, v, m => writeLE (a + 1) n (v / 256) (writeByte a (BitVec.ofNat 8 v) m)

/-- Store bytes from `a` up, those at addresses that `skip` names left out. -/
def writeBytes (skip : Addr → Bool) (a : Addr) : List Byte → List Host.Cell → List Host.Cell
  | [], m => m
  | b :: bs, m => writeBytes skip (a + 1) bs (if skip a then m else writeByte a b m)

/-- The `n` low-order bytes of `v`, little-endian (R11). -/
def bytesLE : Nat → Nat → List Byte
  | 0, _ => []
  | n + 1, v => BitVec.ofNat 8 v :: bytesLE n (v / 256)

/-- The number little-endian bytes stand for (R11). -/
def valueLE : List Byte → Nat
  | [] => 0
  | b :: bs => b.toNat + 256 * valueLE bs

/-! ## Updates of the state, one for each field -/

/-- Replace the addressed instance. -/
def State.setCore (c : CoreState) (s : State) : State := { s with core := c }
/-- Replace system memory. -/
def State.setMem (m : List Host.Cell) (s : State) : State := { s with mem := m }
/-- Replace TABLE_LOCK. -/
def State.setTableLock (l : Option Nat) (s : State) : State := { s with tableLock := l }
/-- Replace whether the shared table is constructed. -/
def State.setTableBuilt (b : Bool) (s : State) : State := { s with tableBuilt := b }
/-- Replace the queue of events. -/
def State.setBus (b : List Event) (s : State) : State := { s with bus := b }
/-- Record what a read returned. -/
def State.reply (r : Reply) (s : State) : State := { s with replies := r :: s.replies }
/-- Count one more free value. -/
def State.drew (s : State) : State := { s with draws := s.draws + 1 }

/-- Replace the registers of an instance. -/
def CoreState.setRegs (r : Regs) (c : CoreState) : CoreState := { c with regs := r }
/-- Replace the working buffers of an instance. -/
def CoreState.setWork (w : Work) (c : CoreState) : CoreState := { c with work := w }
/-- Replace PHASE_ACC. -/
def CoreState.setPhaseAcc (p : BitVec 64) (c : CoreState) : CoreState := { c with phaseAcc := p }
/-- Replace INCR. -/
def CoreState.setIncr (p : BitVec 64) (c : CoreState) : CoreState := { c with incr := p }
/-- Replace the COMPUTE in flight, and with it BUSY. -/
def CoreState.setInFlight (f : Option Format) (c : CoreState) : CoreState := { c with inFlight := f }

/-! ## Free values -/

/-- `draw()` (R12): a fresh free value. -/
def draw (P : Params) (s : State) : BitVec 64 × State := (P.free s.draws, s.drew)

/-- R15: "any NaN an operation produces has an unspecified payload". Where a binary64 result leaves the arithmetic
(a store, a working buffer, an argument of a configuration function), a NaN becomes a NaN drawn here. -/
def settle (P : Params) (x : F64) (s : State) : F64 × State :=
  if Fp.isNaN x then (Fp.nanOf (draw P s).1, (draw P s).2) else (x, s)

/-- R224: the same for a binary32 result. -/
def settle32 (P : Params) (x : F32) (s : State) : F32 × State :=
  if Fp.isNaN32 x then (Fp.nanOf32 ((draw P s).1.setWidth 32), (draw P s).2) else (x, s)

/-- `SIN(x)` of a computed argument (R16). -/
def sinOf (P : Params) (x : F64) (s : State) : F64 × State := (P.sin (settle P x s).1, (settle P x s).2)

/-- `POW2(x)` of a computed argument (R16). -/
def pow2Of (P : Params) (x : F64) (s : State) : F64 × State := (P.pow2 (settle P x s).1, (settle P x s).2)

/-! ## The shared coefficient table -/

/-- Acquire TABLE_LOCK for the addressed instance (R71). DEDUCED (log 11): another holder releases it first, since the
arbiter is fair, and between atomic steps nobody holds it. -/
def acquireTable (s : State) : State := s.setTableLock (some s.cur)

/-- Release TABLE_LOCK (R71). -/
def releaseTable (s : State) : State := s.setTableLock none

/-- `TableRead(r)` (R71): the row read under the lock, and the state after the lock is released. -/
def tableRead (P : Params) (r : BitVec 8) (s : State) : CoeffRow × State :=
  (P.coeff r, releaseTable (acquireTable s))

/-! ## Instances -/

/-- STATUS.BUSY of an instance (R27). -/
def CoreState.busy (c : CoreState) : Bool := c.inFlight.isSome

/-- The state of instance `n`; one that is not listed is at reset (R247, log 1). -/
def State.coreOf (s : State) (n : Nat) : CoreState :=
  if n = s.cur then s.core else Sparse.get CoreState.reset s.others n

/-- Make instance `n` the addressed one; every instance keeps its state. -/
def State.focus (n : Nat) (s : State) : State :=
  if n = s.cur then s
  else { s with
    cur := n
    core := s.coreOf n
    others := Sparse.set CoreState.reset s.cur s.core (Sparse.set CoreState.reset n CoreState.reset s.others) }

end Sys2Proof.Machine
end

