-- ==== Sys2Proof/Machine/Operands.lean ====
section
/-! DEFINITION. The operand forms of spec/30_encoding.md R89 and spec/20_memory.md R61: integer fields, times, the
descriptor of each oscillator, envelope and LFO, route slots, working-buffer entries and element addresses. -/

namespace Sys2Proof

/-! ## Sources, destinations and element sizes -/

/-- `isEnv(src)` (R19). -/
def Source.isEnv : Source → Bool
  | .env0 => true
  | .env1 => true
  | .lfo0 => false
  | .lfo1 => false
  | .noise => false

/-- The source an envelope is (R18). -/
def EnvId.source : EnvId → Source
  | .env0 => .env0
  | .env1 => .env1

/-- The source an LFO is (R18). -/
def LfoId.source : LfoId → Source
  | .lfo0 => .lfo0
  | .lfo1 => .lfo1

/-- The destination OSCk_FREQUENCY. -/
def OscId.frequencyDest : OscId → Dest
  | .osc0 => .osc0Frequency
  | .osc1 => .osc1Frequency

/-- The destination OSCk_PHASE. -/
def OscId.phaseDest : OscId → Dest
  | .osc0 => .osc0Phase
  | .osc1 => .osc1Phase

/-- The destination OSCk_VOLUME. -/
def OscId.volumeDest : OscId → Dest
  | .osc0 => .osc0Volume
  | .osc1 => .osc1Volume

/-- ESIZE(F) (R86). -/
def Format.esize : Format → Nat
  | .s8 => 1 | .s16 => 2 | .s24 => 4 | .s32 => 4 | .s64 => 8 | .float => 4 | .double => 8 | .complex => 16

/-- The bytes of one sample access (R65): the whole element, or the real part of a COMPLEX element. -/
def Format.accessBytes : Format → Nat
  | .s8 => 1 | .s16 => 2 | .s24 => 4 | .s32 => 4 | .s64 => 8 | .float => 4 | .double => 8 | .complex => 8

end Sys2Proof

namespace Sys2Proof.Machine

/-! ## Registers as operands -/

/-- L, the number of frames of one COMPUTE (R33). -/
def CoreState.frames (c : CoreState) : Nat := c.regs.bufferLength.toNat

/-- The absolute time t = OFFSET + i of frame i, an exact integer (R34). -/
def CoreState.time (c : CoreState) (i : Nat) : Nat := c.regs.offset.toNat + i

/-- `to_f64(R.SAMPLERATE)` (R89). -/
def CoreState.sampleRate (c : CoreState) : F64 := Fp.ofNat c.regs.samplerate.toNat

/-- The descriptor of an oscillator (R37). -/
def Regs.osc (r : Regs) : OscId → OscRegs
  | .osc0 => r.osc0
  | .osc1 => r.osc1

/-- The descriptor of an envelope (R38). -/
def Regs.env (r : Regs) : EnvId → EnvRegs
  | .env0 => r.env0
  | .env1 => r.env1

/-- The descriptor of an LFO (R39). -/
def Regs.lfo (r : Regs) : LfoId → LfoRegs
  | .lfo0 => r.lfo0
  | .lfo1 => r.lfo1

/-- The ROUTE register of a source (R40). -/
def Regs.route (r : Regs) : Source → BitVec 32
  | .env0 => r.env0.route
  | .env1 => r.env1.route
  | .lfo0 => r.lfo0.route
  | .lfo1 => r.lfo1.route
  | .noise => r.noise.route

/-- Slot `i` of a ROUTE register, bits 4i+3 .. 4i (R40). -/
def routeSlot (r : BitVec 32) (i : Nat) : BitVec 4 := r.extractLsb' (4 * i) 4

/-! ## Sources -/

/-- SOURCES, the fixed priority order (R19). -/
def sources : List Source := [.env0, .env1, .lfo0, .lfo1, .noise]

/-! ## Working buffers (R43) -/

/-- The working buffer of a source. -/
def Work.of (w : Work) : Source → List F64
  | .env0 => w.env0
  | .env1 => w.env1
  | .lfo0 => w.lfo0
  | .lfo1 => w.lfo1
  | .noise => w.noise

/-- Replace the working buffer of a source. -/
def Work.setOf (w : Work) (src : Source) (b : List F64) : Work :=
  match src with
  | .env0 => { w with env0 := b }
  | .env1 => { w with env1 := b }
  | .lfo0 => { w with lfo0 := b }
  | .lfo1 => { w with lfo1 := b }
  | .noise => { w with noise := b }

/-- Replace W_PITCH. -/
def Work.setPitch (w : Work) (b : List F64) : Work := { w with pitch := b }

/-- Entry `i` of a working buffer; an unspecified entry is a free value (R26, R50, log 7). -/
def entry (P : Params) (b : List F64) (i : Nat) : F64 := b.getD i (P.stale i)

/-- `W_src[i]`. -/
def CoreState.sourceAt (P : Params) (c : CoreState) (src : Source) (i : Nat) : F64 := entry P (c.work.of src) i

/-- Write entries 0, 1, … of a working buffer; the entries past them keep what they held. -/
def fillEntries (new old : List F64) : List F64 := new ++ old.drop new.length

/-- Replace the working buffer of a source on the addressed instance. -/
def State.setSource (src : Source) (b : List F64) (s : State) : State :=
  s.setCore (s.core.setWork (s.core.work.setOf src b))

/-- Replace W_PITCH on the addressed instance. -/
def State.setPitch (b : List F64) (s : State) : State :=
  s.setCore (s.core.setWork (s.core.work.setPitch b))

/-! ## Sample elements -/

/-- EA(i) = u64(BUFFER_BASE + i × STRIDE × ESIZE(F)) (R61). -/
def elementAddr (F : Format) (c : CoreState) (i : Nat) : Addr :=
  c.regs.bufferBase + BitVec.ofNat 64 (i * c.regs.stride.toNat * F.esize)

/-- `a` is one of the `n` bytes from `base`, wrapping (R62). -/
def inRun (base : Addr) (n : Nat) (a : Addr) : Bool := decide ((a - base).toNat < n)

/-- `a` is a byte of some element of the call window (R61, R75). -/
def elementHas (F : Format) (c : CoreState) (a : Addr) : Bool :=
  (List.range c.frames).any fun i => inRun (elementAddr F c i) F.esize a

/-- `a` is a byte some sample access of the call window touches (R65). -/
def accessHas (F : Format) (c : CoreState) (a : Addr) : Bool :=
  (List.range c.frames).any fun i => inRun (elementAddr F c i) F.accessBytes a

/-- The bytes of one element, or of one access, of frame `i`: `n` bytes from EA(i). -/
def frameBytes (F : Format) (c : CoreState) (n i : Nat) : List Addr :=
  (List.range n).map fun j => elementAddr F c i + BitVec.ofNat 64 j

end Sys2Proof.Machine
end

