-- ==== Sys2Proof/Machine/Duties.lean ====
section
/-! DEFINITION. The duties of the host and the platform whose breach is a model fault (spec/60_exceptions.md R241).
CORE cannot detect any of them. The first breach in time is the fault; for breaches at one moment the order of
R241's table holds (log 15). -/

namespace Sys2Proof.Machine

/-- `a` lies in a register window: 0x400 bytes from an INSTANCE_BASE (R23, R272). -/
def inRegisterWindow (pl : Platform) (a : Addr) : Bool := pl.windows.any fun w => inRun w 0x400 a

/-- `a` lies in one of the regions. -/
def inRegions (rs : List Region) (a : Addr) : Bool := rs.any fun r => inRun r.base r.size a

/-- `a` lies where R272 forbids an element: in a register window or in the shared table device. -/
def inWindowOrTable (pl : Platform) (a : Addr) : Bool := inRegisterWindow pl a || inRegions pl.table a

/-- Every byte of every element of the call window, frame by frame (R61). -/
def windowBytes (F : Format) (c : CoreState) : List Addr :=
  (List.range c.frames).flatMap (frameBytes F c F.esize)

/-- The duties on where the buffer lies, broken or met when the COMPUTE starts: BUFFER_IN_WINDOW (R272), then
DEVICE_MEMORY (R67). -/
def placementFault (F : Format) (s : State) : Option Fault :=
  if (windowBytes F s.core).any (inWindowOrTable s.platform) then some .bufferInWindow
  else if (windowBytes F s.core).any (inRegions s.platform.device) then some .deviceMemory
  else none

/-- `a` is a byte of the call window of an instance other than the addressed one that is BUSY (R75). -/
def heldByOther (s : State) (a : Addr) : Bool :=
  s.others.any fun e =>
    match e.2.inFlight with
    | some F => elementHas F e.2 a
    | none => false

/-- `a` is a byte of the call window of any BUSY instance (R75). -/
def heldByAny (s : State) (a : Addr) : Bool :=
  (match s.core.inFlight with
    | some F => elementHas F s.core a
    | none => false) || heldByOther s a

/-- What the sample accesses of frame `i` break: BUFFER_SHARED (R75), then BUS_ERROR (R68, R69). DESIGN CHOICE
(log 9): the addresses the platform refuses are the same for every instance. -/
def accessFault (F : Format) (s : State) (i : Nat) : Option Fault :=
  if (frameBytes F s.core F.accessBytes i).any (heldByOther s) then some .bufferShared
  else if (frameBytes F s.core F.accessBytes i).any (inRegions s.platform.unreachable) then some .busError
  else none

/-- TABLE_UNCONSTRUCTED, when the pitch stage is reached (R262). -/
def tableFault (s : State) : Option Fault := if s.tableBuilt then none else some .tableUnconstructed

/-- The first duty a COMPUTE with a non-null buffer breaks: where the buffer lies, then the accesses of OSC0 frame by
frame, then the table at the pitch stage. Later stages access the same bytes. -/
def computeFault (F : Format) (s : State) : Option Fault :=
  match placementFault F s with
  | some f => some f
  | none =>
    match (List.range s.core.frames).findSome? (accessFault F s) with
    | some f => some f
    | none => tableFault s

/-- Some instance is BUSY (R72). -/
def anyBusy (s : State) : Bool := s.core.busy || s.others.any fun e => e.2.busy

end Sys2Proof.Machine
end

