-- ==== Sys2Proof/Machine/Routing.lean ====
section
/-! DEFINITION. The routing table (spec/41_routing.md): two pure functions of the five ROUTE registers. -/

namespace Sys2Proof.Machine

/-- `routes(src, dst)` (R120): some slot of the source's ROUTE register holds the destination's tag. -/
def routes (r : Regs) (src : Source) (dst : Dest) : Bool :=
  (List.range 8).any fun i => routeSlot (r.route src) i == dst.code

/-- `has_routing(src)` (R121): some slot is not NONE. -/
def hasRouting (r : Regs) (src : Source) : Bool :=
  (List.range 8).any fun i => routeSlot (r.route src) i != 0

end Sys2Proof.Machine
end

