-- ==== Sys2Proof/Machine/Envelope.lean ====
section
/-! DEFINITION. The envelope driver (spec/42_envelope.md R130 to R140). -/

namespace Sys2Proof.Machine

/-- The breakpoint list BP = [ATTACK, DECAY, SUSTAIN, RELEASE] (R130). -/
def breakpoint (e : EnvRegs) : Nat → F64
  | 0 => e.attack
  | 1 => e.decay
  | 2 => e.sustain
  | _ => e.release

/-- Q, the quarter length: N div 4 (R131), or the alternative basis of R140 where a model sets it. -/
def quarterLength (P : Params) (r : Regs) (e : EnvRegs) : Nat :=
  match P.segmentBasis with
  | .noteQuarters => r.frameCount.toNat / 4
  | .driveFrequency =>
    let x := Fp.div (Fp.ofNat r.samplerate.toNat) e.frequency
    if Fp.isFinite x && Fp.le Fp.zero x && Fp.lt x 0x43F0000000000000 then (Fp.trunc x).toNat else 0

/-- q, the quarter of absolute time `t` (R132). -/
def quarterOf (q t : Nat) : Nat := if q = 0 then 3 else min (t / q) 3

/-- The exclusive end of quarter `q` (R130). DEDUCED (log 13): never past the note end N, which the alternative basis
keeps (R135, R136, R140); with quarters of the note the minimum changes nothing. -/
def quarterEnd (len noteEnd q : Nat) : Nat := if q < 3 then min ((q + 1) * len) noteEnd else noteEnd

/-- The slope of quarter `q` (R133). -/
def quarterSlope (e : EnvRegs) (len q : Nat) : F64 :=
  if q < 3 then Fp.div (Fp.sub (breakpoint e (q + 1)) (breakpoint e q)) (Fp.ofNat len) else Fp.zero

/-- The ramp's value at absolute time `t` of quarter `q` (R134). -/
def quarterStart (e : EnvRegs) (len q t : Nat) : F64 :=
  Fp.add (breakpoint e q) (Fp.mul (quarterSlope e len q) (Fp.ofNat (t - q * len)))

/-- `n`, the length of the sub-range from the cursor `c` (R130, R135). -/
def subRange (P : Params) (e : EnvId) (r : Regs) (c : Nat) : Nat :=
  let len := quarterLength P r (r.env e)
  let t := r.offset.toNat + c
  min (r.bufferLength.toNat - c) (quarterEnd len r.frameCount.toNat (quarterOf len t) - t)

/-- One ENV_KERNEL call (R137, R138): entries c .. c+n−1 of the buffer, replaced in place. -/
def applyEnvKernel (P : Params) (w : List F64) (c n : Nat) (v0 slope : F64) : List F64 :=
  let slice := (w.drop c).take n
  w.take c ++ (List.range n).map (P.envKernel slice c v0 slope) ++ w.drop (c + n)

/-- The default ENV_KERNEL (R137): W[c + j] ← W[c + j] × (v0 + slope × j). A parameter value, used by the spec's test
vectors; the machine's own kernel is the opaque `Config.envKernel`. -/
def defaultEnvKernel : List F64 → Nat → F64 → F64 → Nat → F64 :=
  fun slice _ v0 slope j => Fp.mul (slice.getD j Fp.one) (Fp.add v0 (Fp.mul slope (Fp.ofNat j)))

/-- One pass of the driver's loop at the cursor `c` (R130). -/
def envPass (P : Params) (e : EnvId) (c : Nat) (s : State) : State :=
  let r := s.core.regs
  let len := quarterLength P r (r.env e)
  let t := r.offset.toNat + c
  let q := quarterOf len t
  let v0 := settle P (quarterStart (r.env e) len q t) s
  let slope := settle P (quarterSlope (r.env e) len q) v0.2
  slope.2.setSource e.source
    (applyEnvKernel P (slope.2.core.work.of e.source) c (subRange P e r c) v0.1 slope.1)

/-- The loop `while c < L and O + c < N` (R130, R135); every pass has n ≥ 1, so L passes are enough. -/
def envLoop (P : Params) (e : EnvId) : Nat → Nat → State → State
  | 0, _, s => s
  | fuel + 1, c, s =>
    if c < s.core.frames ∧ s.core.time c < s.core.regs.frameCount.toNat then
      envLoop P e fuel (c + subRange P e s.core.regs c) (envPass P e c s)
    else s

/-- `EnvDrive(e)` (R130, R139). -/
def envDrive (P : Params) (e : EnvId) (s : State) : State :=
  if hasRouting s.core.regs e.source then
    let ones := fillEntries (List.replicate s.core.frames Fp.one) (s.core.work.of e.source)
    envLoop P e s.core.frames 0 (s.setSource e.source ones)
  else s

end Sys2Proof.Machine
end

