-- ==== Sys2Proof/Machine/Flags.lean ====
section
/-! DEFINITION. CORE's one flag, STATUS.BUSY (spec/10_state.md R22, R27; spec/40_compute_command.md R102). No
arithmetic result sets a flag. -/

namespace Sys2Proof.Machine

/-- BUSY ← 1: a COMPUTE of format `F` is in flight on the addressed instance (R102). -/
def State.begin (F : Format) (s : State) : State := s.setCore (s.core.setInFlight (some F))

/-- BUSY ← 0: nothing is in flight on the addressed instance (R102). -/
def State.complete (s : State) : State := s.setCore (s.core.setInFlight none)

/-- The data word a read of STATUS returns (R27): BUSY in bit 0, the other bits 0. -/
def statusWord (c : CoreState) : Data := if c.busy then 1 else 0

end Sys2Proof.Machine
end

