-- ==== Sys2Proof/Machine/LfoNoise.lean ====
section
/-! DEFINITION. The LFO and noise drivers (spec/43_lfo_noise.md R150 to R156). -/

namespace Sys2Proof.Machine

/-- One LFO_KERNEL call on the cleared buffer: its L values (R150, R151, R152). -/
def lfoValues (P : Params) (l : LfoId) (r : Regs) : List F64 :=
  let d := r.lfo l
  let L := r.bufferLength.toNat
  (List.range L).map (P.lfoKernel
    { entry := d.kind.lfoEntry, frequency := d.frequency, depth := d.depth, tuning := d.tuning
      samplerate := r.samplerate, offset := r.offset, frames := L, buffer := List.replicate L Fp.zero })

/-- `LfoDrive(l)` (R150, R156). -/
def lfoDrive (P : Params) (l : LfoId) (s : State) : State :=
  if hasRouting s.core.regs l.source then
    s.setSource l.source (fillEntries (lfoValues P l s.core.regs) (s.core.work.of l.source))
  else s

/-- `NOISE(mode, frequency, gain, samplerate, offset, n)` (R153, R154): `n` fresh draws. "The noise parameters are
passed to the kernel but constrain nothing." -/
def noiseValues (P : Params) (_mode : BitVec 64) (_frequency _gain : F64) (_samplerate : BitVec 32)
    (_offset : BitVec 64) : Nat → State → List F64 × State
  | 0, s => ([], s)
  | n + 1, s =>
    let rest := noiseValues P _mode _frequency _gain _samplerate _offset n (draw P s).2
    ((draw P s).1 :: rest.1, rest.2)

/-- `NoiseDrive()` (R153, R156). -/
def noiseDrive (P : Params) (s : State) : State :=
  if hasRouting s.core.regs .noise then
    let r := s.core.regs
    let v := noiseValues P P.noiseModeFixed r.noise.frequency r.noise.gain r.samplerate r.offset s.core.frames s
    v.2.setSource .noise (fillEntries v.1 (s.core.work.of .noise))
  else s

end Sys2Proof.Machine
end

