-- ==== Sys2Proof/Machine/Formats.lean ====
section
/-! DEFINITION. The eight sample encodings (spec/47_format.md R215 to R224): the full-scale multipliers and the three
primitives LoadAsDouble, StoreFromDouble and Accumulate, through which every stage reaches sample memory. -/

namespace Sys2Proof.Machine

/-- SCALE(F) (R216). -/
def scale (P : Params) : Format → F64
  | .s8 => 0x405FC00000000000
  | .s16 => 0x40DFFFC000000000
  | .s24 => 0x415FFFFFC0000000
  | .s32 => P.fullScaleS32
  | .s64 => 0x43E0000000000000
  | .float => Fp.one
  | .double => Fp.one
  | .complex => Fp.one

/-- `ConvInt_N(x)` (R220): truncation toward zero, then two's-complement wrap; any N-bit value for a NaN or an
infinity. -/
def convInt (P : Params) (n : Nat) (x : F64) (s : State) : BitVec n × State :=
  if Fp.isFinite x then (BitVec.ofInt n (Fp.trunc x), s) else ((draw P s).1.setWidth n, (draw P s).2)

/-- The N-bit field of the element of frame `i` (R217). -/
def loadBits (n : Nat) (F : Format) (i : Nat) (s : State) : BitVec n :=
  BitVec.ofNat n (readLE s.mem (elementAddr F s.core i) (n / 8))

/-- Store the N-bit field of the element of frame `i`. -/
def storeBits {n : Nat} (F : Format) (i : Nat) (v : BitVec n) (s : State) : State :=
  s.setMem (writeLE (elementAddr F s.core i) (n / 8) v.toNat s.mem)

/-- `StoreFromDouble` of the integer encodings: `MemWrite(EA(i), N/8, ConvInt_N(v))` (R221). -/
def storeInt (P : Params) (n : Nat) (F : Format) (i : Nat) (v : F64) (s : State) : State :=
  storeBits F i (convInt P n v s).1 (convInt P n v s).2

/-- `Accumulate` of the integer encodings: the addend is truncated, then added with wrap-around (R222). -/
def accumulateInt (P : Params) (n : Nat) (F : Format) (i : Nat) (a : F64) (s : State) : State :=
  storeBits F i (loadBits n F i s + (convInt P n a s).1) (convInt P n a s).2

/-- `Accumulate` of DOUBLE, and of the real part of COMPLEX (R222). -/
def accumulateReal (P : Params) (F : Format) (i : Nat) (a : F64) (s : State) : State :=
  let sum := settle P (Fp.add (loadBits 64 F i s) a) s
  storeBits F i sum.1 sum.2

/-- `StoreFromDouble(i, v)` (R221). A computed `v` has been through `settle`. -/
def storeFromDouble (P : Params) (F : Format) (i : Nat) (v : F64) (s : State) : State :=
  match F with
  | .s8 => storeInt P 8 F i v s
  | .s16 => storeInt P 16 F i v s
  | .s24 => storeInt P 32 F i v s
  | .s32 => storeInt P 32 F i v s
  | .s64 => storeInt P 64 F i v s
  | .float => storeBits F i (settle32 P (Fp.toF32 v) s).1 (settle32 P (Fp.toF32 v) s).2
  | .double => storeBits F i v s
  | .complex => storeBits F i v s

/-- `Accumulate(i, a)` (R222). -/
def accumulate (P : Params) (F : Format) (i : Nat) (a : F64) (s : State) : State :=
  match F with
  | .s8 => accumulateInt P 8 F i a s
  | .s16 => accumulateInt P 16 F i a s
  | .s24 => accumulateInt P 32 F i a s
  | .s32 => accumulateInt P 32 F i a s
  | .s64 => accumulateInt P 64 F i a s
  | .float =>
    let sum := settle32 P (Fp.add32 (loadBits 32 F i s) (Fp.toF32 a)) s
    storeBits F i sum.1 sum.2
  | .double => accumulateReal P F i a s
  | .complex => accumulateReal P F i a s

/-- `LoadAsDouble(i)` (R223). -/
def loadAsDouble (F : Format) (i : Nat) (s : State) : F64 :=
  match F with
  | .s8 => Fp.ofInt (loadBits 8 F i s).toInt
  | .s16 => Fp.ofInt (loadBits 16 F i s).toInt
  | .s24 => Fp.ofInt (loadBits 32 F i s).toInt
  | .s32 => Fp.ofInt (loadBits 32 F i s).toInt
  | .s64 => Fp.ofInt (loadBits 64 F i s).toInt
  | .float => Fp.widen (loadBits 32 F i s)
  | .double => loadBits 64 F i s
  | .complex => loadBits 64 F i s

end Sys2Proof.Machine
end

