-- ==== Sys2Proof/Machine/Oscillator.lean ====
section
/-! DEFINITION. Oscillator synthesis (spec/44_oscillator.md R160 to R177). -/

namespace Sys2Proof.Machine

/-- The unipolar remap (s + 1.0) / 2.0 (R18). -/
def unipolar (x : F64) : F64 := Fp.div (Fp.add x Fp.one) Fp.two

/-- The bipolar remap 2.0 × e − 1.0 of an envelope value (R18). -/
def bipolar (x : F64) : F64 := Fp.sub (Fp.mul Fp.two x) Fp.one

/-- The quantities Bend works on: frequency, phase and volume (R161). -/
structure Bent where
  freq : F64
  phase : F64
  vol : F64
  deriving DecidableEq, Repr

/-- A frequency bent by one routed sample (R161); OSC1's envelope bend is bipolar (R162). -/
def bendFreq (k : OscId) (src : Source) (x f : F64) : F64 :=
  if src.isEnv then
    match k with
    | .osc0 => Fp.mul f x
    | .osc1 => Fp.mul f (bipolar x)
  else Fp.mul f (unipolar x)

/-- A phase bent by one routed sample (R161). -/
def bendPhase (src : Source) (x ph : F64) : F64 :=
  if src.isEnv then Fp.add ph (Fp.mul x Fp.twoPi) else Fp.add ph (Fp.mul (Fp.add x Fp.one) Fp.pi)

/-- A gain bent by one routed sample (R161, R210). -/
def bendGain (src : Source) (x v : F64) : F64 :=
  if src.isEnv then Fp.mul v x else Fp.mul v (unipolar x)

/-- `Bend(k, src, i, f, ph, v)` (R161). -/
def bend (P : Params) (k : OscId) (i : Nat) (c : CoreState) (b : Bent) (src : Source) : Bent where
  freq := if routes c.regs src k.frequencyDest then bendFreq k src (c.sourceAt P src i) b.freq else b.freq
  phase := if routes c.regs src k.phaseDest then bendPhase src (c.sourceAt P src i) b.phase else b.phase
  vol := if routes c.regs src k.volumeDest then bendGain src (c.sourceAt P src i) b.vol else b.vol

/-- Every source's bend, in the order SOURCES (R160). -/
def bendAll (P : Params) (k : OscId) (i : Nat) (c : CoreState) : Bent :=
  sources.foldl (bend P k i c) ⟨(c.regs.osc k).frequency, (c.regs.osc k).phase, (c.regs.osc k).volume⟩

/-- The frequency clamp (R163); a NaN fails the comparison and stays. -/
def clampFreq (P : Params) (f : F64) : F64 := if Fp.lt f P.freqEpsilon then P.freqEpsilon else f

/-- tp = t + (ph × sr) / (TWO_PI × f) (R164). -/
def shiftedTime (t ph f sr : F64) : F64 := Fp.add t (Fp.div (Fp.mul ph sr) (Fp.mul Fp.twoPi f))

/-- arg = ((TWO_PI × f) × tp) / sr (R165). -/
def sineArg (f tp sr : F64) : F64 := Fp.div (Fp.mul (Fp.mul Fp.twoPi f) tp) sr

/-- r, the position in the period (R165, R167). -/
def periodPosition (f tp sr : F64) : F64 :=
  let period := Fp.div sr f
  let m := Fp.fmod tp period
  Fp.div (if Fp.lt m Fp.zero then Fp.add m period else m) period

/-- Sawtooth (R168). -/
def sawtooth (r : F64) : F64 := Fp.sub (Fp.mul Fp.two r) Fp.one

/-- Triangle (R169): the doubled ramp u, folded above 1.0. -/
def triangle (r : F64) : F64 :=
  let u := Fp.sub (Fp.mul Fp.four r) Fp.one
  if Fp.le u Fp.one then u else Fp.sub Fp.two u

/-- Square and pulse (R170, R171): +1.0 from the threshold up, −1.0 below it and for a NaN. -/
def atThreshold (x threshold : F64) : F64 := if Fp.le threshold x then Fp.one else Fp.negOne

/-- PULSE_THRESHOLD = SIN((TWO_PI × 3.0) / 5.0) (R171). -/
def pulseThreshold (P : Params) : F64 := P.sin (Fp.div (Fp.mul Fp.twoPi Fp.three) Fp.five)

/-- `Wave(kind, f, tp, sr)` (R165 to R171). -/
def wave (P : Params) (kind : Kind) (f tp sr : F64) (s : State) : F64 × State :=
  match kind with
  | .sine => sinOf P (sineArg f tp sr) s
  | .sawtooth => (sawtooth (periodPosition f tp sr), s)
  | .triangle => (triangle (periodPosition f tp sr), s)
  | .square => (atThreshold (sinOf P (sineArg f tp sr) s).1 Fp.zero, (sinOf P (sineArg f tp sr) s).2)
  | .pulse => (atThreshold (sinOf P (sineArg f tp sr) s).1 (pulseThreshold P), (sinOf P (sineArg f tp sr) s).2)

/-- The addend a = (w × SCALE(F)) × v (R172). -/
def addend (P : Params) (F : Format) (w v : F64) : F64 := Fp.mul (Fp.mul w (scale P F)) v

/-- One frame of `OscRender(k)` (R160). -/
def oscFrame (P : Params) (k : OscId) (F : Format) (s : State) (i : Nat) : State :=
  let sr := s.core.sampleRate
  let b := bendAll P k i s.core
  let f := clampFreq P b.freq
  let w := wave P (s.core.regs.osc k).kind f (shiftedTime (Fp.ofNat (s.core.time i)) b.phase f sr) sr s
  accumulate P F i (addend P F w.1 b.vol) w.2

/-- `OscRender(k)` (R160). -/
def oscRender (P : Params) (k : OscId) (F : Format) (s : State) : State :=
  (List.range s.core.frames).foldl (oscFrame P k F) s

end Sys2Proof.Machine
end

