-- ==== Sys2Proof/Machine/Pitch.lean ====
section
/-! DEFINITION. The pitch stage (spec/45_pitch.md R190 to R204). -/

namespace Sys2Proof.Machine

/-- The snapshot X[0] .. X[L−1] (R196). -/
def snapshot (F : Format) (s : State) : List F64 :=
  (List.range s.core.frames).map fun j => loadAsDouble F j s

/-- `POW2(x / 12.0) × 440.0` of a key distance `x` in semitones (R191, R194). -/
def keyPitch (P : Params) (x : F64) (s : State) : F64 × State :=
  let p := pow2Of P (Fp.div x Fp.twelve) s
  (Fp.mul p.1 Fp.fourForty, p.2)

/-- bk − 48.0 (R191). -/
def keyDistance (r : Regs) : F64 := Fp.sub r.pitchBaseKey Fp.fortyEight

/-- One routed source's contribution to the tuning, in cents (R193). -/
def tuneBy (src : Source) (x tun : F64) : F64 :=
  if src.isEnv then Fp.add tun (Fp.mul (bipolar x) Fp.twelveHundred)
  else Fp.add tun (Fp.mul (unipolar x) Fp.twelveHundred)

/-- `Tuning(i)` (R193). -/
def tuning (P : Params) (i : Nat) (c : CoreState) : F64 :=
  sources.foldl
    (fun tun src => if routes c.regs src .pitchTuning then tuneBy src (c.sourceAt P src i) tun else tun)
    c.regs.pitchTuning

/-- The fallback of the ratio (R194): 1.0 where it equals 0.0. -/
def ratioFallback (x : F64) : F64 := if Fp.eqv x Fp.zero then Fp.one else x

/-- `ToFixed(ratio)` (R194): floor(ratio × 2^32) of a ratio in [0, 2^32), any increment otherwise. -/
def toFixed (P : Params) (ratio : F64) (s : State) : BitVec 64 × State :=
  if Fp.isFinite ratio && Fp.le Fp.zero ratio && Fp.lt ratio 0x41F0000000000000 then
    (BitVec.ofNat 64 (Fp.mag ratio * 2 ^ 32 / 2 ^ 1074), s)
  else draw P s

/-- The integer sample index k = PHASE_ACC[63:32] (R195). -/
def phaseIndex (p : BitVec 64) : Nat := (p.extractLsb' 32 32).toNat

/-- The row function row(p) = p[31:24] (R195). -/
def phaseRow (p : BitVec 64) : BitVec 8 := p.extractLsb' 24 8

/-- cl(j) = min(max(j, 0), L − 1) (R198). -/
def clampIndex (L : Nat) (j : Int) : Nat := (min (max j 0) ((L : Int) - 1)).toNat

/-- X[cl(j)]. -/
def neighbour (X : List F64) (j : Int) : F64 := X.getD (clampIndex X.length j) Fp.zero

/-- ((c0 × X[k−1] + c1 × X[k]) + c2 × X[k+1]) + c3 × X[k+2], each index clamped (R198). DEDUCED (log 32): the
sum of R190 and R198 in the order written, also past the end of the window, where R198 says it is exactly X[L − 1] for the
default table and rounding can make it differ in the last place. -/
def interpolate (c : CoeffRow) (X : List F64) (k : Nat) : F64 :=
  Fp.add (Fp.add (Fp.add (Fp.mul c.c0 (neighbour X ((k : Int) - 1))) (Fp.mul c.c1 (neighbour X k)))
    (Fp.mul c.c2 (neighbour X ((k : Int) + 1)))) (Fp.mul c.c3 (neighbour X ((k : Int) + 2)))

/-- Write entry `i` of W_PITCH; the loop has written every entry before it. -/
def putEntry (b : List F64) (i : Nat) (v : F64) : List F64 := b.take i ++ v :: b.drop (i + 1)

/-- The increment of output frame `i` (R190, R194). -/
def frameIncr (P : Params) (root : F64) (i : Nat) (s : State) : BitVec 64 × State :=
  let tun := tuning P i s.core
  let num := keyPitch P (Fp.add (keyDistance s.core.regs) (Fp.div tun Fp.hundred)) s
  toFixed P (ratioFallback (Fp.div num.1 root)) num.2

/-- One output frame: read at the phase on entry, then advance it by this frame's increment (R190, R199). -/
def pitchFrame (P : Params) (root : F64) (X : List F64) (s : State) (i : Nat) : State :=
  let inc := frameIncr P root i s
  let s1 := inc.2.setCore (inc.2.core.setIncr inc.1)
  let p := s1.core.phaseAcc
  let row := tableRead P (phaseRow p) s1
  let v := settle P (interpolate row.1 X (phaseIndex p)) row.2
  let s2 := v.2.setPitch (putEntry v.2.core.work.pitch i v.1)
  s2.setCore (s2.core.setPhaseAcc (p + inc.1))

/-- The copy-back of one frame (R200). -/
def copyBack (P : Params) (F : Format) (s : State) (i : Nat) : State :=
  storeFromDouble P F i (entry P s.core.work.pitch i) s

/-- `PitchStage()` (R190, R203). -/
def pitchStage (P : Params) (F : Format) (s : State) : State :=
  if s.core.frames = 0 then s
  else
    let X := snapshot F s
    let root := keyPitch P (keyDistance s.core.regs) s
    let start := root.2.setCore (root.2.core.setPhaseAcc 0)
    let done := (List.range s.core.frames).foldl (pitchFrame P root.1 X) start
    (List.range s.core.frames).foldl (copyBack P F) done

/-! ## The default coefficient table (R197) -/

/-- The weight `num / (2 × 2^24)` rounded to binary64; a zero weight is +0.0. -/
def weight (num : Int) : F64 := Fp.roundUnits false (num * 2 ^ 1074) (2 ^ 25)

/-- R197: the 4-point Lagrange row at x = r / 256. A parameter value, used by the spec's test vectors; the machine's
own table is the opaque `Config.coeff`. -/
def defaultCoeff (r : BitVec 8) : CoeffRow :=
  let x : Int := r.toNat
  { c0 := weight (-(x * (x - 256) * (x - 512)) / 3)
    c1 := weight ((x + 256) * (x - 256) * (x - 512))
    c2 := weight (-((x + 256) * x * (x - 512)))
    c3 := weight ((x + 256) * x * (x - 256) / 3) }

end Sys2Proof.Machine
end

