-- ==== Sys2Proof/Machine/Volume.lean ====
section
/-! DEFINITION. The volume stage (spec/46_volume.md R210 to R213). -/

namespace Sys2Proof.Machine

/-- The gain g of frame `i`: the base volume times every routed source's sample, in the order SOURCES (R210). -/
def gain (P : Params) (i : Nat) (c : CoreState) : F64 :=
  sources.foldl
    (fun g src => if routes c.regs src .volume then bendGain src (c.sourceAt P src i) g else g)
    c.regs.volume

/-- One frame of the stage (R210). -/
def volumeFrame (P : Params) (F : Format) (s : State) (i : Nat) : State :=
  let v := settle P (Fp.mul (loadAsDouble F i s) (gain P i s.core)) s
  storeFromDouble P F i v.1 v.2

/-- `VolumeStage()` (R210, R211). -/
def volumeStage (P : Params) (F : Format) (s : State) : State :=
  (List.range s.core.frames).foldl (volumeFrame P F) s

end Sys2Proof.Machine
end

