-- ==== Sys2Proof/Machine/Commands.lean ====
section
/-! DEFINITION. The commands of CORE (spec/40_compute_command.md R100 to R108; spec/47_format.md R225 to R232): the
stage order of a COMPUTE, and one meaning for each instruction of spec/opcode_table.json. -/

namespace Sys2Proof.Machine

/-- The stages of a COMPUTE with a non-null buffer, in the order of R103, through the primitives of format `F`
(R215). -/
def stages (P : Params) (F : Format) (s : State) : State :=
  let s := envDrive P .env0 s
  let s := envDrive P .env1 s
  let s := lfoDrive P .lfo0 s
  let s := lfoDrive P .lfo1 s
  let s := noiseDrive P s
  let s := oscRender P .osc0 F s
  let s := oscRender P .osc1 F s
  let s := pitchStage P F s
  volumeStage P F s

/-- The whole of one COMPUTE as one atomic step (R105): nothing for a null buffer (R101), else BUSY ← 1, the stages,
BUSY ← 0 (R102, R108); or the first duty that is broken (R241). -/
def runCompute (P : Params) (F : Format) (s : State) : Host.Outcome State Fault Refusal :=
  if s.core.regs.bufferBase = 0 then .next s.complete
  else
    match computeFault F s with
    | some f => .fault f
    | none => .next (stages P F (s.begin F)).complete

/-- A CMD write's duty (R270): while BUSY = 1 the host must not write CMD. -/
def command (s : State) (effect : Host.Outcome State Fault Refusal) : Host.Outcome State Fault Refusal :=
  if s.core.busy then .fault .hostWriteWhileBusy else effect

/-- A COMPUTE command at the parameters `P`. -/
def computeCommand (P : Params) (F : Format) (s : State) : Host.Outcome State Fault Refusal :=
  command s (runCompute P F s)

/-- The start of a COMPUTE whose completion other events overlap (R102): BUSY ← 1 where the duties of the start are
met, and the format is kept (R215); a null buffer completes at once (R101). -/
def startCompute (F : Format) (s : State) : Host.Outcome State Fault Refusal :=
  command s
    (if s.core.regs.bufferBase = 0 then .next s
     else
      match placementFault F s with
      | some f => .fault f
      | none => .next (s.begin F))

/-! ## One meaning for each instruction -/

/-- NOP (R100): no register, buffer, memory or hidden state changes. -/
def execNop (_fmt : Format) (s : State) : Host.Outcome State Fault Refusal := command s (.next s)

/-- COMPUTE.S8 (R225). -/
def execComputeS8 (s : State) : Host.Outcome State Fault Refusal := computeCommand Config.params .s8 s

/-- COMPUTE.S16 (R226). -/
def execComputeS16 (s : State) : Host.Outcome State Fault Refusal := computeCommand Config.params .s16 s

/-- COMPUTE.S24 (R227). -/
def execComputeS24 (s : State) : Host.Outcome State Fault Refusal := computeCommand Config.params .s24 s

/-- COMPUTE.S32 (R228). -/
def execComputeS32 (s : State) : Host.Outcome State Fault Refusal := computeCommand Config.params .s32 s

/-- COMPUTE.S64 (R229). -/
def execComputeS64 (s : State) : Host.Outcome State Fault Refusal := computeCommand Config.params .s64 s

/-- COMPUTE.FLOAT (R230). -/
def execComputeFloat (s : State) : Host.Outcome State Fault Refusal := computeCommand Config.params .float s

/-- COMPUTE.DOUBLE (R231). -/
def execComputeDouble (s : State) : Host.Outcome State Fault Refusal := computeCommand Config.params .double s

/-- COMPUTE.COMPLEX (R232). -/
def execComputeComplex (s : State) : Host.Outcome State Fault Refusal := computeCommand Config.params .complex s

/-- RESERVED, OP 0x2 and 0x3 (R107): the same as NOP. -/
def execReserved2 (_fmt : Format) (_op : BitVec 4) (s : State) : Host.Outcome State Fault Refusal :=
  command s (.next s)

/-- RESERVED, OP 0x4 .. 0x7 (R107): the same as NOP. -/
def execReserved4 (_fmt : Format) (_op : BitVec 4) (s : State) : Host.Outcome State Fault Refusal :=
  command s (.next s)

/-- RESERVED, OP 0x8 .. 0xF (R107): the same as NOP. -/
def execReserved8 (_fmt : Format) (_op : BitVec 4) (s : State) : Host.Outcome State Fault Refusal :=
  command s (.next s)

end Sys2Proof.Machine
end

