-- ==== Sys2Proof/Machine/Dispatch.lean ====
section
/-! DEFINITION. The one dispatch: one arm for each constructor of Instr, each a direct call of its meaning. -/

namespace Sys2Proof.Machine

def exec (i : Instr) (s : State) : Host.Outcome State Fault Refusal :=
  match i with
  | .nop fmt => Sys2Proof.Machine.execNop fmt s
  | .computeS8 => Sys2Proof.Machine.execComputeS8 s
  | .computeS16 => Sys2Proof.Machine.execComputeS16 s
  | .computeS24 => Sys2Proof.Machine.execComputeS24 s
  | .computeS32 => Sys2Proof.Machine.execComputeS32 s
  | .computeS64 => Sys2Proof.Machine.execComputeS64 s
  | .computeFloat => Sys2Proof.Machine.execComputeFloat s
  | .computeDouble => Sys2Proof.Machine.execComputeDouble s
  | .computeComplex => Sys2Proof.Machine.execComputeComplex s
  | .reserved2 fmt op => Sys2Proof.Machine.execReserved2 fmt op s
  | .reserved4 fmt op => Sys2Proof.Machine.execReserved4 fmt op s
  | .reserved8 fmt op => Sys2Proof.Machine.execReserved8 fmt op s

end Sys2Proof.Machine
end

