-- ==== Sys2Proof/Machine/Registers.lean ====
section
/-! DEFINITION. The register file as the host sees it (spec/10_state.md R23 to R42; spec/30_encoding.md R80, R81):
the map of window offsets, what a write stores and what a read returns. -/

namespace Sys2Proof.Machine

/-- R24: the window offset of a register. -/
def regOffset : Reg → BitVec 10
  | .cmd => 0x000 | .status => 0x008 | .bufferBase => 0x010 | .stride => 0x018 | .format => 0x020
  | .samplerate => 0x028 | .bufferLength => 0x030 | .offset => 0x038 | .frameCount => 0x040 | .volume => 0x048
  | .osc0Kind => 0x080 | .osc0Frequency => 0x088 | .osc0Phase => 0x090 | .osc0Volume => 0x098
  | .osc1Kind => 0x0A0 | .osc1Frequency => 0x0A8 | .osc1Phase => 0x0B0 | .osc1Volume => 0x0B8
  | .env0Attack => 0x100 | .env0Decay => 0x108 | .env0Sustain => 0x110 | .env0Release => 0x118
  | .env0Frequency => 0x120 | .env0Route => 0x128
  | .env1Attack => 0x140 | .env1Decay => 0x148 | .env1Sustain => 0x150 | .env1Release => 0x158
  | .env1Frequency => 0x160 | .env1Route => 0x168
  | .lfo0Kind => 0x180 | .lfo0Frequency => 0x188 | .lfo0Depth => 0x190 | .lfo0Tuning => 0x198 | .lfo0Route => 0x1A0
  | .lfo1Kind => 0x1C0 | .lfo1Frequency => 0x1C8 | .lfo1Depth => 0x1D0 | .lfo1Tuning => 0x1D8 | .lfo1Route => 0x1E0
  | .noiseMode => 0x200 | .noiseFrequency => 0x208 | .noiseGain => 0x210 | .noiseRoute => 0x218
  | .pitchBaseKey => 0x240 | .pitchTuning => 0x248

/-- The call's registers, in the order of R24's table. -/
def callRegs : List Reg :=
  [.cmd, .status, .bufferBase, .stride, .format, .samplerate, .bufferLength, .offset, .frameCount, .volume]

/-- The oscillators' registers. -/
def oscRegs : List Reg :=
  [.osc0Kind, .osc0Frequency, .osc0Phase, .osc0Volume, .osc1Kind, .osc1Frequency, .osc1Phase, .osc1Volume]

/-- The envelopes' registers. -/
def envRegs : List Reg :=
  [.env0Attack, .env0Decay, .env0Sustain, .env0Release, .env0Frequency, .env0Route,
   .env1Attack, .env1Decay, .env1Sustain, .env1Release, .env1Frequency, .env1Route]

/-- The LFOs' registers. -/
def lfoRegs : List Reg :=
  [.lfo0Kind, .lfo0Frequency, .lfo0Depth, .lfo0Tuning, .lfo0Route,
   .lfo1Kind, .lfo1Frequency, .lfo1Depth, .lfo1Tuning, .lfo1Route]

/-- The noise and pitch registers. -/
def noisePitchRegs : List Reg :=
  [.noiseMode, .noiseFrequency, .noiseGain, .noiseRoute, .pitchBaseKey, .pitchTuning]

/-- The registers in the order of R24's table. -/
def allRegs : List Reg :=
  callRegs ++ oscRegs ++ envRegs ++ lfoRegs ++ noisePitchRegs

/-- The register at a window offset, and none at an offset R24 does not name (R23). -/
def regAt (off : BitVec 10) : Option Reg := allRegs.find? fun r => regOffset r == off

/-! ## What a write stores (R81) -/

/-- U32: `data[31:0]`. -/
def fieldU32 (d : Data) : BitVec 32 := d.setWidth 32

/-- ENUM3 of a KIND register: `data[2:0]`, or 0 if that code is reserved (R25). -/
def fieldKind (d : Data) : Kind := Kind.ofCode (d.setWidth 3)

/-- ENUM3 of FORMAT: `data[2:0]` (R25: no reserved values). -/
def fieldFormat (d : Data) : Format := Format.ofCode (d.setWidth 3)

/-- ROUTE: each of the eight slots as written, or 0 if reserved (R25, R81). -/
def fieldRoute (d : Data) : BitVec 32 :=
  let slot (i : Nat) : BitVec 4 := legalTag (d.extractLsb' (4 * i) 4)
  slot 7 ++ slot 6 ++ slot 5 ++ slot 4 ++ slot 3 ++ slot 2 ++ slot 1 ++ slot 0

/-- U32 with BUFFER_LENGTH's clamp: `min(data[31:0], MAX_FRAMES)` (R26). -/
def fieldLength (P : Params) (d : Data) : BitVec 32 := BitVec.ofNat 32 (min (fieldU32 d).toNat P.maxFrames)

/-- What a write of a parameter register makes of the registers. CMD, STATUS and NOISE_MODE store nothing (R27, R28,
R39); a write to CMD runs a command, which `Machine.hostWrite` gives. -/
def storeReg (P : Params) (reg : Reg) (d : Data) (r : Regs) : Regs :=
  match reg with
  | .cmd => r
  | .status => r
  | .bufferBase => { r with bufferBase := d }
  | .stride => { r with stride := fieldU32 d }
  | .format => { r with format := fieldFormat d }
  | .samplerate => { r with samplerate := fieldU32 d }
  | .bufferLength => { r with bufferLength := fieldLength P d }
  | .offset => { r with offset := d }
  | .frameCount => { r with frameCount := d }
  | .volume => { r with volume := d }
  | .osc0Kind => { r with osc0 := { r.osc0 with kind := fieldKind d } }
  | .osc0Frequency => { r with osc0 := { r.osc0 with frequency := d } }
  | .osc0Phase => { r with osc0 := { r.osc0 with phase := d } }
  | .osc0Volume => { r with osc0 := { r.osc0 with volume := d } }
  | .osc1Kind => { r with osc1 := { r.osc1 with kind := fieldKind d } }
  | .osc1Frequency => { r with osc1 := { r.osc1 with frequency := d } }
  | .osc1Phase => { r with osc1 := { r.osc1 with phase := d } }
  | .osc1Volume => { r with osc1 := { r.osc1 with volume := d } }
  | .env0Attack => { r with env0 := { r.env0 with attack := d } }
  | .env0Decay => { r with env0 := { r.env0 with decay := d } }
  | .env0Sustain => { r with env0 := { r.env0 with sustain := d } }
  | .env0Release => { r with env0 := { r.env0 with release := d } }
  | .env0Frequency => { r with env0 := { r.env0 with frequency := d } }
  | .env0Route => { r with env0 := { r.env0 with route := fieldRoute d } }
  | .env1Attack => { r with env1 := { r.env1 with attack := d } }
  | .env1Decay => { r with env1 := { r.env1 with decay := d } }
  | .env1Sustain => { r with env1 := { r.env1 with sustain := d } }
  | .env1Release => { r with env1 := { r.env1 with release := d } }
  | .env1Frequency => { r with env1 := { r.env1 with frequency := d } }
  | .env1Route => { r with env1 := { r.env1 with route := fieldRoute d } }
  | .lfo0Kind => { r with lfo0 := { r.lfo0 with kind := fieldKind d } }
  | .lfo0Frequency => { r with lfo0 := { r.lfo0 with frequency := d } }
  | .lfo0Depth => { r with lfo0 := { r.lfo0 with depth := d } }
  | .lfo0Tuning => { r with lfo0 := { r.lfo0 with tuning := d } }
  | .lfo0Route => { r with lfo0 := { r.lfo0 with route := fieldRoute d } }
  | .lfo1Kind => { r with lfo1 := { r.lfo1 with kind := fieldKind d } }
  | .lfo1Frequency => { r with lfo1 := { r.lfo1 with frequency := d } }
  | .lfo1Depth => { r with lfo1 := { r.lfo1 with depth := d } }
  | .lfo1Tuning => { r with lfo1 := { r.lfo1 with tuning := d } }
  | .lfo1Route => { r with lfo1 := { r.lfo1 with route := fieldRoute d } }
  | .noiseMode => r
  | .noiseFrequency => { r with noise := { r.noise with frequency := d } }
  | .noiseGain => { r with noise := { r.noise with gain := d } }
  | .noiseRoute => { r with noise := { r.noise with route := fieldRoute d } }
  | .pitchBaseKey => { r with pitchBaseKey := d }
  | .pitchTuning => { r with pitchTuning := d }

/-- A write to BUFFER_LENGTH or FORMAT leaves every working buffer unspecified (R26). -/
def workAfterStore (reg : Reg) (w : Work) : Work :=
  match reg with
  | .format => Work.unspecified
  | .bufferLength => Work.unspecified
  | _ => w

/-- A host write of a parameter register, on the instance. -/
def writeReg (P : Params) (reg : Reg) (d : Data) (c : CoreState) : CoreState :=
  (c.setRegs (storeReg P reg d c.regs)).setWork (workAfterStore reg c.work)

/-! ## What a read returns (R81) -/

/-- The data word a read of a register returns; the bits above a field read 0 (R24, R42). -/
def readReg (P : Params) (reg : Reg) (c : CoreState) : Data :=
  let r := c.regs
  match reg with
  | .cmd => 0
  | .status => statusWord c
  | .bufferBase => r.bufferBase
  | .stride => r.stride.setWidth 64
  | .format => r.format.code.setWidth 64
  | .samplerate => r.samplerate.setWidth 64
  | .bufferLength => r.bufferLength.setWidth 64
  | .offset => r.offset
  | .frameCount => r.frameCount
  | .volume => r.volume
  | .osc0Kind => r.osc0.kind.code.setWidth 64
  | .osc0Frequency => r.osc0.frequency
  | .osc0Phase => r.osc0.phase
  | .osc0Volume => r.osc0.volume
  | .osc1Kind => r.osc1.kind.code.setWidth 64
  | .osc1Frequency => r.osc1.frequency
  | .osc1Phase => r.osc1.phase
  | .osc1Volume => r.osc1.volume
  | .env0Attack => r.env0.attack
  | .env0Decay => r.env0.decay
  | .env0Sustain => r.env0.sustain
  | .env0Release => r.env0.release
  | .env0Frequency => r.env0.frequency
  | .env0Route => r.env0.route.setWidth 64
  | .env1Attack => r.env1.attack
  | .env1Decay => r.env1.decay
  | .env1Sustain => r.env1.sustain
  | .env1Release => r.env1.release
  | .env1Frequency => r.env1.frequency
  | .env1Route => r.env1.route.setWidth 64
  | .lfo0Kind => r.lfo0.kind.code.setWidth 64
  | .lfo0Frequency => r.lfo0.frequency
  | .lfo0Depth => r.lfo0.depth
  | .lfo0Tuning => r.lfo0.tuning
  | .lfo0Route => r.lfo0.route.setWidth 64
  | .lfo1Kind => r.lfo1.kind.code.setWidth 64
  | .lfo1Frequency => r.lfo1.frequency
  | .lfo1Depth => r.lfo1.depth
  | .lfo1Tuning => r.lfo1.tuning
  | .lfo1Route => r.lfo1.route.setWidth 64
  | .noiseMode => P.noiseModeFixed
  | .noiseFrequency => r.noise.frequency
  | .noiseGain => r.noise.gain
  | .noiseRoute => r.noise.route.setWidth 64
  | .pitchBaseKey => r.pitchBaseKey
  | .pitchTuning => r.pitchTuning

/-- The host accesses that reach a slot: 8 bytes at a multiple of 8 (R80). -/
def alignedAccess (off : BitVec 10) (bytes : Nat) : Bool := bytes == 8 && off.toNat % 8 == 0

end Sys2Proof.Machine
end

