-- ==== Sys2Proof/Machine/Host.lean ====
section
/-! DEFINITION. What each transaction and platform event does (spec/30_encoding.md R80 to R84; spec/20_memory.md R74,
R75; spec/60_exceptions.md R247; spec/70_reset_and_hazards.md R260 to R273). -/

namespace Sys2Proof.Machine

/-- An outcome at instance `n`, which becomes the addressed one. A number the platform has no instance for is no
transaction with any CORE (R247). -/
def atInstance (n : Nat) (s : State) (k : State → Host.Outcome State Fault Refusal) :
    Host.Outcome State Fault Refusal :=
  if n = s.cur ∨ n < s.platform.windows.length then k (s.focus n) else .refused (.noSuchInstance n)

/-- A CMD write (R82, R84): the dispatch key selects the instruction, which runs. A COMPUTE that later events overlap
only starts here (R102). -/
def issue (data : Data) (overlapped : Bool) (s : State) : Host.Outcome State Fault Refusal :=
  let i := decodeKey (dispatchKey s.core.regs.format data)
  match overlapped, i.computeFormat with
  | true, some F => startCompute F s
  | _, _ => exec i s

/-- A host write (R80, R81). An access of another size or alignment, or at an offset no register has, changes nothing;
a register write while BUSY breaks R270. -/
def hostWrite (off : BitVec 10) (bytes : Nat) (data : Data) (overlapped : Bool) (s : State) :
    Host.Outcome State Fault Refusal :=
  if alignedAccess off bytes then
    match regAt off with
    | none => .next s
    | some .cmd => issue data overlapped s
    | some reg => command s (.next (s.setCore (writeReg Config.params reg data s.core)))
  else .next s

/-- The data word a host read returns (R23, R80, R81). -/
def readWord (P : Params) (off : BitVec 10) (bytes : Nat) (c : CoreState) : Data :=
  if alignedAccess off bytes then
    match regAt off with
    | none => 0
    | some reg => readReg P reg c
  else 0

/-- A host read: allowed at any time, BUSY or not, and it changes nothing of CORE (R245, R270). -/
def hostRead (off : BitVec 10) (bytes : Nat) (s : State) : Host.Outcome State Fault Refusal :=
  .next (s.reply (.reg (readWord Config.params off bytes s.core)))

/-- The `n` addresses from `a`, wrapping (R62). -/
def runAddrs (a : Addr) (n : Nat) : List Addr := (List.range n).map fun j => a + BitVec.ofNat 64 j

/-- The window a byte address lies in, as INSTANCE_BASE[n] places it (R23): the number of its instance. -/
def windowAt (pl : Platform) (a : Addr) : Option Nat := pl.windows.findIdx? fun w => inRun w 0x400 a

/-- An access of `n` bytes from `a` as the register access the platform's map makes of it (R23, R80): the instance and
the window offset; none where it is no aligned 8-byte access of a window. -/
def registerAccess (pl : Platform) (a : Addr) (n : Nat) : Option (Nat × BitVec 10) :=
  match windowAt pl a with
  | some k =>
    let off := (a - pl.windows.getD k 0).setWidth 10
    if alignedAccess off n then some (k, off) else none
  | none => none

/-- The bytes of an access that are system memory's: those in no register window. DESIGN CHOICE (log 20): of an access
that reaches beyond a window, these alone are accessed. -/
def memoryAddrs (pl : Platform) (a : Addr) (n : Nat) : List Addr :=
  (runAddrs a n).filter fun x => !inRegisterWindow pl x

/-- An access of the host or another agent that is no register access. It breaks a duty where it touches a byte of a
BUSY instance's elements (R75, R273), or stores into the table device while an instance is BUSY (R72); what a device does
is the platform's. DESIGN CHOICE (log 28, unsafe): memory shows a COMPUTE's writes as soon as the COMPUTE has completed,
whether or not a STATUS read has returned BUSY = 0 since, a point R74 and R273 leave open. DESIGN CHOICE (log 31, unsafe):
an address on which CORE's sample accesses cannot be completed (R68) is ordinary memory to the host and other agents, of
whose accesses R68 does not speak. -/
def agentAccess (store : Bool) (a : Addr) (n : Nat) (s : State) (effect : State) : Host.Outcome State Fault Refusal :=
  let touched := memoryAddrs s.platform a n
  if touched.any (heldByAny s) then .fault .bufferShared
  else if store && anyBusy s && touched.any (inRegions s.platform.table) then .fault .tableWrite
  else if touched.any fun x => inRegions s.platform.device x || inRegions s.platform.table x then
    .refused (.deviceAccess a)
  else .next effect

/-- An access of the host or another agent by byte address that stores bytes: a register write where the platform's map
makes it one, the data word little-endian (R80); else its bytes are stored, and those in a window change nothing. -/
def memWrite (a : Addr) (data : List Byte) (overlapped : Bool) (s : State) : Host.Outcome State Fault Refusal :=
  match registerAccess s.platform a data.length with
  | some (k, off) => atInstance k s (hostWrite off 8 (BitVec.ofNat 64 (valueLE data)) overlapped)
  | none =>
    agentAccess true a data.length s (s.setMem (writeBytes (inRegisterWindow s.platform) a data s.mem))

/-- What a read of `n` bytes from `a` that is no register read returns: memory's bytes, and 0 in a window (R80). -/
def memBytes (s : State) (a : Addr) (n : Nat) : List Byte :=
  (runAddrs a n).map fun x => if inRegisterWindow s.platform x then 0 else readByte s.mem x

/-- An access of the host or another agent by byte address that reads `n` bytes: a register read where the platform's map
makes it one, its word's bytes little-endian (R80). -/
def memRead (a : Addr) (n : Nat) (s : State) : Host.Outcome State Fault Refusal :=
  match registerAccess s.platform a n with
  | some (k, off) =>
    atInstance k s fun t => .next (t.reply (.mem (bytesLE 8 (readWord Config.params off 8 t.core).toNat)))
  | none => agentAccess false a n s (s.reply (.mem (memBytes s a n)))

/-- Make each byte of a list of addresses a free value (R261). -/
def scribble (P : Params) : List Addr → State → State
  | [], s => s
  | a :: rest, s => scribble P rest ((draw P s).2.setMem (writeByte a ((draw P s).1.setWidth 8) (draw P s).2.mem))

/-- A reset of the addressed instance (R260, R261): its registers and hidden state take their reset values; a COMPUTE
in flight ends and each byte of its call window is a free value. DESIGN CHOICE (log 29, unsafe): R261 leaves open how
far the COMPUTE came, and so whether its accesses had broken a duty (BUFFER_SHARED, BUS_ERROR, TABLE_UNCONSTRUCTED)
before the reset; the model takes it that none had, raises no fault, and makes the window's bytes free values even where
another BUSY instance's elements have them. -/
def resetInstance (P : Params) (s : State) : State :=
  let cut :=
    match s.core.inFlight with
    | some F => scribble P (windowBytes F s.core) s
    | none => s
  let free := if cut.tableLock = some cut.cur then cut.setTableLock none else cut
  free.setCore CoreState.reset

/-- The COMPUTE in flight of the addressed instance takes its step, if there is one (R105, R106). -/
def proceed (P : Params) (s : State) : Host.Outcome State Fault Refusal :=
  match s.core.inFlight with
  | some F => runCompute P F s
  | none => .next s

/-- The platform constructs the shared table with the contents COEFF (R262); while an instance is BUSY that is a table
write (R72). -/
def constructTable (s : State) : Host.Outcome State Fault Refusal :=
  if anyBusy s then .fault .tableWrite else .next (s.setTableBuilt true)

/-- One event. What memory shows between a COMPUTE's completion and a STATUS read is log 28's choice (`agentAccess`). -/
def handle (e : Event) (s : State) : Host.Outcome State Fault Refusal :=
  match e with
  | .regWrite n off bytes data overlapped => atInstance n s (hostWrite off bytes data overlapped)
  | .regRead n off bytes => atInstance n s (hostRead off bytes)
  | .memWrite a data overlapped => memWrite a data overlapped s
  | .memRead a n => memRead a n s
  | .proceed n => atInstance n s (proceed Config.params)
  | .reset n => atInstance n s (fun t => .next (resetInstance Config.params t))
  | .constructTable => constructTable s

/-- With no event left, a COMPUTE in flight completes (R106): the addressed instance's first, else the BUSY instance of
the lowest number. With none in flight CORE is idle and keeps its state (R246). -/
def idle (s : State) : Host.Outcome State Fault Refusal :=
  if s.core.busy then proceed Config.params s
  else
    match s.others.find? fun e => e.2.busy with
    | some e => proceed Config.params (s.focus e.1)
    | none => .next s

/-- A CMD write to the addressed instance, as the next event (R82). -/
def cmdWrite (n : Nat) (data : Data) : Event := .regWrite n (regOffset .cmd) 8 data false

/-- The state in which the next event is the CMD write whose dispatch key is `key`: FORMAT holds the key's bits 6..4
and the data word its bits 3..0 (R84), and nothing is in flight (R270). -/
def State.withKey (key : Key) (s : State) : State :=
  { s with
    core := { s.core with regs := { s.core.regs with format := keyFormat key }, inFlight := none }
    bus := cmdWrite s.cur ((keyOp key).setWidth 64) :: s.bus }

end Sys2Proof.Machine
end

