-- ==== Sys2Proof/Machine/Step.lean ====
section
/-! DEFINITION. One step: the next transaction or event of the queue, or, with none left, CORE by itself. A step ends
in a next state, a fault or a refusal. -/

namespace Sys2Proof.Machine

/-- One step of the machine. -/
def step (s : State) : Host.Outcome State Fault Refusal :=
  match s.bus with
  | [] => idle s
  | e :: rest => handle e (s.setBus rest)

/-- `s` with the instruction of the table's word `w` as what the very next step runs: CORE fetches nothing (R21), so
the word's key is placed as the next CMD write with its FORMAT. -/
def State.withFetchWord (s : State) (nbits w : Nat) : State := s.withKey (BitVec.ofNat 7 (w % 2 ^ nbits))

end Sys2Proof.Machine
end

