-- ==== Sys2Proof/Machine/Script.lean ====
section
/-! DEFINITION. The host-script syntax of spec/30_encoding.md R92 to R94: a program is a list of lines, and a line
expands into the transactions it stands for, which `State.bus` holds. -/

namespace Sys2Proof.Machine

/-- A real literal, sign and magnitude `num / den` (R92, `f:<real>`); with `den` 0 it is no real. -/
structure RealLit where
  neg : Bool
  num : Nat
  den : Nat
  deriving DecidableEq, Repr

/-- `f:<real>`: the binary64 pattern of the real, rounded to nearest (R92). DESIGN CHOICE (log 25): an exact tie goes to the
even fraction, and a real at or past the midpoint above the greatest finite value to the infinity of its sign, as R14 and
R15 round arithmetic; R92 says neither. The sign of a literal is kept on a zero. -/
def RealLit.bits (x : RealLit) : F64 := Fp.pack x.neg (Fp.roundMag 52 (x.num * 2 ^ 1074) x.den)

/-- The binary32 pattern of the real, rounded to nearest, for `MEM.FLOAT` (R92). DESIGN CHOICE (log 25): once, from the exact
real, with ties to even and overflow to an infinity. -/
def RealLit.bits32 (x : RealLit) : F32 := Fp.pack32 x.neg (Fp.roundMag 23 (x.num * 2 ^ 149) x.den)

/-- A `<value>` of `WR` (R92). -/
inductive ScriptValue where
  | int (n : Nat)
  | real (x : RealLit)
  deriving DecidableEq, Repr

/-- The data word of a value. DESIGN CHOICE (log 25): an integer of 2^64 or more stands for its low 64 bits; R92 gives such
a line no meaning, and has no negative integer. -/
def ScriptValue.data : ScriptValue → Data
  | .int n => BitVec.ofNat 64 n
  | .real x => x.bits

/-- One element of a `MEM` line (R92). -/
inductive ScriptElem where
  | int (n : Int)
  | real (x : RealLit)
  | complex (re im : RealLit)
  deriving DecidableEq, Repr

/-- One line of a host script (R92, R93). `overlapped`, on each line that can be a CMD write, says whether the lines
after it happen before a COMPUTE it starts has completed, which a script leaves to the time CORE takes (log 3). -/
inductive ScriptLine where
  | wr (reg : Reg) (value : ScriptValue) (overlapped : Bool)
  | rd (reg : Reg)
  | mem (fmt : Format) (addr : Addr) (elems : List ScriptElem)
  | comment
  | nop
  | compute (overlapped : Bool)
  | wait
  | wrf (reg : Reg) (x : RealLit) (overlapped : Bool)
  | route (src : Source) (slot : Nat) (dst : Option Dest)
  | unroute (src : Source) (slot : Nat)
  | run (overlapped : Bool)
  deriving DecidableEq, Repr

/-- The pattern of an element in a 64-bit real part. -/
def ScriptElem.real64 : ScriptElem → F64
  | .int n => Fp.ofInt n
  | .real x => x.bits
  | .complex re _ => re.bits

/-- The imaginary part an element gives a COMPLEX element. DESIGN CHOICE (log 25): a single element has the imaginary part
+0.0, and a pair in another format drops its second part; R92 gives neither line a meaning. -/
def ScriptElem.imag64 : ScriptElem → F64
  | .int _ => Fp.zero
  | .real _ => Fp.zero
  | .complex _ im => im.bits

/-- The integer of an element. -/
def ScriptElem.integer : ScriptElem → Int
  | .int n => n
  | .real x => Fp.trunc x.bits
  | .complex re _ => Fp.trunc re.bits

/-- The pattern of an element in a 32-bit real. -/
def ScriptElem.real32 : ScriptElem → F32
  | .int n => Fp.toF32 (Fp.ofInt n)
  | .real x => x.bits32
  | .complex re _ => re.bits32

/-- The bytes of an element at stride 1 (R92, R86). DESIGN CHOICE (log 25): an integer outside its format's range wraps at
the container's width, which R92 does not say. -/
def elemBytes (F : Format) (e : ScriptElem) : List Byte :=
  match F with
  | .s8 => bytesLE 1 (BitVec.ofInt 8 e.integer).toNat
  | .s16 => bytesLE 2 (BitVec.ofInt 16 e.integer).toNat
  | .s24 => bytesLE 4 (BitVec.ofInt 32 e.integer).toNat
  | .s32 => bytesLE 4 (BitVec.ofInt 32 e.integer).toNat
  | .s64 => bytesLE 8 (BitVec.ofInt 64 e.integer).toNat
  | .float => bytesLE 4 e.real32.toNat
  | .double => bytesLE 8 e.real64.toNat
  | .complex => bytesLE 8 e.real64.toNat ++ bytesLE 8 e.imag64.toNat

/-- The ROUTE register of a source (R93). -/
def routeReg : Source → Reg
  | .env0 => .env0Route
  | .env1 => .env1Route
  | .lfo0 => .lfo0Route
  | .lfo1 => .lfo1Route
  | .noise => .noiseRoute

/-- The source a ROUTE register belongs to. -/
def routeSource (reg : Reg) : Option Source := sources.find? fun src => routeReg src == reg

/-- What the script last wrote to each ROUTE register, 0 if nothing (R93, `old`). -/
abbrev LastRoutes := List (Source × Data)

/-- `old` of a source. -/
def oldRoute (last : LastRoutes) (src : Source) : Data := (last.lookup src).getD 0

/-- The tag code `ROUTE` writes: a destination's code, or NONE. -/
def tagCode : Option Dest → BitVec 4
  | some d => d.code
  | none => 0

/-- `(old & ~(0xF << 4·slot)) | (code << 4·slot)` (R93). -/
def routeWord (old : Data) (slot : Nat) (dst : Option Dest) : Data :=
  (old &&& ~~~(0xF#64 <<< (4 * slot))) ||| ((tagCode dst).setWidth 64 <<< (4 * slot))

/-- The stores of a `MEM` line, one for each element, at stride 1 (R92). DESIGN CHOICE (log 25): one that is a register write
at a window's address (log 20) carries no flag `overlapped`, so a COMPUTE it commands takes its step at once. -/
def memEvents (F : Format) : Addr → List ScriptElem → List Event
  | _, [] => []
  | a, e :: es => .memWrite a (elemBytes F e) false :: memEvents F (a + BitVec.ofNat 64 F.esize) es

/-- What a write of `d` makes of the ROUTE values the script last wrote (R93, `old`). -/
def noteRoute (reg : Reg) (d : Data) (last : LastRoutes) : LastRoutes :=
  match routeSource reg with
  | some src => (src, d) :: last
  | none => last

/-- `WR` of a register of instance `n` (R92): its transaction, and the ROUTE values written after it. -/
def writeLine (n : Nat) (last : LastRoutes) (reg : Reg) (d : Data) (overlapped : Bool) : List Event × LastRoutes :=
  ([.regWrite n (regOffset reg) 8 d overlapped], noteRoute reg d last)

/-- `WAIT`'s last read, with the COMPUTE given its step before it (R93): the reads that return BUSY = 1 change nothing. -/
def waitEvents (n : Nat) : List Event := [.proceed n, .regRead n (regOffset .status) 8]

/-- The transactions of one line of instance `n`'s script, and the ROUTE values written after it (R92, R93): every
pseudo-instruction is the `WR` it stands for. DESIGN CHOICE (log 25): a `MEM` line's store at the address of a ROUTE
register is not among the ROUTE values written, the `old` of a later `ROUTE` line. -/
def expandLine (n : Nat) (last : LastRoutes) : ScriptLine → List Event × LastRoutes
  | .wr reg v overlapped => writeLine n last reg v.data overlapped
  | .rd reg => ([.regRead n (regOffset reg) 8], last)
  | .mem F a es => (memEvents F a es, last)
  | .comment => ([], last)
  | .nop => writeLine n last .cmd 0 false
  | .compute overlapped => writeLine n last .cmd 1 overlapped
  | .wait => (waitEvents n, last)
  | .wrf reg x overlapped => writeLine n last reg x.bits overlapped
  | .route src slot dst => writeLine n last (routeReg src) (routeWord (oldRoute last src) slot dst) false
  | .unroute src slot => writeLine n last (routeReg src) (routeWord (oldRoute last src) slot none) false
  | .run overlapped => ((writeLine n last .cmd 1 overlapped).1 ++ waitEvents n, last)

/-- The transactions of a script, from the ROUTE values written so far. -/
def expandFrom (n : Nat) : LastRoutes → List ScriptLine → List Event
  | _, [] => []
  | last, l :: ls => (expandLine n last l).1 ++ expandFrom n (expandLine n last l).2 ls

/-- The transactions of a whole script of instance `n` (R92). -/
def expand (n : Nat) (script : List ScriptLine) : List Event := expandFrom n [] script

/-- One line of an encoded listing (R94). -/
inductive ListingLine where
  | w (offset : BitVec 10) (data : Data)
  | r (offset : BitVec 10)
  deriving DecidableEq, Repr

/-- The listing line of a register transaction (R94); events that are no CORE transaction have none. -/
def listingLine : Event → Option ListingLine
  | .regWrite _ off _ d _ => some (.w off d)
  | .regRead _ off _ => some (.r off)
  | .memWrite _ _ _ => none
  | .memRead _ _ => none
  | .proceed _ => none
  | .reset _ => none
  | .constructTable => none

/-- The encoded listing of transactions (R94). -/
def listing (es : List Event) : List ListingLine := es.filterMap listingLine

end Sys2Proof.Machine
end

