-- ==== Sys2Proof/Safety.lean ====
section
/-! DEFINITION. What counts as a safe run and as a legal state, in the terms the statements use: the duties of a
COMPUTE (spec/60_exceptions.md R241), the invariant every step keeps, the named assumptions on the configuration
functions (spec/00_scope.md R16; spec/45_pitch.md R197) and the register word formats (spec/30_encoding.md R81). -/

namespace Sys2Proof

/-! ## Duties -/

/-- `a` is a byte of an element of the call window of an instance other than the addressed one that is BUSY. -/
def HeldByOther (s : Machine.State) (a : Addr) : Prop :=
  ∃ e ∈ s.others, ∃ F, e.2.inFlight = some F ∧
    ∃ i < e.2.frames, (a - Machine.elementAddr F e.2 i).toNat < F.esize

/-- `a` lies in the register window of an instance (R23). -/
def InRegisterWindow (s : Machine.State) (a : Addr) : Prop :=
  ∃ w ∈ s.platform.windows, (a - w).toNat < 0x400

/-- `a` is a byte of the shared table device (R248, R272). -/
def IsTable (s : Machine.State) (a : Addr) : Prop :=
  ∃ r ∈ s.platform.table, (a - r.base).toNat < r.size

/-- `a` is no ordinary memory (R67). -/
def IsDevice (s : Machine.State) (a : Addr) : Prop :=
  ∃ r ∈ s.platform.device, (a - r.base).toNat < r.size

/-- The platform cannot complete a sample access at `a` (R68). -/
def IsUnreachable (s : Machine.State) (a : Addr) : Prop :=
  ∃ r ∈ s.platform.unreachable, (a - r.base).toNat < r.size

/-- The duties on where the call window lies: no byte of an element in a register window or in the shared table device
(R272) and none that is not ordinary memory (R67). -/
def PlacementMet (F : Format) (s : Machine.State) : Prop :=
  ∀ i < s.core.frames, ∀ j < F.esize,
    let a := Machine.elementAddr F s.core i + BitVec.ofNat 64 j
    ¬InRegisterWindow s a ∧ ¬IsTable s a ∧ ¬IsDevice s a

/-- The duties on the sample accesses: none on a byte of another BUSY instance's elements (R75), none that the platform
cannot complete (R68). -/
def AccessesMet (F : Format) (s : Machine.State) : Prop :=
  ∀ i < s.core.frames, ∀ j < F.accessBytes,
    let a := Machine.elementAddr F s.core i + BitVec.ofNat 64 j
    ¬HeldByOther s a ∧ ¬IsUnreachable s a

/-- Every duty of R241 that a COMPUTE of format `F` depends on is met, the table's construction (R262) included. -/
def DutiesMet (F : Format) (s : Machine.State) : Prop :=
  PlacementMet F s ∧ AccessesMet F s ∧ s.tableBuilt = true

/-- `a` is a byte of an element of the call window of some BUSY instance (R75). -/
def HeldByAny (s : Machine.State) (a : Addr) : Prop :=
  (∃ F, s.core.inFlight = some F ∧
    ∃ i < s.core.frames, (a - Machine.elementAddr F s.core i).toNat < F.esize) ∨ HeldByOther s a

/-- `n` is an instance of the platform: the addressed one, or one below INSTANCE_COUNT (R247, log 21). -/
def HasInstance (s : Machine.State) (n : Nat) : Prop := n = s.cur ∨ n < s.platform.windows.length

/-- `a` lies at offset `off` of the window of instance `n`, and in no window of a smaller number (R23). -/
def WindowAt (s : Machine.State) (a : Addr) (n : Nat) (off : BitVec 10) : Prop :=
  ∃ w, s.platform.windows[n]? = some w ∧ a = w + off.setWidth 64 ∧
    ∀ m < n, ∀ v, s.platform.windows[m]? = some v → 0x400 ≤ (a - v).toNat

/-- Byte `j` of an access from `a` is one of ordinary memory (R23, R67, R248). -/
def OrdinaryAt (s : Machine.State) (a : Addr) (j : Nat) : Prop :=
  let x := a + BitVec.ofNat 64 j
  ¬InRegisterWindow s x ∧ ¬IsTable s x ∧ ¬IsDevice s x

/-- Some instance is BUSY (R72). -/
def SomeBusy (s : Machine.State) : Prop := s.core.busy = true ∨ ∃ e ∈ s.others, e.2.busy = true

/-- A run of `k` steps breaks no duty (R241: "every claim about a run is conditioned on the run having no fault"). -/
def FaultFree (k : Nat) (s : Machine.State) : Prop := ∀ f, Sys2Proof.core.run k s ≠ .fault f

/-! ## Legal states -/

/-- Every slot of a ROUTE register holds a tag or NONE (R25, R40). -/
def LegalRoute (r : BitVec 32) : Prop := ∀ i < 8, (Machine.routeSlot r i).toNat ≤ 8

/-- What holds of the registers of an instance: BUFFER_LENGTH is at most MAX_FRAMES (R26) and every ROUTE slot is legal
(R25). -/
def LegalRegs (r : Machine.Regs) : Prop :=
  r.bufferLength.toNat ≤ Config.maxFrames ∧ ∀ src, LegalRoute (r.route src)

/-- No working buffer has more than MAX_FRAMES entries (R43). -/
def LegalWork (w : Machine.Work) : Prop :=
  (∀ src, (w.of src).length ≤ Config.maxFrames) ∧ w.pitch.length ≤ Config.maxFrames

/-- What holds of one instance in every run: legal registers and working buffers, and a COMPUTE in flight has a buffer
(R101). -/
def LegalCore (c : Machine.CoreState) : Prop :=
  LegalRegs c.regs ∧ LegalWork c.work ∧ (c.busy = true → c.regs.bufferBase ≠ 0)

/-- The invariant every step keeps: memory and the list of instances in canonical form, every instance legal, and
TABLE_LOCK free between steps (R47). -/
def Inv (s : Machine.State) : Prop :=
  Machine.Memory.wf s.mem ∧
  Machine.Sparse.Wf Machine.CoreState.reset s.others ∧
  (∀ e ∈ s.others, e.1 ≠ s.cur) ∧
  LegalCore s.core ∧
  (∀ e ∈ s.others, LegalCore e.2) ∧
  s.tableLock = none

/-! ## Relations between runs -/

/-- What an outcome becomes when its next state is changed by `f`. -/
def onNext (f : Machine.State → Machine.State) :
    Host.Outcome Machine.State Machine.Fault Machine.Refusal →
      Host.Outcome Machine.State Machine.Fault Machine.Refusal
  | .next s => .next (f s)
  | .fault r => .fault r
  | .refused r => .refused r

/-- Two outcomes of one kind, whose next states are related by `R` and whose reasons are equal. -/
def SameOutcome (R : Machine.State → Machine.State → Prop) :
    Host.Outcome Machine.State Machine.Fault Machine.Refusal →
      Host.Outcome Machine.State Machine.Fault Machine.Refusal → Prop
  | .next s, .next t => R s t
  | .fault f, .fault g => f = g
  | .refused f, .refused g => f = g
  | _, _ => False

/-- `t` is `s` but for what the working buffers, PHASE_ACC and INCR of the addressed instance hold: the state the host
cannot read (R43, R46). -/
def SameButHidden (s t : Machine.State) : Prop :=
  t = { s with core := { s.core with work := t.core.work, phaseAcc := t.core.phaseAcc, incr := t.core.incr } }

/-- `s` with other envelope levels, drive frequencies and note length, the ROUTE registers kept, and with other
contents of W_ENV0 and W_ENV1 (R139). -/
def withEnvelopes (e0 e1 : Machine.EnvRegs) (n : BitVec 64) (w0 w1 : List F64) (s : Machine.State) : Machine.State :=
  let r := s.core.regs
  let t := s.setCore (s.core.setRegs
    { r with env0 := { e0 with route := r.env0.route }, env1 := { e1 with route := r.env1.route }, frameCount := n })
  (t.setSource .env0 w0).setSource .env1 w1

/-- The instance an event is addressed to, by number or by the window its address lies in (R23); other events of memory
and those of the shared table are addressed to none. -/
def eventTarget (pl : Platform) : Machine.Event → Option Nat
  | .regWrite n _ _ _ _ => some n
  | .regRead n _ _ => some n
  | .memWrite a _ _ => Machine.windowAt pl a
  | .memRead a _ => Machine.windowAt pl a
  | .proceed n => some n
  | .reset n => some n
  | .constructTable => none

/-! ## Elements the stages keep -/

/-- The width in bits of an integer format's element (R217). -/
def intWidth : Format → Option Nat
  | .s8 => some 8
  | .s16 => some 16
  | .s24 => some 32
  | .s32 => some 32
  | .s64 => some 64
  | .float => none
  | .double => none
  | .complex => none

/-- The element of frame `i` survives a conversion to binary64 and back (R223): an S64 element is at most 2^53 in
magnitude and a FLOAT element is no NaN. -/
def ConvertsBack (F : Format) (i : Nat) (s : Machine.State) : Prop :=
  match F with
  | .s64 => (Machine.loadBits 64 F i s).toInt.natAbs ≤ 2 ^ 53
  | .float => Machine.Fp.isNaN32 (Machine.loadBits 32 F i s) = false
  | _ => True

/-- The element of frame `i` is a number: it converts back, and no real element is a NaN (R212). -/
def NumberElement (F : Format) (i : Nat) (s : Machine.State) : Prop :=
  match F with
  | .double => Machine.Fp.isNaN (Machine.loadBits 64 F i s) = false
  | .complex => Machine.Fp.isNaN (Machine.loadBits 64 F i s) = false
  | _ => ConvertsBack F i s

/-- The element of frame `i` is one the pitch pass at ratio 1.0 restores (R201): S64 at most 2^53 in magnitude, real
formats finite and not −0.0. -/
def SteadyElement (F : Format) (i : Nat) (s : Machine.State) : Prop :=
  match F with
  | .s64 => (Machine.loadBits 64 F i s).toInt.natAbs ≤ 2 ^ 53
  | .float => Machine.Fp.expField32 (Machine.loadBits 32 F i s) ≠ 255 ∧ Machine.loadBits 32 F i s ≠ 0x80000000
  | .double => Machine.Fp.isFinite (Machine.loadBits 64 F i s) = true ∧
      Machine.loadBits 64 F i s ≠ Machine.Fp.negZero
  | .complex => Machine.Fp.isFinite (Machine.loadBits 64 F i s) = true ∧
      Machine.loadBits 64 F i s ≠ Machine.Fp.negZero
  | _ => True

/-- `w` is the value `v` of a rule's arithmetic, or some NaN where `v` is one (R15). -/
def Settled (v w : F64) : Prop := if Machine.Fp.isNaN v then Machine.Fp.isNaN w = true else w = v

/-- The same of a binary32 value (R224). -/
def Settled32 (v w : F32) : Prop := if Machine.Fp.isNaN32 v then Machine.Fp.isNaN32 w = true else w = v

/-! ## The named assumptions (R16, R197): premises of statements over parameters `P`, never facts of the model -/

/-- A_SIN_RANGE (R16). -/
def Params.SinRange (P : Params) : Prop :=
  ∀ x, Machine.Fp.isFinite x = true →
    Machine.Fp.isFinite (P.sin x) = true ∧
    Machine.Fp.le Machine.Fp.negOne (P.sin x) = true ∧ Machine.Fp.le (P.sin x) Machine.Fp.one = true

/-- A_SIN_ZERO (R16). -/
def Params.SinZero (P : Params) : Prop := P.sin Machine.Fp.zero = Machine.Fp.zero

/-- A_SIN_NAN (R16). -/
def Params.SinNaN (P : Params) : Prop :=
  ∀ x, Machine.Fp.isFinite x = false → Machine.Fp.isNaN (P.sin x) = true

/-- A_POW2_POS (R16). -/
def Params.Pow2Pos (P : Params) : Prop :=
  ∀ x, Machine.Fp.isFinite x = true → Machine.Fp.le Machine.Fp.zero (P.pow2 x) = true

/-- A_POW2_INT (R16). -/
def Params.Pow2Int (P : Params) : Prop :=
  ∀ x, ∀ n : Int, Machine.Fp.isFinite x = true → Machine.Fp.units x = n * 2 ^ 1074 → -1074 ≤ n → n ≤ 1023 →
    P.pow2 x = Machine.Fp.roundUnits false (2 ^ (n + 1074).toNat) 1

/-- A_COEFF_ROW0 (R197): row 0 of the table is (+0.0, 1.0, +0.0, +0.0). -/
def Params.CoeffRow0 (P : Params) : Prop :=
  P.coeff 0 = ⟨Machine.Fp.zero, Machine.Fp.one, Machine.Fp.zero, Machine.Fp.zero⟩

/-! ## Register word formats (R81) -/

/-- The formats of a register's data word, R81's rows; BUFFER_LENGTH's U32 has the clamp of R26, and ENUM3 is told
apart by its legal codes. -/
inductive WordFormat where
  | word64 | u32 | length | enumFormat | enumKind | route | cmdw | stat | ro64
  deriving DecidableEq, Repr

/-- The word format of each register (R24, R81). -/
def wordFormat : Reg → WordFormat
  | .cmd => .cmdw | .status => .stat | .bufferBase => .word64 | .stride => .u32 | .format => .enumFormat
  | .samplerate => .u32 | .bufferLength => .length | .offset => .word64 | .frameCount => .word64 | .volume => .word64
  | .osc0Kind => .enumKind | .osc0Frequency => .word64 | .osc0Phase => .word64 | .osc0Volume => .word64
  | .osc1Kind => .enumKind | .osc1Frequency => .word64 | .osc1Phase => .word64 | .osc1Volume => .word64
  | .env0Attack => .word64 | .env0Decay => .word64 | .env0Sustain => .word64 | .env0Release => .word64
  | .env0Frequency => .word64 | .env0Route => .route
  | .env1Attack => .word64 | .env1Decay => .word64 | .env1Sustain => .word64 | .env1Release => .word64
  | .env1Frequency => .word64 | .env1Route => .route
  | .lfo0Kind => .enumKind | .lfo0Frequency => .word64 | .lfo0Depth => .word64 | .lfo0Tuning => .word64
  | .lfo0Route => .route
  | .lfo1Kind => .enumKind | .lfo1Frequency => .word64 | .lfo1Depth => .word64 | .lfo1Tuning => .word64
  | .lfo1Route => .route
  | .noiseMode => .ro64 | .noiseFrequency => .word64 | .noiseGain => .word64 | .noiseRoute => .route
  | .pitchBaseKey => .word64 | .pitchTuning => .word64

/-- Slot `i` of a data word written to a ROUTE register. -/
def dataSlot (d : Data) (i : Nat) : Nat := d.toNat / 16 ^ i % 16

/-- What a register whose word has the given format reads after a write of `d`, as a number (R24, R25, R26, R81).
`before` is what it read before the write. -/
def ReadsBack (P : Params) (fmt : WordFormat) (before d after : Data) : Prop :=
  match fmt with
  | .word64 => after = d
  | .u32 => after.toNat = d.toNat % 2 ^ 32
  | .length => after.toNat = min (d.toNat % 2 ^ 32) P.maxFrames
  | .enumFormat => after.toNat = d.toNat % 8
  | .enumKind => after.toNat = if d.toNat % 8 ≤ 4 then d.toNat % 8 else 0
  | .route => after.toNat < 2 ^ 32 ∧ ∀ i < 8, dataSlot after i = if dataSlot d i ≤ 8 then dataSlot d i else 0
  | .cmdw => after = 0
  | .stat => after = before
  | .ro64 => after = P.noiseModeFixed

end Sys2Proof
end

