-- ==== Sys2Proof/Certificates/Slice0/Obligations.lean ====
section
/-! DEFINITION. The statements for the provers. Each docstring names the rules of spec/ it formalises; OBLIGATIONS.json
lists them. -/

open Sys2Proof Sys2Proof.Machine

/-! ## Encoding (spec/30_encoding.md R84 to R91) -/

/-- Decoding the bytes of a well-formed instruction gives it back, with the bytes after it (R84, R85, R91). -/
def Obligations.DecodeAfterEncode : Prop :=
  ∀ i : Instr, i.WellFormed → ∀ rest : List Byte, decode (encode i ++ rest) = .instr i rest

/-- Every key decodes to a well-formed instruction whose key it is: no bit of a key is lost (R84, R85). -/
def Obligations.EncodeAfterDecode : Prop :=
  ∀ k : Key, (decodeKey k).WellFormed ∧ encodeKey (decodeKey k) = k

/-- Exactly one row of the opcode table matches each of the 128 keys, and it is the decoded instruction's (R84). -/
def Obligations.ExactlyOneRowMatchesEachKey : Prop :=
  ∀ k : Key, matchingRows k = [(decodeKey k).row]

/-- The decoder of R85: OP 0 is NOP, OP 1 the COMPUTE of the format, every other OP reserved; each key is one of
those. -/
def Obligations.DecoderSelectsByOpThenFormat : Prop :=
  ∀ (fmt : Format) (op : BitVec 4),
    let i := decodeKey (fmt.code ++ op)
    (op = 0 → i = .nop fmt) ∧
    (op = 1 → some i = [Instr.computeS8, Instr.computeS16, Instr.computeS24, Instr.computeS32, Instr.computeS64,
      Instr.computeFloat, Instr.computeDouble, Instr.computeComplex][fmt.code.toNat]?) ∧
    (2 ≤ op.toNat → i = .reserved2 fmt op ∨ i = .reserved4 fmt op ∨ i = .reserved8 fmt op)

/-- Keys written out from the encodings of spec/30_encoding.md and the vectors V-ENC-1 to V-ENC-4 decode to the
instructions they stand for. -/
def Obligations.SampleKeysDecode : Prop :=
  decode [0x31] = .instr .computeS32 [] ∧ decode [0x01] = .instr .computeS8 [] ∧
  decode [0x71] = .instr .computeComplex [] ∧ decode [0x50] = .instr (.nop .float) [] ∧
  decode [0x07] = .instr (.reserved4 .s8 7) [] ∧ decode [0x6F] = .instr (.reserved8 .double 15) [] ∧
  decodeKey (dispatchKey .s32 0x1) = .computeS32 ∧
  decodeKey (dispatchKey .double 0xFFFFFFFFFFFFFFF1) = .computeDouble ∧
  decodeKey (dispatchKey .s8 0x10) = .nop .s8

/-! ## A step (spec/30_encoding.md R82 to R84, R92; spec/60_exceptions.md R247) -/

/-- A CMD write to an instance runs the instruction its dispatch key decodes to, on the state in which that instance
is the addressed one and the write is no longer pending (R82, R84). The flag `overlapped` of the write and what it tells
apart are the model's form, log 3 (DESIGN CHOICE, which R105 allows): a write without it takes a COMPUTE's whole atomic step
at once, and one with it starts the COMPUTE and leaves its step to a later event; an instruction that is no COMPUTE runs at
once either way. -/
def Obligations.StepRunsDecodedInstruction : Prop :=
  ∀ (s : State) (n : Nat) (data : Data) (rest : List Event), HasInstance s n →
    let i := decodeKey (dispatchKey (s.coreOf n).regs.format data)
    let u := (s.setBus rest).focus n
    (s.bus = .regWrite n 0x000 8 data false :: rest → step s = exec i u) ∧
    (s.bus = .regWrite n 0x000 8 data true :: rest →
      (i.computeFormat = none → step s = exec i u) ∧ ∀ F, i.computeFormat = some F → step s = startCompute F u)

/-- Making another instance the addressed one changes the state of no instance, and nothing outside them. -/
def Obligations.AddressingKeepsEveryInstance : Prop :=
  ∀ (s : State) (n : Nat),
    (s.focus n).cur = n ∧ (s.focus n).core = s.coreOf n ∧ (∀ m, (s.focus n).coreOf m = s.coreOf m) ∧
    (s.focus n).mem = s.mem ∧ (s.focus n).tableBuilt = s.tableBuilt ∧ (s.focus n).tableLock = s.tableLock ∧
    (s.focus n).platform = s.platform ∧ (s.focus n).bus = s.bus ∧ (s.focus n).replies = s.replies

/-! ## Registers (spec/10_state.md R23 to R42; spec/30_encoding.md R80, R81) -/

/-- A host write to any register but CMD of any instance, while its BUSY = 0: the register reads back as its format says,
every other register of the instance reads as before, its working buffers lose their contents exactly for FORMAT and
BUFFER_LENGTH, and nothing else changes (R24, R25, R26, R27, R39, R81). -/
def Obligations.HostWriteStoresItsRegister : Prop :=
  ∀ (s : State) (n : Nat) (reg : Reg) (data : Data) (ov : Bool) (rest : List Event), HasInstance s n → reg ≠ .cmd →
    (s.coreOf n).busy = false → s.bus = .regWrite n (regOffset reg) 8 data ov :: rest →
    ∃ t, step s = .next t ∧ t.cur = n ∧
      ReadsBack Config.params (wordFormat reg) (readReg Config.params reg (s.coreOf n)) data
        (readReg Config.params reg (t.coreOf n)) ∧
      (∀ other, other ≠ reg →
        readReg Config.params other (t.coreOf n) = readReg Config.params other (s.coreOf n)) ∧
      (t.coreOf n).work = (if reg = .format ∨ reg = .bufferLength then Work.unspecified else (s.coreOf n).work) ∧
      (t.coreOf n).phaseAcc = (s.coreOf n).phaseAcc ∧ (t.coreOf n).incr = (s.coreOf n).incr ∧
      (t.coreOf n).inFlight = (s.coreOf n).inFlight ∧ (∀ m, m ≠ n → t.coreOf m = s.coreOf m) ∧
      t.mem = s.mem ∧ t.bus = rest ∧ t.replies = s.replies ∧ t.tableBuilt = s.tableBuilt ∧
      t.tableLock = s.tableLock ∧ t.platform = s.platform

/-- Enumerated fields are write-any-read-legal: a reserved KIND or ROUTE code stores 0, which reads as 0 and acts as
sine or as no destination; FORMAT has no reserved code (R25). -/
def Obligations.ReservedFieldValuesStoreZero : Prop :=
  ∀ (P : Params) (c : CoreState) (d : Data),
    (readReg P .format (writeReg P .format d c)).toNat = d.toNat % 8 ∧
    (∀ reg ∈ [Reg.osc0Kind, Reg.osc1Kind, Reg.lfo0Kind, Reg.lfo1Kind],
      (readReg P reg (writeReg P reg d c)).toNat = if d.toNat % 8 ≤ 4 then d.toNat % 8 else 0) ∧
    (4 < d.toNat % 8 →
      (writeReg P .osc0Kind d c).regs.osc0.kind = .sine ∧ (writeReg P .osc1Kind d c).regs.osc1.kind = .sine ∧
      (writeReg P .lfo0Kind d c).regs.lfo0.kind = .sine ∧ (writeReg P .lfo1Kind d c).regs.lfo1.kind = .sine) ∧
    (∀ src : Source, ∀ i < 8,
      dataSlot (readReg P (routeReg src) (writeReg P (routeReg src) d c)) i =
        (if dataSlot d i ≤ 8 then dataSlot d i else 0) ∧
      (8 < dataSlot d i → ∀ dst : Dest,
        routeSlot ((writeReg P (routeReg src) d c).regs.route src) i ≠ dst.code))

/-- Host accesses of the window of any instance: an aligned 8-byte read returns the register's word, an aligned 8-byte
write stores into it, and an access of another size or alignment changes nothing and returns 0; an access by byte address
inside the window is the access at that offset, its data word little-endian (R80). Which window an address lies in where
two overlap is the model's choice, log 20. -/
def Obligations.OnlyAlignedAccessesReachRegisters : Prop :=
  ∀ (s : State) (n : Nat) (rest : List Event), HasInstance s n →
    let u := (s.setBus rest).focus n
    (∀ reg, s.bus = .regRead n (regOffset reg) 8 :: rest →
      step s = .next (u.reply (.reg (readReg Config.params reg (s.coreOf n))))) ∧
    (∀ reg data ov, reg ≠ .cmd → (s.coreOf n).busy = false → s.bus = .regWrite n (regOffset reg) 8 data ov :: rest →
      step s = .next (u.setCore (writeReg Config.params reg data (s.coreOf n)))) ∧
    (∀ off bytes data ov, bytes ≠ 8 ∨ off.toNat % 8 ≠ 0 → s.bus = .regWrite n off bytes data ov :: rest →
      step s = .next u) ∧
    (∀ off bytes, bytes ≠ 8 ∨ off.toNat % 8 ≠ 0 → s.bus = .regRead n off bytes :: rest →
      step s = .next (u.reply (.reg 0))) ∧
    (∀ a off, ∀ (d : Data) (ov : Bool), WindowAt s a n off → off.toNat % 8 = 0 →
      s.bus = .memWrite a ((List.range 8).map fun j => BitVec.ofNat 8 (d.toNat / 256 ^ j)) ov :: rest →
      step s = step (s.setBus (.regWrite n off 8 d ov :: rest))) ∧
    (∀ a reg, WindowAt s a n (regOffset reg) → s.bus = .memRead a 8 :: rest →
      step s = .next (u.reply (.mem ((List.range 8).map fun j =>
        BitVec.ofNat 8 ((readReg Config.params reg (s.coreOf n)).toNat / 256 ^ j))))) ∧
    (∀ a off, ∀ (data : List Byte) (ov : Bool), WindowAt s a n off → data.length ≠ 8 ∨ off.toNat % 8 ≠ 0 →
      (∀ j < data.length, InRegisterWindow s (a + BitVec.ofNat 64 j)) → s.bus = .memWrite a data ov :: rest →
      step s = .next (s.setBus rest)) ∧
    (∀ a off, ∀ bytes : Nat, WindowAt s a n off → bytes ≠ 8 ∨ off.toNat % 8 ≠ 0 →
      (∀ j < bytes, InRegisterWindow s (a + BitVec.ofNat 64 j)) → s.bus = .memRead a bytes :: rest →
      step s = .next ((s.setBus rest).reply (.mem (List.replicate bytes 0))))

/-- A window offset that no register has reads 0 and ignores writes, in the window of any instance (R23, R90). -/
def Obligations.UnnamedOffsetsReadZero : Prop :=
  ∀ (s : State) (n : Nat) (off : BitVec 10) (bytes : Nat) (data : Data) (ov : Bool) (rest : List Event),
    HasInstance s n → (∀ reg, regOffset reg ≠ off) →
    (s.bus = .regWrite n off bytes data ov :: rest → step s = .next ((s.setBus rest).focus n)) ∧
    (s.bus = .regRead n off bytes :: rest → step s = .next (((s.setBus rest).focus n).reply (.reg 0)))

/-- While BUSY = 1 of an instance a write to any of its registers, CMD included, faults with HOST_WRITE_WHILE_BUSY, and a
read is allowed (R270). -/
def Obligations.WriteWhileBusyFaults : Prop :=
  ∀ (s : State) (n : Nat) (reg : Reg) (rest : List Event), HasInstance s n → (s.coreOf n).busy = true →
    (∀ data ov, s.bus = .regWrite n (regOffset reg) 8 data ov :: rest → step s = .fault .hostWriteWhileBusy) ∧
    (s.bus = .regRead n (regOffset reg) 8 :: rest →
      step s = .next (((s.setBus rest).focus n).reply (.reg (readReg Config.params reg (s.coreOf n)))))

/-! ## Reset (spec/10_state.md R50; spec/70_reset_and_hazards.md R260, R261; spec/41_routing.md R122) -/

/-- A reset of any instance gives every register and its hidden state the reset value, frees a lock it holds, and
changes no other instance, nothing of the table and, when it was idle, no memory (R50, R260, R262). That a reset during a
COMPUTE (R261) answers a next state too, with no fault for an access the COMPUTE may have made before, is the model's choice,
log 29 (DESIGN CHOICE, unsafe). -/
def Obligations.ResetSetsEveryRegister : Prop :=
  ∀ (s : State) (n : Nat) (rest : List Event), HasInstance s n → s.bus = .reset n :: rest →
    ∃ t, step s = .next t ∧ t.cur = n ∧
      (∀ reg, readReg Config.params reg (t.coreOf n) = if reg = .noiseMode then Config.noiseModeFixed else 0) ∧
      (t.coreOf n).busy = false ∧ (t.coreOf n).phaseAcc = 0 ∧ (t.coreOf n).incr = 0 ∧
      (t.coreOf n).work = Work.unspecified ∧
      (s.tableLock = none ∨ s.tableLock = some n → t.tableLock = none) ∧
      (∀ m, m ≠ n → t.coreOf m = s.coreOf m) ∧ t.tableBuilt = s.tableBuilt ∧ t.bus = rest ∧
      ((s.coreOf n).busy = false → t.mem = s.mem)

/-- A reset of an instance while its BUSY = 1 ends the COMPUTE: BUSY reads 0, each byte of the call window's elements is a
free value drawn at the reset, and every other byte of memory is unchanged (R261). That no fault is raised for an access
the COMPUTE may have made before is the model's choice, log 29. -/
def Obligations.ResetDuringComputeFreesTheWindow : Prop :=
  ∀ (s : State) (n : Nat) (F : Format) (rest : List Event), HasInstance s n → s.bus = .reset n :: rest →
    (s.coreOf n).inFlight = some F →
    ∃ t, step s = .next t ∧ readReg Config.params .status (t.coreOf n) = 0 ∧
      ∀ a : Addr,
        ((∃ i < (s.coreOf n).frames, ∃ j < F.esize, a = elementAddr F (s.coreOf n) i + BitVec.ofNat 64 j) →
          ∃ k, s.draws ≤ k ∧ readByte t.mem a = (Config.freeValue k).setWidth 8) ∧
        ((∀ i < (s.coreOf n).frames, ∀ j < F.esize, a ≠ elementAddr F (s.coreOf n) i + BitVec.ofNat 64 j) →
          readByte t.mem a = readByte s.mem a)

/-- The machine after reset: every register of every instance reads 0, NOISE_MODE reads NOISE_MODE_FIXED, PHASE_ACC and
INCR are 0, no instance has a COMPUTE in flight, the lock is free, memory is canonical. That unwritten memory reads 0 is
the model's choice (log 8) and not stated here. -/
def Obligations.ResetStateReads : Prop :=
  (∀ n : Nat,
    (∀ reg, readReg Config.params reg (State.reset.coreOf n) =
      if reg = .noiseMode then Config.noiseModeFixed else 0) ∧
    (State.reset.coreOf n).phaseAcc = 0 ∧ (State.reset.coreOf n).incr = 0 ∧
    (State.reset.coreOf n).busy = false) ∧
  State.reset.tableLock = none ∧ Memory.wf State.reset.mem

/-- After reset no source of any instance is routed to anything (R122, R247). -/
def Obligations.ResetRoutesNothing : Prop :=
  ∀ (n : Nat) (src : Source),
    let r := (State.reset.coreOf n).regs
    r.route src = 0 ∧ hasRouting r src = false ∧ ∀ dst : Dest, routes r src dst = false

/-! ## Commands (spec/40_compute_command.md R100 to R108; spec/60_exceptions.md R235, R241) -/

/-- NOP and the reserved commands of every FORMAT and OP change nothing; while BUSY = 1 they are a host-duty fault
(R100, R107). Covers nop, reserved2, reserved4 and reserved8. -/
def Obligations.NopAndReservedCommandsChangeNothing : Prop :=
  ∀ (s : State) (fmt : Format) (op : BitVec 4),
    ∀ i ∈ [Instr.nop fmt, Instr.reserved2 fmt op, Instr.reserved4 fmt op, Instr.reserved8 fmt op],
      (s.core.busy = false → exec i s = .next s) ∧
      (s.core.busy = true → exec i s = .fault .hostWriteWhileBusy)

/-- A COMPUTE whose BUFFER_BASE is 0 does nothing and completes at once, whether or not other events could overlap it
(R101). -/
def Obligations.NullBufferComputeDoesNothing : Prop :=
  ∀ (s : State) (F : Format), s.core.busy = false → s.core.regs.bufferBase = 0 →
    exec (Instr.compute F) s = .next s ∧ startCompute F s = .next s

/-- COMPUTE: with no null buffer and every duty of the host and the platform met, the eight instructions run the nine
stages in the order of R103, OSC0 over every frame before OSC1, through the primitives of their format, and complete;
a null buffer returns. Covers computeS8, computeS16, computeS24, computeS32, computeS64, computeFloat, computeDouble
and computeComplex. -/
def Obligations.ComputeRunsTheStagesInOrder : Prop :=
  ∀ (i : Instr) (F : Format) (s : State), i.computeFormat = some F → s.core.busy = false →
    (s.core.regs.bufferBase = 0 → exec i s = .next s) ∧
    (s.core.regs.bufferBase ≠ 0 → DutiesMet F s →
      let P := Config.params
      let s1 := envDrive P .env1 (envDrive P .env0 (s.begin F))
      let s2 := lfoDrive P .lfo1 (lfoDrive P .lfo0 s1)
      let s3 := oscRender P .osc1 F (oscRender P .osc0 F (noiseDrive P s2))
      exec i s = .next (volumeStage P F (pitchStage P F s3)).complete)

/-- The frame of the eight COMPUTE instructions: no register, no other instance, nothing of the platform or the table,
no unrouted source's working buffer and no byte outside the accessed bytes of the call window changes; BUSY is 0
after; a null buffer changes nothing at all. -/
def Obligations.ComputeFrame : Prop :=
  ∀ (i : Instr) (F : Format) (s t : State), i.computeFormat = some F → exec i s = .next t →
    t.core.regs = s.core.regs ∧ t.core.busy = false ∧ t.cur = s.cur ∧ t.others = s.others ∧ t.bus = s.bus ∧
    t.replies = s.replies ∧ t.platform = s.platform ∧ t.tableBuilt = s.tableBuilt ∧
    (t.tableLock = s.tableLock ∨ t.tableLock = none) ∧
    (∀ src, hasRouting s.core.regs src = false → t.core.work.of src = s.core.work.of src) ∧
    (∀ a : Addr, (∀ i < s.core.frames, ∀ j < F.accessBytes, a ≠ elementAddr F s.core i + BitVec.ofNat 64 j) →
      readByte t.mem a = readByte s.mem a) ∧
    (s.core.regs.bufferBase = 0 → t = s)

/-- No instruction is refused, and one faults only where the host wrote CMD while BUSY = 1 or a COMPUTE with a buffer
breaks a duty (R235, R241). -/
def Obligations.ExecFaultsOnlyForBrokenDuties : Prop :=
  ∀ (i : Instr) (s : State),
    (∀ r, exec i s ≠ .refused r) ∧
    ∀ f, exec i s = .fault f →
      (s.core.busy = true ∧ f = .hostWriteWhileBusy) ∨
      (∃ F, i.computeFormat = some F ∧ s.core.regs.bufferBase ≠ 0 ∧ ¬DutiesMet F s ∧ f ≠ .hostWriteWhileBusy)

/-- Which fault a COMPUTE with a buffer raises: where the buffer lies first, then the accesses of the first frame that
breaks a duty, then the table (R241). The order in time is the model's reading, log 15 (DEDUCED);
that one set of addresses is refused to every instance is its choice, log 9. -/
def Obligations.BrokenDutyNamesItsFault : Prop :=
  ∀ (i : Instr) (F : Format) (s : State), i.computeFormat = some F → s.core.busy = false →
    s.core.regs.bufferBase ≠ 0 →
    let at_ (k j : Nat) : Addr := elementAddr F s.core k + BitVec.ofNat 64 j
    let L := s.core.frames
    ((∃ k < L, ∃ j < F.esize, InRegisterWindow s (at_ k j) ∨ IsTable s (at_ k j)) →
      exec i s = .fault .bufferInWindow) ∧
    ((∀ k < L, ∀ j < F.esize, ¬InRegisterWindow s (at_ k j) ∧ ¬IsTable s (at_ k j)) →
      (∃ k < L, ∃ j < F.esize, IsDevice s (at_ k j)) → exec i s = .fault .deviceMemory) ∧
    (PlacementMet F s → ∀ k < L,
      (∀ m < k, ∀ j < F.accessBytes, ¬HeldByOther s (at_ m j) ∧ ¬IsUnreachable s (at_ m j)) →
      ((∃ j < F.accessBytes, HeldByOther s (at_ k j)) → exec i s = .fault .bufferShared) ∧
      ((∀ j < F.accessBytes, ¬HeldByOther s (at_ k j)) → (∃ j < F.accessBytes, IsUnreachable s (at_ k j)) →
        exec i s = .fault .busError)) ∧
    (PlacementMet F s → AccessesMet F s → s.tableBuilt = false → exec i s = .fault .tableUnconstructed)

/-- A COMPUTE over no frames changes nothing (R108, corner L = 0; R33). -/
def Obligations.ZeroLengthComputeChangesNothing : Prop :=
  ∀ (i : Instr) (F : Format) (s : State), i.computeFormat = some F → s.core.busy = false →
    s.core.regs.bufferLength = 0 → s.tableBuilt = true → exec i s = .next s

/-- COMPUTE.COMPLEX changes no byte of any imaginary part of the call window (R219). -/
def Obligations.ComplexKeepsImaginaryParts : Prop :=
  ∀ s t : State, exec .computeComplex s = .next t →
    ∀ i < s.core.frames, ∀ j, 8 ≤ j → j < 16 →
      readByte t.mem (elementAddr .complex s.core i + BitVec.ofNat 64 j) =
        readByte s.mem (elementAddr .complex s.core i + BitVec.ofNat 64 j)

/-- A command that starts and then takes its step answers what the command taken as one atomic step answers (R105). -/
def Obligations.OverlappedCommandEqualsAtomic : Prop :=
  ∀ (s : State) (data : Data) (rest : List Event), s.core.busy = false →
    core.run 2 (s.setBus (.regWrite s.cur 0x000 8 data true :: .proceed s.cur :: rest)) =
      core.run 1 (s.setBus (.regWrite s.cur 0x000 8 data false :: rest))

/-- BUSY: a COMPUTE command to any instance sets it and starts, changing nothing else; every completed COMPUTE leaves it
0; a null-buffer COMPUTE is over before the next transaction (R102). That the CMD write carries the flag `overlapped`,
which says that later events come before the completion, is the model's form, log 3. -/
def Obligations.BusyLifecycle : Prop :=
  (∀ (s : State) (n : Nat) (F : Format) (data : Data) (rest : List Event), HasInstance s n →
    (s.coreOf n).busy = false →
    (decodeKey (dispatchKey (s.coreOf n).regs.format data)).computeFormat = some F →
    s.bus = .regWrite n 0x000 8 data true :: rest →
    let u := (s.setBus rest).focus n
    ((s.coreOf n).regs.bufferBase = 0 → step s = .next u ∧ readReg Config.params .status u.core = 0) ∧
    ((s.coreOf n).regs.bufferBase ≠ 0 → PlacementMet F u →
      step s = .next { u with core := { u.core with inFlight := some F } } ∧
      readReg Config.params .status { u.core with inFlight := some F } = 1)) ∧
  (∀ (i : Instr) (F : Format) (s t : State), i.computeFormat = some F → exec i s = .next t →
    readReg Config.params .status t.core = 0)

/-- With no transaction pending, the COMPUTE in flight of the addressed instance, or else of the BUSY instance of the
lowest number, does what its command does as one atomic step, and completes with the state its stages give when its
duties are met (R106; that it does so then, and in this order, is the model's reading, log 4). With none in flight the
machine keeps its state (R246). `Inv` is a premise where the list of instances must be in order. -/
def Obligations.InFlightComputeCompletes : Prop :=
  ∀ s : State, s.bus = [] →
    (∀ F, s.core.inFlight = some F →
      step s = exec (Instr.compute F) s.complete ∧
      (s.core.regs.bufferBase ≠ 0 → DutiesMet F s → step s = .next (stages Config.params F s).complete)) ∧
    (Inv s → s.core.busy = false → ∀ n F, (s.coreOf n).inFlight = some F → (∀ m < n, (s.coreOf m).busy = false) →
      step s = exec (Instr.compute F) (s.focus n).complete ∧
      (DutiesMet F (s.focus n) → step s = .next (stages Config.params F (s.focus n)).complete)) ∧
    (¬SomeBusy s → step s = .next s)

/-! ## Instances (spec/60_exceptions.md R247) -/

/-- An event changes no instance but the one it is addressed to. -/
def Obligations.EventsKeepOtherInstances : Prop :=
  ∀ (s t : State) (e : Event) (rest : List Event), s.bus = e :: rest → step s = .next t →
    ∀ m, eventTarget s.platform e ≠ some m → t.coreOf m = s.coreOf m

/-- Every step keeps the invariant: memory and instance list canonical, ROUTE slots and BUFFER_LENGTH legal, working
buffers within MAX_FRAMES, TABLE_LOCK free between steps (R25, R26, R43, R47). -/
def Obligations.StepKeepsInv : Prop :=
  ∀ s t : State, Inv s → step s = .next t → Inv t

/-- The invariant holds after reset. -/
def Obligations.ResetMeetsInv : Prop := Inv State.reset

/-! ## What no result depends on (spec/10_state.md R45; spec/42_envelope.md R139; spec/43_lfo_noise.md R156) -/

/-- No command's outcome depends on what the working buffers, PHASE_ACC or INCR held: memory, registers and everything
else the host can see are the same (R45, R46). -/
def Obligations.HiddenContentsReachNoResult : Prop :=
  ∀ (i : Instr) (s t : State), SameButHidden s t → SameOutcome SameButHidden (exec i s) (exec i t)

/-- A source without routing is not driven, and no stage reads its working buffer: a command answers the same whatever
the buffer holds, and leaves it as it was (R156). -/
def Obligations.UnroutedSourcesAreNotDriven : Prop :=
  (∀ (P : Params) (s : State) (l : LfoId), hasRouting s.core.regs l.source = false → lfoDrive P l s = s) ∧
  (∀ (P : Params) (s : State), hasRouting s.core.regs .noise = false → noiseDrive P s = s) ∧
  (∀ (i : Instr) (s : State) (src : Source) (b : List F64), hasRouting s.core.regs src = false →
    exec i (s.setSource src b) = onNext (State.setSource src b) (exec i s))

/-- With no routing for an envelope, EnvDrive reads and writes nothing; with none for both, no command depends on the
envelope levels, the note's length or the envelopes' working buffers, which it leaves as they were (R139). -/
def Obligations.UnroutedEnvelopesAreBypassed : Prop :=
  (∀ (P : Params) (s : State) (e : EnvId), hasRouting s.core.regs e.source = false → envDrive P e s = s) ∧
  (∀ (i : Instr) (s : State) (e0 e1 : EnvRegs) (n : BitVec 64) (w0 w1 : List F64),
    hasRouting s.core.regs .env0 = false → hasRouting s.core.regs .env1 = false →
    exec i (withEnvelopes e0 e1 n w0 w1 s) = onNext (withEnvelopes e0 e1 n w0 w1) (exec i s))

/-! ## The drivers (spec/42_envelope.md; spec/43_lfo_noise.md) -/

/-- A frame at or after the note end keeps the value 1.0, whatever the envelope kernel is (R136). Under the alternative
basis DRIVE_FREQUENCY, which the machine does not take, that rests on the model's reading of R140, log 13 (DEDUCED). -/
def Obligations.EnvelopeIsOnePastTheNote : Prop :=
  ∀ (P : Params) (e : EnvId) (s : State) (i : Nat), hasRouting s.core.regs e.source = true → i < s.core.frames →
    s.core.regs.frameCount.toNat ≤ s.core.time i →
    ((envDrive P e s).core.work.of e.source)[i]? = some Fp.one

/-- Under the default kernel, frame `i` of a routed envelope inside the note holds the ramp of the quarter its time is
in, begun where the call window or the quarter begins; a NaN for a NaN (R130 to R134, R137). The kernel is the spec's
default (R137), a premise here. -/
def Obligations.EnvelopeFollowsTheQuarters : Prop :=
  ∀ (P : Params) (e : EnvId) (s : State) (i : Nat), P.segmentBasis = .noteQuarters →
    P.envKernel = defaultEnvKernel → hasRouting s.core.regs e.source = true → i < s.core.frames →
    s.core.time i < s.core.regs.frameCount.toNat →
    let d := s.core.regs.env e
    let Q := s.core.regs.frameCount.toNat / 4
    let t := s.core.time i
    let q := if Q = 0 then 3 else min (t / Q) 3
    let t0 := max s.core.regs.offset.toNat (q * Q)
    let slope := if q < 3 then Fp.div (Fp.sub (breakpoint d (q + 1)) (breakpoint d q)) (Fp.ofNat Q) else Fp.zero
    let v0 := Fp.add (breakpoint d q) (Fp.mul slope (Fp.ofNat (t0 - q * Q)))
    ∃ w, ((envDrive P e s).core.work.of e.source)[i]? = some w ∧
      Settled (Fp.add v0 (Fp.mul slope (Fp.ofNat (t - t0)))) w

/-- A routed LFO's buffer holds its kernel's values, called once with the descriptor, the sample rate, the offset, L
and a buffer of +0.0; a routed noise source's buffer holds L fresh free values (R150 to R154). -/
def Obligations.DriversFillTheirBuffers : Prop :=
  ∀ (P : Params) (s : State) (i : Nat), i < s.core.frames →
    (∀ l : LfoId, hasRouting s.core.regs l.source = true →
      let d := s.core.regs.lfo l
      ((lfoDrive P l s).core.work.of l.source)[i]? =
        some (P.lfoKernel
          { entry := d.kind.lfoEntry, frequency := d.frequency, depth := d.depth, tuning := d.tuning
            samplerate := s.core.regs.samplerate, offset := s.core.regs.offset, frames := s.core.frames
            buffer := List.replicate s.core.frames Fp.zero } i)) ∧
    (hasRouting s.core.regs .noise = true →
      ((noiseDrive P s).core.work.of .noise)[i]? = some (P.free (s.draws + i)) ∧
      (noiseDrive P s).draws = s.draws + s.core.frames)

/-! ## Routing (spec/41_routing.md R120, R121) -/

/-- Routing is an existence test over the eight slots, and with legal slots a source has routing exactly when it is
routed to some destination (R120, R121). -/
def Obligations.RoutingIsAnExistenceTest : Prop :=
  ∀ (r : Regs) (src : Source),
    (∀ dst : Dest, routes r src dst = true ↔ ∃ i < 8, (r.route src).toNat / 16 ^ i % 16 = dst.code.toNat) ∧
    (hasRouting r src = true ↔ ∃ i < 8, (r.route src).toNat / 16 ^ i % 16 ≠ 0) ∧
    (LegalRoute (r.route src) → (hasRouting r src = true ↔ ∃ dst : Dest, routes r src dst = true))

/-! ## Oscillators (spec/44_oscillator.md) -/

/-- The examples of R177: base values f = 100.0, ph = +0.0, v = 1.0. -/
def Obligations.BendExamples : Prop :=
  let quarter := Fp.div Fp.one Fp.four
  let half := Fp.div Fp.one Fp.two
  let threeQuarters := Fp.div Fp.three Fp.four
  bendFreq .osc0 .env0 threeQuarters Fp.hundred = Fp.ofInt 75 ∧
  bendFreq .osc1 .env0 threeQuarters Fp.hundred = Fp.ofInt 50 ∧
  bendFreq .osc0 .env1 quarter Fp.hundred = Fp.ofInt 25 ∧
  bendFreq .osc1 .env1 quarter Fp.hundred = Fp.ofInt (-50) ∧
  (∀ P : Params, Fp.lt Fp.zero P.freqEpsilon = true → clampFreq P (Fp.ofInt (-50)) = P.freqEpsilon) ∧
  bendGain .lfo0 Fp.negOne Fp.one = Fp.zero ∧
  bendPhase .noise Fp.zero Fp.zero = Fp.pi ∧
  bendFreq .osc0 .lfo1 Fp.one (bendFreq .osc0 .env0 half Fp.hundred) = Fp.ofInt 50

/-- The bends of an oscillator: source by source in the order SOURCES, each routed sample bends the frequency, the phase
and the volume, an envelope directly and an LFO or noise source unipolar (R161). OSC1's frequency bend from an envelope is
the bipolar remap where OSC0's is the direct ratio; an envelope's phase and volume bends are the same for both oscillators
(R162). -/
def Obligations.BendsFollowTheRouting : Prop :=
  ∀ (P : Params) (i : Nat) (c : CoreState),
    (∀ k : OscId,
      let d := if k = .osc0 then c.regs.osc0 else c.regs.osc1
      let toFrequency : Dest := if k = .osc0 then .osc0Frequency else .osc1Frequency
      let toPhase : Dest := if k = .osc0 then .osc0Phase else .osc1Phase
      let toVolume : Dest := if k = .osc0 then .osc0Volume else .osc1Volume
      let w (src : Source) : F64 := c.sourceAt P src i
      let byEnv (src : Source) (b : Bent) : Bent :=
        { freq :=
            if routes c.regs src toFrequency then
              Fp.mul b.freq (if k = .osc0 then w src else Fp.sub (Fp.mul Fp.two (w src)) Fp.one)
            else b.freq
          phase := if routes c.regs src toPhase then Fp.add b.phase (Fp.mul (w src) Fp.twoPi) else b.phase
          vol := if routes c.regs src toVolume then Fp.mul b.vol (w src) else b.vol }
      let byWave (src : Source) (b : Bent) : Bent :=
        { freq :=
            if routes c.regs src toFrequency then Fp.mul b.freq (Fp.div (Fp.add (w src) Fp.one) Fp.two) else b.freq
          phase :=
            if routes c.regs src toPhase then Fp.add b.phase (Fp.mul (Fp.add (w src) Fp.one) Fp.pi) else b.phase
          vol := if routes c.regs src toVolume then Fp.mul b.vol (Fp.div (Fp.add (w src) Fp.one) Fp.two) else b.vol }
      bendAll P k i c =
        byWave .noise (byWave .lfo1 (byWave .lfo0 (byEnv .env1 (byEnv .env0 ⟨d.frequency, d.phase, d.volume⟩))))) ∧
    (∀ (b : Bent) (src : Source), src.isEnv = true →
      let x := c.sourceAt P src i
      (routes c.regs src .osc0Frequency = true → (bend P .osc0 i c b src).freq = Fp.mul b.freq x) ∧
      (routes c.regs src .osc1Frequency = true →
        (bend P .osc1 i c b src).freq = Fp.mul b.freq (Fp.sub (Fp.mul Fp.two x) Fp.one)) ∧
      (routes c.regs src .osc0Phase = true → routes c.regs src .osc1Phase = true →
        (bend P .osc0 i c b src).phase = (bend P .osc1 i c b src).phase) ∧
      (routes c.regs src .osc0Volume = true → routes c.regs src .osc1Volume = true →
        (bend P .osc0 i c b src).vol = (bend P .osc1 i c b src).vol))

/-- The frequency clamp: after all bends and before any division a frequency below FREQ_EPSILON becomes it, a NaN
stays, and FREQ_EPSILON is positive (R163). OscRender does every frame of the call window in ascending order: at the time
OFFSET + i it shifts the clamped oscillator's time by its phase, tp = t + (ph × sr) / (TWO_PI × f), and adds
(w × SCALE) × v of the wave there (R160, R164, R172, R175). -/
def Obligations.OscRenderClampsTheFrequencyOfEachFrame : Prop :=
  Fp.lt Fp.zero Config.params.freqEpsilon = true ∧
  (∀ (P : Params) (f : F64), Fp.isNaN P.freqEpsilon = false →
    (Fp.isNaN f = true → clampFreq P f = f) ∧
    (Fp.lt f P.freqEpsilon = true → clampFreq P f = P.freqEpsilon) ∧
    (Fp.le P.freqEpsilon f = true → clampFreq P f = f) ∧
    (Fp.isNaN f = false → Fp.le P.freqEpsilon (clampFreq P f) = true)) ∧
  (∀ (P : Params) (k : OscId) (F : Format) (s : State) (i : Nat),
    let r := s.core.regs
    let sr := Fp.ofNat r.samplerate.toNat
    let t := Fp.ofNat (r.offset.toNat + i)
    let b := bendAll P k i s.core
    let f := clampFreq P b.freq
    let tp := Fp.add t (Fp.div (Fp.mul b.phase sr) (Fp.mul Fp.twoPi f))
    let w := wave P (if k = .osc0 then r.osc0.kind else r.osc1.kind) f tp sr s
    oscFrame P k F s i = accumulate P F i (Fp.mul (Fp.mul w.1 (scale P F)) b.vol) w.2) ∧
  (∀ (P : Params) (k : OscId) (F : Format) (s : State),
    oscRender P k F s = (List.range s.core.regs.bufferLength.toNat).foldl (oscFrame P k F) s)

/-- Sawtooth and triangle: their formulas of the position in the period, r = m / P with P = sr / f and m = fmod(tp, P),
plus P where that is below 0.0, and the examples sr = 8, f = 1.0, tp = 0 .. 7 in units of 1/4 and 1/2 (R168, R169; r is
R165's). -/
def Obligations.SawtoothAndTriangle : Prop :=
  (∀ (P : Params) (f tp sr : F64) (s : State),
    let period := Fp.div sr f
    let m := Fp.fmod tp period
    let r := Fp.div (if Fp.lt m Fp.zero then Fp.add m period else m) period
    let u := Fp.sub (Fp.mul Fp.four r) Fp.one
    wave P .sawtooth f tp sr s = (Fp.sub (Fp.mul Fp.two r) Fp.one, s) ∧
    wave P .triangle f tp sr s = (if Fp.le u Fp.one then u else Fp.sub Fp.two u, s)) ∧
  ((List.range 8).map fun tp => sawtooth (periodPosition Fp.one (Fp.ofNat tp) (Fp.ofNat 8))) =
    [-4, -3, -2, -1, 0, 1, 2, 3].map (fun n : Int => Fp.div (Fp.ofInt n) Fp.four) ∧
  ((List.range 8).map fun tp => triangle (periodPosition Fp.one (Fp.ofNat tp) (Fp.ofNat 8))) =
    [-2, -1, 0, 1, 2, 1, 0, -1].map (fun n : Int => Fp.div (Fp.ofInt n) Fp.two)

/-- Sine, square and pulse of arg = ((TWO_PI × f) × tp) / sr (R165): the sine is SIN(arg) (R166); square and pulse are
±1.0 by the sine against 0.0 and against SIN((TWO_PI × 3.0) / 5.0): +1.0 from the threshold up, a zero of either sign included,
and −1.0 below it and for a NaN (R170, R171). A wave changes nothing of the state but the counter of draws. -/
def Obligations.SineSquareAndPulse : Prop :=
  Fp.twoPi = 0x401921FB54442D18 ∧
  ∀ (P : Params) (f tp sr : F64) (s : State),
    (∃ e, Settled (Fp.div (Fp.mul (Fp.mul Fp.twoPi f) tp) sr) e ∧
      let x := P.sin e
      let threshold := P.sin (Fp.div (Fp.mul Fp.twoPi Fp.three) Fp.five)
      (wave P .sine f tp sr s).1 = x ∧
      (wave P .square f tp sr s).1 = (if Fp.le Fp.zero x then Fp.one else Fp.negOne) ∧
      (wave P .pulse f tp sr s).1 = (if Fp.le threshold x then Fp.one else Fp.negOne) ∧
      (Fp.isNaN x = true → (wave P .square f tp sr s).1 = Fp.negOne ∧ (wave P .pulse f tp sr s).1 = Fp.negOne) ∧
      (x = Fp.zero ∨ x = Fp.negZero → (wave P .square f tp sr s).1 = Fp.one)) ∧
    (∀ kind : Kind,
      let u := (wave P kind f tp sr s).2
      u = { s with draws := u.draws } ∧ s.draws ≤ u.draws)

/-- The position in the period lies in [0, 1] for every finite time and every finite positive period (R167). -/
def Obligations.PeriodPositionIsWithinZeroAndOne : Prop :=
  ∀ f tp sr : F64, Fp.isFinite tp = true → Fp.isFinite (Fp.div sr f) = true → Fp.lt Fp.zero (Fp.div sr f) = true →
    Fp.le Fp.zero (periodPosition f tp sr) = true ∧ Fp.le (periodPosition f tp sr) Fp.one = true

/-! ## Sample primitives (spec/47_format.md; spec/20_memory.md) -/

/-- Accumulate (R222). Of the integer encodings, for a finite addend: the element becomes its old value plus the truncated
addend, wrapped at the container's width; so two addends commute (R174). Of FLOAT the element becomes the binary32 sum of
its old value and the addend rounded to binary32, of DOUBLE and COMPLEX the (real part of the) element the binary64 sum; a
NaN where the sum is one. No other byte changes. -/
def Obligations.AccumulateAddsToTheElement : Prop :=
  ∀ (P : Params) (F : Format) (i : Nat) (a b : F64) (s : State),
    let t := accumulate P F i a s
    (∀ n, intWidth F = some n → Fp.isFinite a = true →
      (loadBits n F i t = loadBits n F i s + BitVec.ofInt n (Fp.trunc a)) ∧
      (Fp.isFinite b = true → Memory.wf s.mem →
        accumulate P F i b t = accumulate P F i a (accumulate P F i b s))) ∧
    (F = .float → Settled32 (Fp.add32 (loadBits 32 F i s) (Fp.toF32 a)) (loadBits 32 F i t)) ∧
    (F = .double ∨ F = .complex → Settled (Fp.add (loadBits 64 F i s) a) (loadBits 64 F i t)) ∧
    (∀ adr : Addr, (∀ j < F.accessBytes, adr ≠ elementAddr F s.core i + BitVec.ofNat 64 j) →
      readByte t.mem adr = readByte s.mem adr)

/-- Storing what was loaded restores the element: always for S8 to S32, DOUBLE and COMPLEX, for FLOAT up to NaNs, for
S64 up to 2^53 in magnitude (R223). -/
def Obligations.StoreAfterLoadRestores : Prop :=
  ∀ (P : Params) (F : Format) (i : Nat) (s : State), Memory.wf s.mem → ConvertsBack F i s →
    storeFromDouble P F i (loadAsDouble F i s) s = s

/-- S64 corners: the largest element loads as 2^63 and stores back as the smallest, and a full-scale addend converts
to the smallest (R234). -/
def Obligations.LargestS64WrapsToSmallest : Prop :=
  ∀ (P : Params) (i : Nat) (s : State),
    (loadBits 64 .s64 i s = 0x7FFFFFFFFFFFFFFF →
      loadAsDouble .s64 i s = 0x43E0000000000000 ∧
      loadBits 64 .s64 i (storeFromDouble P .s64 i (loadAsDouble .s64 i s) s) = 0x8000000000000000) ∧
    convInt P 64 (addend P .s64 Fp.one Fp.one) s = (0x8000000000000000, s)

/-- Conversion to an integer: a finite value truncates and wraps, anything else is a free value; with R220's examples
1.9, −1.9, 200.0 and −0.0. -/
def Obligations.IntegerConversion : Prop :=
  ∀ (P : Params) (n : Nat) (s : State),
    (∀ x, Fp.isFinite x = true → convInt P n x s = (BitVec.ofInt n (Fp.trunc x), s)) ∧
    (∀ x, Fp.isFinite x = false → convInt P n x s = ((P.free s.draws).setWidth n, s.drew)) ∧
    (convInt P 16 (Fp.div (Fp.ofInt 19) (Fp.ofInt 10)) s).1 = 1 ∧
    (convInt P 16 (Fp.div (Fp.ofInt (-19)) (Fp.ofInt 10)) s).1 = BitVec.ofInt 16 (-1) ∧
    (convInt P 8 (Fp.ofInt 200) s).1 = BitVec.ofInt 8 (-56) ∧
    (convInt P 16 Fp.negZero s).1 = 0

/-- The full-scale multipliers (R216). -/
def Obligations.FullScaleMultipliers : Prop :=
  ∀ P : Params,
    scale P .s8 = Fp.ofInt 127 ∧ scale P .s16 = Fp.ofInt 32767 ∧ scale P .s24 = Fp.ofInt 8388607 ∧
    scale P .s32 = P.fullScaleS32 ∧ scale P .s64 = Fp.ofInt 9223372036854775807 ∧
    scale P .s64 = Fp.ofInt (2 ^ 63) ∧ scale P .s64 = 0x43E0000000000000 ∧
    scale P .float = Fp.ofInt 1 ∧ scale P .double = Fp.ofInt 1 ∧ scale P .complex = Fp.ofInt 1

/-- The element of frame `i` is at BUFFER_BASE + i × STRIDE × ESIZE modulo 2^64; with STRIDE 0 every frame is the same
element (R61, with ESIZE of R86). -/
def Obligations.ElementAddresses : Prop :=
  ∀ (c : CoreState) (i : Nat),
    (∀ FE ∈ [(Format.s8, 1), (Format.s16, 2), (Format.s24, 4), (Format.s32, 4), (Format.s64, 8), (Format.float, 4),
        (Format.double, 8), (Format.complex, 16)],
      (elementAddr FE.1 c i).toNat = (c.regs.bufferBase.toNat + i * c.regs.stride.toNat * FE.2) % 2 ^ 64 ∧
      FE.1.esize = FE.2) ∧
    (∀ F, c.regs.stride = 0 → elementAddr F c i = c.regs.bufferBase)

/-- MemRead and MemWrite are little-endian over single bytes at wrapping addresses, whatever the alignment, and a
write touches its own bytes alone (R11, R62, R63, R64). -/
def Obligations.AccessesAreLittleEndianBytes : Prop :=
  ∀ (m : List Host.Cell) (a : Addr) (n v : Nat), n ≤ 2 ^ 64 →
    readLE m a n = Finset.sum (Finset.range n) (fun j => (readByte m (a + BitVec.ofNat 64 j)).toNat * 256 ^ j) ∧
    (∀ j < n, readByte (writeLE a n v m) (a + BitVec.ofNat 64 j) = BitVec.ofNat 8 (v / 256 ^ j)) ∧
    (∀ b : Addr, (∀ j < n, b ≠ a + BitVec.ofNat 64 j) → readByte (writeLE a n v m) b = readByte m b)

/-- Two frames have the same element or share no byte (R61). -/
def Obligations.ElementsCoincideOrAreDisjoint : Prop :=
  ∀ (F : Format) (c : CoreState) (i j : Nat),
    elementAddr F c i = elementAddr F c j ∨
      ∀ x < F.esize, ∀ y < F.esize,
        elementAddr F c i + BitVec.ofNat 64 x ≠ elementAddr F c j + BitVec.ofNat 64 y

/-- Accesses of the host and other agents to ordinary memory, no byte of which lies in a register window, the table device
or a device: one that touches a byte of a BUSY instance's elements faults with BUFFER_SHARED; any other write stores its
bytes and changes no other byte, and any other read returns the bytes (R60, R75, R273). That a COMPUTE's bytes are seen as
soon as it has completed is the model's choice, log 28, and that memory on which CORE's sample accesses cannot be
completed is ordinary memory to other agents is its choice, log 31. -/
def Obligations.AgentAccessesOutsideBusyBuffers : Prop :=
  ∀ (s : State) (a : Addr) (rest : List Event),
    (∀ (data : List Byte) (ov : Bool), data.length ≤ 2 ^ 64 → (∀ j < data.length, OrdinaryAt s a j) →
      s.bus = .memWrite a data ov :: rest →
      ((∃ j < data.length, HeldByAny s (a + BitVec.ofNat 64 j)) → step s = .fault .bufferShared) ∧
      ((∀ j < data.length, ¬HeldByAny s (a + BitVec.ofNat 64 j)) →
        ∃ t, step s = .next t ∧ t = (s.setBus rest).setMem t.mem ∧
          (∀ j < data.length, some (readByte t.mem (a + BitVec.ofNat 64 j)) = data[j]?) ∧
          ∀ b : Addr, (∀ j < data.length, b ≠ a + BitVec.ofNat 64 j) → readByte t.mem b = readByte s.mem b)) ∧
    (∀ n : Nat, (∀ j < n, OrdinaryAt s a j) → s.bus = .memRead a n :: rest →
      ((∃ j < n, HeldByAny s (a + BitVec.ofNat 64 j)) → step s = .fault .bufferShared) ∧
      ((∀ j < n, ¬HeldByAny s (a + BitVec.ofNat 64 j)) →
        step s = .next ((s.setBus rest).reply
          (.mem ((List.range n).map fun j => readByte s.mem (a + BitVec.ofNat 64 j))))))

/-- The shared table: TableRead returns the row of COEFF and leaves the lock free, changing nothing else (R71; that the
lock is free between steps is the model's reading, log 11); its construction while an instance is BUSY faults with
TABLE_WRITE, and otherwise constructs it (R72, R262). The third clause is the model's choice and no rule of the spec: that
the table device may have addresses of system memory is log 23 (DEDUCED), and that a store to one while an instance is BUSY
is the table write of R72 is log 30 (DESIGN CHOICE); R248 gives the device no such path. -/
def Obligations.TableReadGivesTheRowAndLeavesTheLockFree : Prop :=
  (∀ (P : Params) (r : BitVec 8) (s : State), tableRead P r s = (P.coeff r, s.setTableLock none)) ∧
  (∀ (s : State) (rest : List Event), s.bus = .constructTable :: rest →
    (SomeBusy s → step s = .fault .tableWrite) ∧
    (¬SomeBusy s → step s = .next ((s.setBus rest).setTableBuilt true))) ∧
  (∀ (s : State) (a : Addr) (data : List Byte) (ov : Bool) (rest : List Event), s.bus = .memWrite a data ov :: rest →
    SomeBusy s → (∀ j < data.length, ¬HeldByAny s (a + BitVec.ofNat 64 j)) →
    (∃ j < data.length, IsTable s (a + BitVec.ofNat 64 j) ∧ ¬InRegisterWindow s (a + BitVec.ofNat 64 j)) →
    step s = .fault .tableWrite)

/-! ## The pitch stage (spec/45_pitch.md) -/

/-- Identity at zero tuning: with nothing routed to PITCH_TUNING, PITCH_TUNING +0.0, a finite base key, a finite
non-zero root and row 0 of the table (+0.0, 1.0, +0.0, +0.0), the pitch stage leaves memory as it was when every
element is one it can restore, and the increment is 2^32 (R201, A_COEFF_ROW0). -/
def Obligations.PitchIdentityAtZeroTuning : Prop :=
  ∀ (P : Params) (F : Format) (s : State), P.CoeffRow0 → Memory.wf s.mem →
    (∀ src, routes s.core.regs src .pitchTuning = false) → s.core.regs.pitchTuning = Fp.zero →
    Fp.isFinite s.core.regs.pitchBaseKey = true →
    Fp.isFinite (keyPitch P (keyDistance s.core.regs) s).1 = true →
    Fp.mag (keyPitch P (keyDistance s.core.regs) s).1 ≠ 0 →
    (∀ i < s.core.frames, SteadyElement F i s) →
    (pitchStage P F s).mem = s.mem ∧
    (0 < s.core.frames → (pitchStage P F s).core.incr = BitVec.ofNat 64 (2 ^ 32) ∧
      (pitchStage P F s).core.phaseAcc = BitVec.ofNat 64 (s.core.frames * 2 ^ 32))

/-- The pitch pass. One output frame: it is the weighted sum at the index and row of the phase on entry, and only then the
phase advances by this frame's increment, modulo 2^64 (R190, R195, R198, R199). The increment is that of R193 and R194: the
tuning is PITCH_TUNING plus every routed source's sample, in the order of SOURCES, the ratio is the bent key's pitch over
the root pitch, with the fallback to 1.0, and the increment is floor(ratio × 2^32), or a free value outside [0, 2^32). The
frame leaves memory, the registers, the sources' buffers and every other entry of W_PITCH as they were.
The pass over L frames: X is the snapshot of the elements (R196), the root POW2((bk − 48.0) / 12.0) × 440.0 (R191),
PHASE_ACC starts at 0 (R192), the frames follow in ascending order, and then W_PITCH is stored back with StoreFromDouble in
ascending order (R200); with no frame nothing happens.
That the ordered, rounded sum also stands for a frame past the end of the window (k at least L + 1), where R198 says the
default table gives exactly X[L − 1] and the two can differ in the last place, is the model's reading, log 32 (DEDUCED,
unsafe in part). -/
def Obligations.PitchPassReadsBeforeItAdvances : Prop :=
  (∀ (P : Params) (root : F64) (X : List F64) (s : State) (i : Nat),
    let p := s.core.phaseAcc
    let t := pitchFrame P root X s i
    let c := P.coeff (BitVec.ofNat 8 (p.toNat / 2 ^ 24))
    let k : Int := p.toNat / 2 ^ 32
    let x (j : Int) : F64 := X.getD (min (max j 0) ((X.length : Int) - 1)).toNat Fp.zero
    let r := s.core.regs
    let w (src : Source) : F64 := s.core.sourceAt P src i
    let byEnv (src : Source) (tun : F64) : F64 :=
      if routes r src .pitchTuning then
        Fp.add tun (Fp.mul (Fp.sub (Fp.mul Fp.two (w src)) Fp.one) Fp.twelveHundred)
      else tun
    let byWave (src : Source) (tun : F64) : F64 :=
      if routes r src .pitchTuning then
        Fp.add tun (Fp.mul (Fp.div (Fp.add (w src) Fp.one) Fp.two) Fp.twelveHundred)
      else tun
    let tun := byWave .noise (byWave .lfo1 (byWave .lfo0 (byEnv .env1 (byEnv .env0 r.pitchTuning))))
    let key := Fp.div (Fp.add (Fp.sub r.pitchBaseKey Fp.fortyEight) (Fp.div tun Fp.hundred)) Fp.twelve
    (∃ e, Settled key e ∧
      let quotient := Fp.div (Fp.mul (P.pow2 e) Fp.fourForty) root
      let ratio := if Fp.eqv quotient Fp.zero then Fp.one else quotient
      let inRange := Fp.isFinite ratio = true ∧ Fp.le Fp.zero ratio = true ∧ Fp.lt ratio (Fp.ofInt (2 ^ 32)) = true
      (inRange → (t.core.incr.toNat : Int) = Fp.units ratio * 2 ^ 32 / 2 ^ 1074) ∧
      (¬inRange → ∃ n, s.draws ≤ n ∧ t.core.incr = P.free n)) ∧
    t.core.phaseAcc.toNat = (p.toNat + t.core.incr.toNat) % 2 ^ 64 ∧
    (i ≤ s.core.work.pitch.length →
      (∃ v, t.core.work.pitch[i]? = some v ∧
        Settled (Fp.add (Fp.add (Fp.add (Fp.mul c.c0 (x (k - 1))) (Fp.mul c.c1 (x k))) (Fp.mul c.c2 (x (k + 1))))
          (Fp.mul c.c3 (x (k + 2)))) v) ∧
      ∀ j, j ≠ i → t.core.work.pitch[j]? = s.core.work.pitch[j]?) ∧
    t.mem = s.mem ∧ t.core.regs = s.core.regs ∧ ∀ src, t.core.work.of src = s.core.work.of src) ∧
  (∀ (P : Params) (F : Format) (s : State),
    let frames := List.range s.core.regs.bufferLength.toNat
    (s.core.regs.bufferLength = 0 → pitchStage P F s = s) ∧
    (s.core.regs.bufferLength ≠ 0 →
      ∃ (e : F64) (u : State), Settled (Fp.div (Fp.sub s.core.regs.pitchBaseKey Fp.fortyEight) Fp.twelve) e ∧
        u = { s with draws := u.draws } ∧ s.draws ≤ u.draws ∧
        let root := Fp.mul (P.pow2 e) Fp.fourForty
        let X := frames.map fun j => loadAsDouble F j s
        let done := frames.foldl (pitchFrame P root X) { u with core := { u.core with phaseAcc := 0 } }
        frames.length ≤ done.core.work.pitch.length ∧
        pitchStage P F s =
          frames.foldl (fun t i => storeFromDouble P F i (done.core.work.pitch.getD i Fp.zero) t) done))

/-- The increment: a ratio equal to 0.0 falls back to 1.0; a ratio in [0, 2^32) gives floor(ratio × 2^32), so one
below 2^−32 gives 0; any other gives a free value (R194). -/
def Obligations.RatioBecomesFixedPoint : Prop :=
  ∀ (P : Params) (ratio : F64) (s : State),
    (Fp.eqv ratio Fp.zero = true → ratioFallback ratio = Fp.one) ∧
    (Fp.eqv ratio Fp.zero = false → ratioFallback ratio = ratio) ∧
    (Fp.isFinite ratio = true → Fp.le Fp.zero ratio = true → Fp.lt ratio (Fp.ofInt (2 ^ 32)) = true →
      (toFixed P ratio s).2 = s ∧ ((toFixed P ratio s).1.toNat : Int) = Fp.units ratio * 2 ^ 32 / 2 ^ 1074 ∧
      (Fp.lt ratio (Fp.div Fp.one (Fp.ofInt (2 ^ 32))) = true → (toFixed P ratio s).1 = 0)) ∧
    (Fp.isFinite ratio = false ∨ Fp.lt ratio Fp.zero = true ∨ Fp.le (Fp.ofInt (2 ^ 32)) ratio = true →
      toFixed P ratio s = (P.free s.draws, s.drew))

/-! ## The volume stage (spec/46_volume.md) -/

/-- The volume stage stores each element times the gain, which is VOLUME times every routed source's sample, an envelope's
as it is and a wave's as (s + 1.0) / 2.0, in the order of SOURCES (R210). So at VOLUME 1.0 with nothing routed to it, it
leaves memory as it was when every element is a number its format converts back (R212). -/
def Obligations.VolumeAppliesTheRoutedGain : Prop :=
  (∀ (P : Params) (F : Format) (s : State) (i : Nat),
    let r := s.core.regs
    let w (src : Source) : F64 := s.core.sourceAt P src i
    let byEnv (src : Source) (g : F64) : F64 := if routes r src .volume then Fp.mul g (w src) else g
    let byWave (src : Source) (g : F64) : F64 :=
      if routes r src .volume then Fp.mul g (Fp.div (Fp.add (w src) Fp.one) Fp.two) else g
    let g := byWave .noise (byWave .lfo1 (byWave .lfo0 (byEnv .env1 (byEnv .env0 r.volume))))
    ∃ v u, Settled (Fp.mul (loadAsDouble F i s) g) v ∧ u = { s with draws := u.draws } ∧ s.draws ≤ u.draws ∧
      volumeFrame P F s i = storeFromDouble P F i v u) ∧
  (∀ (P : Params) (F : Format) (s : State),
    volumeStage P F s = (List.range s.core.frames).foldl (volumeFrame P F) s) ∧
  (∀ (P : Params) (F : Format) (s : State), Memory.wf s.mem → s.core.regs.volume = Fp.one →
    (∀ src, routes s.core.regs src .volume = false) → (∀ i < s.core.frames, NumberElement F i s) →
    (volumeStage P F s).mem = s.mem)

/-- At VOLUME +0.0 with nothing routed to it, every integer element ends 0 (R211, R212). -/
def Obligations.ZeroVolumeClearsIntegers : Prop :=
  ∀ (P : Params) (F : Format) (n : Nat) (s : State), intWidth F = some n → s.core.regs.volume = Fp.zero →
    (∀ src, routes s.core.regs src .volume = false) →
    ∀ i < s.core.frames, loadBits n F i (volumeStage P F s) = 0

/-! ## Arithmetic and scripts (spec/00_scope.md R14; spec/30_encoding.md R93) -/

/-- Rounding to nearest: where the result is finite, no finite binary64 is nearer to the exact value `num / den` of
units, and an exact tie has the even fraction; the result is an infinity exactly from the midpoint above the greatest
finite value on, (2^54 − 1) × 2^2044 units (R14). -/
def Obligations.RoundingIsToNearestEven : Prop :=
  ∀ (num den : Nat) (s : Bool), 0 < den →
    let z := Fp.pack s (Fp.roundMag 52 num den)
    (Fp.isFinite z = true →
      ∀ w : F64, Fp.isFinite w = true →
        let dz := ((Fp.mag z * den : Nat) - (num : Int)).natAbs
        let dw := ((Fp.mag w * den : Nat) - (num : Int)).natAbs
        dz ≤ dw ∧ (dz = dw → Fp.mag w ≠ Fp.mag z → Fp.fracField z % 2 = 0)) ∧
    (Fp.isInf z = true ↔ (2 ^ 54 - 1) * 2 ^ 2044 * den ≤ num) ∧ Fp.isNaN z = false ∧ Fp.neg z = s

/-- ROUTE writes the destination's code into the slot it names and keeps the other slots of the value last written;
UNROUTE writes NONE; WRF is WR of the real's pattern; and after any of the lines that write a ROUTE register, the value
last written is that line's (R93). -/
def Obligations.RouteLineSetsOneSlot : Prop :=
  ∀ (n : Nat) (last : LastRoutes) (src : Source) (slot : Nat) (dst : Option Dest), slot < 8 →
    (∃ w : Data,
      (expandLine n last (.route src slot dst)).1 = [.regWrite n (regOffset (routeReg src)) 8 w false] ∧
      oldRoute (expandLine n last (.route src slot dst)).2 src = w ∧
      dataSlot w slot = (tagCode dst).toNat ∧
      (∀ i, i ≠ slot → i < 16 → dataSlot w i = dataSlot (oldRoute last src) i) ∧
      (∀ other, other ≠ src →
        oldRoute (expandLine n last (.route src slot dst)).2 other = oldRoute last other)) ∧
    expandLine n last (.unroute src slot) = expandLine n last (.route src slot none) ∧
    (∀ reg x ov, expandLine n last (.wrf reg x ov) = expandLine n last (.wr reg (.real x) ov)) ∧
    (∀ v ov, oldRoute (expandLine n last (.wr (routeReg src) v ov)).2 src = v.data)
end

