-- ==== Sys2Proof/Laws/State.lean ====
section
/-! SUPPORT. One lemma for each field of the state under each named update, so that no proof unfolds a record
update. -/

namespace Sys2Proof.Machine

variable (s : State) (c : CoreState) (w : Work)

/-! ## State -/

@[simp] theorem State.setCore_cur (c : CoreState) : (s.setCore c).cur = s.cur := rfl
@[simp] theorem State.setCore_core (c : CoreState) : (s.setCore c).core = c := rfl
@[simp] theorem State.setCore_others (c : CoreState) : (s.setCore c).others = s.others := rfl
@[simp] theorem State.setCore_mem (c : CoreState) : (s.setCore c).mem = s.mem := rfl
@[simp] theorem State.setCore_tableBuilt (c : CoreState) : (s.setCore c).tableBuilt = s.tableBuilt := rfl
@[simp] theorem State.setCore_tableLock (c : CoreState) : (s.setCore c).tableLock = s.tableLock := rfl
@[simp] theorem State.setCore_platform (c : CoreState) : (s.setCore c).platform = s.platform := rfl
@[simp] theorem State.setCore_bus (c : CoreState) : (s.setCore c).bus = s.bus := rfl
@[simp] theorem State.setCore_replies (c : CoreState) : (s.setCore c).replies = s.replies := rfl
@[simp] theorem State.setCore_draws (c : CoreState) : (s.setCore c).draws = s.draws := rfl

@[simp] theorem State.setMem_cur (m : List Host.Cell) : (s.setMem m).cur = s.cur := rfl
@[simp] theorem State.setMem_core (m : List Host.Cell) : (s.setMem m).core = s.core := rfl
@[simp] theorem State.setMem_others (m : List Host.Cell) : (s.setMem m).others = s.others := rfl
@[simp] theorem State.setMem_mem (m : List Host.Cell) : (s.setMem m).mem = m := rfl
@[simp] theorem State.setMem_tableBuilt (m : List Host.Cell) : (s.setMem m).tableBuilt = s.tableBuilt := rfl
@[simp] theorem State.setMem_tableLock (m : List Host.Cell) : (s.setMem m).tableLock = s.tableLock := rfl
@[simp] theorem State.setMem_platform (m : List Host.Cell) : (s.setMem m).platform = s.platform := rfl
@[simp] theorem State.setMem_bus (m : List Host.Cell) : (s.setMem m).bus = s.bus := rfl
@[simp] theorem State.setMem_replies (m : List Host.Cell) : (s.setMem m).replies = s.replies := rfl
@[simp] theorem State.setMem_draws (m : List Host.Cell) : (s.setMem m).draws = s.draws := rfl

@[simp] theorem State.setTableLock_cur (l : Option Nat) : (s.setTableLock l).cur = s.cur := rfl
@[simp] theorem State.setTableLock_core (l : Option Nat) : (s.setTableLock l).core = s.core := rfl
@[simp] theorem State.setTableLock_others (l : Option Nat) : (s.setTableLock l).others = s.others := rfl
@[simp] theorem State.setTableLock_mem (l : Option Nat) : (s.setTableLock l).mem = s.mem := rfl
@[simp] theorem State.setTableLock_tableBuilt (l : Option Nat) : (s.setTableLock l).tableBuilt = s.tableBuilt := rfl
@[simp] theorem State.setTableLock_tableLock (l : Option Nat) : (s.setTableLock l).tableLock = l := rfl
@[simp] theorem State.setTableLock_platform (l : Option Nat) : (s.setTableLock l).platform = s.platform := rfl
@[simp] theorem State.setTableLock_bus (l : Option Nat) : (s.setTableLock l).bus = s.bus := rfl
@[simp] theorem State.setTableLock_replies (l : Option Nat) : (s.setTableLock l).replies = s.replies := rfl
@[simp] theorem State.setTableLock_draws (l : Option Nat) : (s.setTableLock l).draws = s.draws := rfl

@[simp] theorem State.setTableBuilt_cur (b : Bool) : (s.setTableBuilt b).cur = s.cur := rfl
@[simp] theorem State.setTableBuilt_core (b : Bool) : (s.setTableBuilt b).core = s.core := rfl
@[simp] theorem State.setTableBuilt_others (b : Bool) : (s.setTableBuilt b).others = s.others := rfl
@[simp] theorem State.setTableBuilt_mem (b : Bool) : (s.setTableBuilt b).mem = s.mem := rfl
@[simp] theorem State.setTableBuilt_tableBuilt (b : Bool) : (s.setTableBuilt b).tableBuilt = b := rfl
@[simp] theorem State.setTableBuilt_tableLock (b : Bool) : (s.setTableBuilt b).tableLock = s.tableLock := rfl
@[simp] theorem State.setTableBuilt_platform (b : Bool) : (s.setTableBuilt b).platform = s.platform := rfl
@[simp] theorem State.setTableBuilt_bus (b : Bool) : (s.setTableBuilt b).bus = s.bus := rfl
@[simp] theorem State.setTableBuilt_replies (b : Bool) : (s.setTableBuilt b).replies = s.replies := rfl
@[simp] theorem State.setTableBuilt_draws (b : Bool) : (s.setTableBuilt b).draws = s.draws := rfl

@[simp] theorem State.setBus_cur (b : List Event) : (s.setBus b).cur = s.cur := rfl
@[simp] theorem State.setBus_core (b : List Event) : (s.setBus b).core = s.core := rfl
@[simp] theorem State.setBus_others (b : List Event) : (s.setBus b).others = s.others := rfl
@[simp] theorem State.setBus_mem (b : List Event) : (s.setBus b).mem = s.mem := rfl
@[simp] theorem State.setBus_tableBuilt (b : List Event) : (s.setBus b).tableBuilt = s.tableBuilt := rfl
@[simp] theorem State.setBus_tableLock (b : List Event) : (s.setBus b).tableLock = s.tableLock := rfl
@[simp] theorem State.setBus_platform (b : List Event) : (s.setBus b).platform = s.platform := rfl
@[simp] theorem State.setBus_bus (b : List Event) : (s.setBus b).bus = b := rfl
@[simp] theorem State.setBus_replies (b : List Event) : (s.setBus b).replies = s.replies := rfl
@[simp] theorem State.setBus_draws (b : List Event) : (s.setBus b).draws = s.draws := rfl

@[simp] theorem State.reply_cur (r : Reply) : (s.reply r).cur = s.cur := rfl
@[simp] theorem State.reply_core (r : Reply) : (s.reply r).core = s.core := rfl
@[simp] theorem State.reply_others (r : Reply) : (s.reply r).others = s.others := rfl
@[simp] theorem State.reply_mem (r : Reply) : (s.reply r).mem = s.mem := rfl
@[simp] theorem State.reply_tableBuilt (r : Reply) : (s.reply r).tableBuilt = s.tableBuilt := rfl
@[simp] theorem State.reply_tableLock (r : Reply) : (s.reply r).tableLock = s.tableLock := rfl
@[simp] theorem State.reply_platform (r : Reply) : (s.reply r).platform = s.platform := rfl
@[simp] theorem State.reply_bus (r : Reply) : (s.reply r).bus = s.bus := rfl
@[simp] theorem State.reply_replies (r : Reply) : (s.reply r).replies = r :: s.replies := rfl
@[simp] theorem State.reply_draws (r : Reply) : (s.reply r).draws = s.draws := rfl

@[simp] theorem State.drew_cur : s.drew.cur = s.cur := rfl
@[simp] theorem State.drew_core : s.drew.core = s.core := rfl
@[simp] theorem State.drew_others : s.drew.others = s.others := rfl
@[simp] theorem State.drew_mem : s.drew.mem = s.mem := rfl
@[simp] theorem State.drew_tableBuilt : s.drew.tableBuilt = s.tableBuilt := rfl
@[simp] theorem State.drew_tableLock : s.drew.tableLock = s.tableLock := rfl
@[simp] theorem State.drew_platform : s.drew.platform = s.platform := rfl
@[simp] theorem State.drew_bus : s.drew.bus = s.bus := rfl
@[simp] theorem State.drew_replies : s.drew.replies = s.replies := rfl
@[simp] theorem State.drew_draws : s.drew.draws = s.draws + 1 := rfl

@[simp] theorem State.begin_cur (F : Format) : (s.begin F).cur = s.cur := rfl
@[simp] theorem State.begin_core (F : Format) : (s.begin F).core = s.core.setInFlight (some F) := rfl
@[simp] theorem State.begin_others (F : Format) : (s.begin F).others = s.others := rfl
@[simp] theorem State.begin_mem (F : Format) : (s.begin F).mem = s.mem := rfl
@[simp] theorem State.begin_tableBuilt (F : Format) : (s.begin F).tableBuilt = s.tableBuilt := rfl
@[simp] theorem State.begin_tableLock (F : Format) : (s.begin F).tableLock = s.tableLock := rfl
@[simp] theorem State.begin_platform (F : Format) : (s.begin F).platform = s.platform := rfl
@[simp] theorem State.begin_bus (F : Format) : (s.begin F).bus = s.bus := rfl
@[simp] theorem State.begin_replies (F : Format) : (s.begin F).replies = s.replies := rfl
@[simp] theorem State.begin_draws (F : Format) : (s.begin F).draws = s.draws := rfl

@[simp] theorem State.complete_cur : (s.complete).cur = s.cur := rfl
@[simp] theorem State.complete_core : (s.complete).core = s.core.setInFlight none := rfl
@[simp] theorem State.complete_others : (s.complete).others = s.others := rfl
@[simp] theorem State.complete_mem : (s.complete).mem = s.mem := rfl
@[simp] theorem State.complete_tableBuilt : (s.complete).tableBuilt = s.tableBuilt := rfl
@[simp] theorem State.complete_tableLock : (s.complete).tableLock = s.tableLock := rfl
@[simp] theorem State.complete_platform : (s.complete).platform = s.platform := rfl
@[simp] theorem State.complete_bus : (s.complete).bus = s.bus := rfl
@[simp] theorem State.complete_replies : (s.complete).replies = s.replies := rfl
@[simp] theorem State.complete_draws : (s.complete).draws = s.draws := rfl

@[simp] theorem State.setSource_cur (src : Source) (b : List F64) : (s.setSource src b).cur = s.cur := rfl
@[simp] theorem State.setSource_core (src : Source) (b : List F64) : (s.setSource src b).core = s.core.setWork (s.core.work.setOf src b) := rfl
@[simp] theorem State.setSource_others (src : Source) (b : List F64) : (s.setSource src b).others = s.others := rfl
@[simp] theorem State.setSource_mem (src : Source) (b : List F64) : (s.setSource src b).mem = s.mem := rfl
@[simp] theorem State.setSource_tableBuilt (src : Source) (b : List F64) : (s.setSource src b).tableBuilt = s.tableBuilt := rfl
@[simp] theorem State.setSource_tableLock (src : Source) (b : List F64) : (s.setSource src b).tableLock = s.tableLock := rfl
@[simp] theorem State.setSource_platform (src : Source) (b : List F64) : (s.setSource src b).platform = s.platform := rfl
@[simp] theorem State.setSource_bus (src : Source) (b : List F64) : (s.setSource src b).bus = s.bus := rfl
@[simp] theorem State.setSource_replies (src : Source) (b : List F64) : (s.setSource src b).replies = s.replies := rfl
@[simp] theorem State.setSource_draws (src : Source) (b : List F64) : (s.setSource src b).draws = s.draws := rfl

@[simp] theorem State.setPitch_cur (b : List F64) : (s.setPitch b).cur = s.cur := rfl
@[simp] theorem State.setPitch_core (b : List F64) : (s.setPitch b).core = s.core.setWork (s.core.work.setPitch b) := rfl
@[simp] theorem State.setPitch_others (b : List F64) : (s.setPitch b).others = s.others := rfl
@[simp] theorem State.setPitch_mem (b : List F64) : (s.setPitch b).mem = s.mem := rfl
@[simp] theorem State.setPitch_tableBuilt (b : List F64) : (s.setPitch b).tableBuilt = s.tableBuilt := rfl
@[simp] theorem State.setPitch_tableLock (b : List F64) : (s.setPitch b).tableLock = s.tableLock := rfl
@[simp] theorem State.setPitch_platform (b : List F64) : (s.setPitch b).platform = s.platform := rfl
@[simp] theorem State.setPitch_bus (b : List F64) : (s.setPitch b).bus = s.bus := rfl
@[simp] theorem State.setPitch_replies (b : List F64) : (s.setPitch b).replies = s.replies := rfl
@[simp] theorem State.setPitch_draws (b : List F64) : (s.setPitch b).draws = s.draws := rfl

/-! ## One instance -/

@[simp] theorem CoreState.setRegs_regs (r : Regs) : (c.setRegs r).regs = r := rfl
@[simp] theorem CoreState.setRegs_work (r : Regs) : (c.setRegs r).work = c.work := rfl
@[simp] theorem CoreState.setRegs_phaseAcc (r : Regs) : (c.setRegs r).phaseAcc = c.phaseAcc := rfl
@[simp] theorem CoreState.setRegs_incr (r : Regs) : (c.setRegs r).incr = c.incr := rfl
@[simp] theorem CoreState.setRegs_inFlight (r : Regs) : (c.setRegs r).inFlight = c.inFlight := rfl

@[simp] theorem CoreState.setWork_regs (w : Work) : (c.setWork w).regs = c.regs := rfl
@[simp] theorem CoreState.setWork_work (w : Work) : (c.setWork w).work = w := rfl
@[simp] theorem CoreState.setWork_phaseAcc (w : Work) : (c.setWork w).phaseAcc = c.phaseAcc := rfl
@[simp] theorem CoreState.setWork_incr (w : Work) : (c.setWork w).incr = c.incr := rfl
@[simp] theorem CoreState.setWork_inFlight (w : Work) : (c.setWork w).inFlight = c.inFlight := rfl

@[simp] theorem CoreState.setPhaseAcc_regs (p : BitVec 64) : (c.setPhaseAcc p).regs = c.regs := rfl
@[simp] theorem CoreState.setPhaseAcc_work (p : BitVec 64) : (c.setPhaseAcc p).work = c.work := rfl
@[simp] theorem CoreState.setPhaseAcc_phaseAcc (p : BitVec 64) : (c.setPhaseAcc p).phaseAcc = p := rfl
@[simp] theorem CoreState.setPhaseAcc_incr (p : BitVec 64) : (c.setPhaseAcc p).incr = c.incr := rfl
@[simp] theorem CoreState.setPhaseAcc_inFlight (p : BitVec 64) : (c.setPhaseAcc p).inFlight = c.inFlight := rfl

@[simp] theorem CoreState.setIncr_regs (p : BitVec 64) : (c.setIncr p).regs = c.regs := rfl
@[simp] theorem CoreState.setIncr_work (p : BitVec 64) : (c.setIncr p).work = c.work := rfl
@[simp] theorem CoreState.setIncr_phaseAcc (p : BitVec 64) : (c.setIncr p).phaseAcc = c.phaseAcc := rfl
@[simp] theorem CoreState.setIncr_incr (p : BitVec 64) : (c.setIncr p).incr = p := rfl
@[simp] theorem CoreState.setIncr_inFlight (p : BitVec 64) : (c.setIncr p).inFlight = c.inFlight := rfl

@[simp] theorem CoreState.setInFlight_regs (f : Option Format) : (c.setInFlight f).regs = c.regs := rfl
@[simp] theorem CoreState.setInFlight_work (f : Option Format) : (c.setInFlight f).work = c.work := rfl
@[simp] theorem CoreState.setInFlight_phaseAcc (f : Option Format) : (c.setInFlight f).phaseAcc = c.phaseAcc := rfl
@[simp] theorem CoreState.setInFlight_incr (f : Option Format) : (c.setInFlight f).incr = c.incr := rfl
@[simp] theorem CoreState.setInFlight_inFlight (f : Option Format) : (c.setInFlight f).inFlight = f := rfl

/-! ## Working buffers -/

@[simp] theorem Work.setOf_of_same (src : Source) (b : List F64) : (w.setOf src b).of src = b := by
  cases src <;> rfl

theorem Work.setOf_of_ne {src src' : Source} (h : src' ≠ src) (b : List F64) :
    (w.setOf src b).of src' = w.of src' := by
  cases src <;> cases src' <;> first | rfl | exact absurd rfl h

@[simp] theorem Work.setOf_pitch (src : Source) (b : List F64) : (w.setOf src b).pitch = w.pitch := by
  cases src <;> rfl

@[simp] theorem Work.setPitch_pitch (b : List F64) : (w.setPitch b).pitch = b := rfl

@[simp] theorem Work.setPitch_of (src : Source) (b : List F64) : (w.setPitch b).of src = w.of src := by
  cases src <;> rfl

/-- Two instances that agree in every field are equal. -/
theorem CoreState.ext_fields {c d : CoreState} (h1 : c.regs = d.regs) (h2 : c.work = d.work)
    (h3 : c.phaseAcc = d.phaseAcc) (h4 : c.incr = d.incr) (h5 : c.inFlight = d.inFlight) : c = d := by
  cases c; cases d; simp_all

/-- Nothing in flight: clearing BUSY changes nothing. -/
theorem State.complete_eq_self (h : s.core.inFlight = none) : s.complete = s := by
  cases s with
  | mk cur core => cases core; simp_all [State.complete, State.setCore, CoreState.setInFlight]

/-- BUSY is whether a COMPUTE is in flight. -/
theorem CoreState.busy_eq_false : c.busy = false ↔ c.inFlight = none := by
  cases h : c.inFlight <;> simp [CoreState.busy, h]

end Sys2Proof.Machine
end

