-- ==== Sys2Proof/Laws/Draws.lean ====
section
/-! SUPPORT. What an operation that draws free values does to the state: it advances `draws` and nothing else. -/

namespace Sys2Proof.Machine

/-- `t` is `s` after some free values have been drawn. -/
structure OnlyDraws (s t : State) : Prop where
  cur : t.cur = s.cur
  core : t.core = s.core
  others : t.others = s.others
  mem : t.mem = s.mem
  tableBuilt : t.tableBuilt = s.tableBuilt
  tableLock : t.tableLock = s.tableLock
  platform : t.platform = s.platform
  bus : t.bus = s.bus
  replies : t.replies = s.replies
  draws : s.draws ≤ t.draws

namespace OnlyDraws

theorem refl (s : State) : OnlyDraws s s := ⟨rfl, rfl, rfl, rfl, rfl, rfl, rfl, rfl, rfl, Nat.le_refl _⟩

theorem trans {s t u : State} (h : OnlyDraws s t) (g : OnlyDraws t u) : OnlyDraws s u :=
  ⟨g.cur.trans h.cur, g.core.trans h.core, g.others.trans h.others, g.mem.trans h.mem,
    g.tableBuilt.trans h.tableBuilt, g.tableLock.trans h.tableLock, g.platform.trans h.platform, g.bus.trans h.bus,
    g.replies.trans h.replies, h.draws.trans g.draws⟩

end OnlyDraws

variable (P : Params)

theorem drew_onlyDraws (s : State) : OnlyDraws s s.drew :=
  ⟨rfl, rfl, rfl, rfl, rfl, rfl, rfl, rfl, rfl, Nat.le_succ _⟩

theorem draw_onlyDraws (s : State) : OnlyDraws s (draw P s).2 := drew_onlyDraws s

theorem settle_onlyDraws (x : F64) (s : State) : OnlyDraws s (settle P x s).2 := by
  unfold settle
  split
  · exact draw_onlyDraws P s
  · exact .refl s

theorem settle32_onlyDraws (x : F32) (s : State) : OnlyDraws s (settle32 P x s).2 := by
  unfold settle32
  split
  · exact draw_onlyDraws P s
  · exact .refl s

theorem sinOf_onlyDraws (x : F64) (s : State) : OnlyDraws s (sinOf P x s).2 := settle_onlyDraws P x s

theorem pow2Of_onlyDraws (x : F64) (s : State) : OnlyDraws s (pow2Of P x s).2 := settle_onlyDraws P x s

theorem convInt_onlyDraws (n : Nat) (x : F64) (s : State) : OnlyDraws s (convInt P n x s).2 := by
  unfold convInt
  split
  · exact .refl s
  · exact draw_onlyDraws P s

theorem wave_onlyDraws (kind : Kind) (f tp sr : F64) (s : State) : OnlyDraws s (wave P kind f tp sr s).2 := by
  cases kind
  · exact sinOf_onlyDraws P _ s
  · exact .refl s
  · exact .refl s
  · exact sinOf_onlyDraws P _ s
  · exact sinOf_onlyDraws P _ s

theorem keyPitch_onlyDraws (x : F64) (s : State) : OnlyDraws s (keyPitch P x s).2 := pow2Of_onlyDraws P _ s

theorem toFixed_onlyDraws (ratio : F64) (s : State) : OnlyDraws s (toFixed P ratio s).2 := by
  unfold toFixed
  split
  · exact .refl s
  · exact draw_onlyDraws P s

theorem frameIncr_onlyDraws (root : F64) (i : Nat) (s : State) : OnlyDraws s (frameIncr P root i s).2 :=
  (keyPitch_onlyDraws P _ s).trans (toFixed_onlyDraws P _ _)

theorem noiseValues_onlyDraws (mode : BitVec 64) (fr g : F64) (sr : BitVec 32) (o : BitVec 64) (n : Nat) (s : State) :
    OnlyDraws s (noiseValues P mode fr g sr o n s).2 := by
  induction n generalizing s with
  | zero => exact .refl s
  | succ n ih => exact (draw_onlyDraws P s).trans (ih _)

/-- A value that is no NaN settles to itself, and nothing is drawn. -/
theorem settle_of_number {x : F64} (h : Fp.isNaN x = false) (s : State) : settle P x s = (x, s) := by
  simp [settle, h]

theorem settle32_of_number {x : F32} (h : Fp.isNaN32 x = false) (s : State) : settle32 P x s = (x, s) := by
  simp [settle32, h]

/-- The conversion of a finite value (R220). -/
theorem convInt_of_finite {x : F64} (h : Fp.isFinite x = true) (n : Nat) (s : State) :
    convInt P n x s = (BitVec.ofInt n (Fp.trunc x), s) := by
  simp [convInt, h]

/-- The noise driver's values are the free values drawn in order (R154). -/
theorem noiseValues_fst (mode : BitVec 64) (fr g : F64) (sr : BitVec 32) (o : BitVec 64) (n : Nat) (s : State) :
    (noiseValues P mode fr g sr o n s).1 = (List.range n).map fun i => P.free (s.draws + i) := by
  induction n generalizing s with
  | zero => rfl
  | succ n ih =>
    simp only [noiseValues, ih, draw, State.drew, List.range_succ_eq_map, List.map_cons, List.map_map]
    congr 1
    apply List.map_congr_left
    intro i _
    simp only [Function.comp]
    congr 1
    omega

theorem noiseValues_draws (mode : BitVec 64) (fr g : F64) (sr : BitVec 32) (o : BitVec 64) (n : Nat) (s : State) :
    (noiseValues P mode fr g sr o n s).2.draws = s.draws + n := by
  induction n generalizing s with
  | zero => rfl
  | succ n ih =>
    simp only [noiseValues, ih, draw, State.drew]
    omega

/-- A settled value is a NaN exactly where the value was. -/
theorem isNaN_nanOf (v : BitVec 64) : Fp.isNaN (Fp.nanOf v) = true := by
  unfold Fp.nanOf
  split
  · assumption
  · have hx : (v ||| 0x7FF8000000000000#64).toNat / 2 ^ 52 % 2 ^ 11 = 2047 := by
      have : (v ||| 0x7FF8000000000000#64).extractLsb' 52 11 = 2047#11 := by
        ext i hi
        simp only [BitVec.getElem_extractLsb', BitVec.getLsbD_or]
        have : i < 11 := hi
        interval_cases i <;> simp [BitVec.getLsbD] <;> exact Or.inr (by decide)
      have := congrArg BitVec.toNat this
      simpa [BitVec.extractLsb'_toNat, Nat.shiftRight_eq_div_pow] using this
    have hf : (v ||| 0x7FF8000000000000#64).toNat % 2 ^ 52 ≠ 0 := by
      have hb : (v ||| 0x7FF8000000000000#64).getLsbD 51 = true := by
        simp [BitVec.getLsbD]
        exact Or.inr (by decide)
      intro h0
      rw [BitVec.getLsbD, Nat.testBit_eq_decide_div_mod_eq] at hb
      simp only [decide_eq_true_eq] at hb
      omega
    exact Bool.and_eq_true_iff.2 ⟨beq_iff_eq.2 hx, bne_iff_ne.2 hf⟩

theorem isNaN_settle (x : F64) (s : State) : Fp.isNaN (settle P x s).1 = Fp.isNaN x := by
  unfold settle
  split
  · rename_i h; rw [isNaN_nanOf, h]
  · rfl

/-- The NaN drawn for a binary32 result is one. -/
theorem isNaN32_nanOf32 (v : BitVec 32) : Fp.isNaN32 (Fp.nanOf32 v) = true := by
  unfold Fp.nanOf32
  split
  · assumption
  · have hx : (v ||| 0x7FC00000#32).toNat / 2 ^ 23 % 2 ^ 8 = 255 := by
      have : (v ||| 0x7FC00000#32).extractLsb' 23 8 = 255#8 := by
        ext i hi
        simp only [BitVec.getElem_extractLsb', BitVec.getLsbD_or]
        have : i < 8 := hi
        interval_cases i <;> simp [BitVec.getLsbD] <;> exact Or.inr (by decide)
      have := congrArg BitVec.toNat this
      simpa [BitVec.extractLsb'_toNat, Nat.shiftRight_eq_div_pow] using this
    have hf : (v ||| 0x7FC00000#32).toNat % 2 ^ 23 ≠ 0 := by
      have hb : (v ||| 0x7FC00000#32).getLsbD 22 = true := by
        simp [BitVec.getLsbD]
        exact Or.inr (by decide)
      intro h0
      rw [BitVec.getLsbD, Nat.testBit_eq_decide_div_mod_eq] at hb
      simp only [decide_eq_true_eq] at hb
      omega
    exact Bool.and_eq_true_iff.2 ⟨beq_iff_eq.2 hx, bne_iff_ne.2 hf⟩

end Sys2Proof.Machine
end

