-- ==== Sys2Proof/Laws/Memory.lean ====
section
/-! SUPPORT. Laws of the sparse maps and of system memory: a read after a write, that a write leaves every other
place alone, and that every operation keeps the canonical form. -/

namespace Sys2Proof.Machine

/-! ## Sparse maps -/

section SparseLaws
variable {α : Type} (d : α)

theorem Sparse.get_insert_same (k : Nat) (v : α) (m : List (Nat × α)) (h : ∀ e ∈ m, e.1 ≠ k) :
    Sparse.get d (Sparse.insert k v m) k = v := by
  induction m with
  | nil => simp [Sparse.insert, Sparse.get]
  | cons e m ih =>
    obtain ⟨a, w⟩ := e
    have ha : a ≠ k := h (a, w) (by simp)
    have hm : ∀ e ∈ m, e.1 ≠ k := fun e he => h e (by simp [he])
    unfold Sparse.insert
    split
    · simp [Sparse.get]
    · simp [Sparse.get, Ne.symm ha, ih hm]

theorem Sparse.get_insert_ne {k k' : Nat} (hk : k' ≠ k) (v : α) (m : List (Nat × α)) :
    Sparse.get d (Sparse.insert k v m) k' = Sparse.get d m k' := by
  induction m with
  | nil => simp [Sparse.insert, Sparse.get, hk]
  | cons e m ih =>
    obtain ⟨a, w⟩ := e
    unfold Sparse.insert
    split
    · simp [Sparse.get, hk]
    · simp only [Sparse.get]; rw [ih]

theorem Sparse.get_filter_ne {k k' : Nat} (hk : k' ≠ k) (m : List (Nat × α)) :
    Sparse.get d (m.filter fun e => e.1 != k) k' = Sparse.get d m k' := by
  induction m with
  | nil => rfl
  | cons e m ih =>
    obtain ⟨a, w⟩ := e
    by_cases ha : a = k
    · subst ha; simp [Sparse.get, hk, ih]
    · simp [ha, Sparse.get, ih]

theorem Sparse.get_unlisted (k : Nat) (m : List (Nat × α)) (h : ∀ e ∈ m, e.1 ≠ k) : Sparse.get d m k = d := by
  induction m with
  | nil => rfl
  | cons e m ih =>
    obtain ⟨a, w⟩ := e
    have ha : a ≠ k := h (a, w) (by simp)
    simp [Sparse.get, Ne.symm ha, ih fun e he => h e (by simp [he])]

/-- What a read finds is listed, or the default. -/
theorem Sparse.get_mem (k : Nat) (m : List (Nat × α)) : Sparse.get d m k = d ∨ (k, Sparse.get d m k) ∈ m := by
  induction m with
  | nil => exact .inl rfl
  | cons e m ih =>
    obtain ⟨a, w⟩ := e
    unfold Sparse.get
    split
    · next h => subst h; exact .inr (by simp)
    · exact ih.imp id fun h => by simp [h]

theorem Sparse.filter_unlists (k : Nat) (m : List (Nat × α)) :
    ∀ e ∈ m.filter (fun e => e.1 != k), e.1 ≠ k := by
  intro e he
  simpa using (List.mem_filter.1 he).2

theorem Sparse.mem_insert {k : Nat} {v : α} {m : List (Nat × α)} {e : Nat × α}
    (h : e ∈ Sparse.insert k v m) : e = (k, v) ∨ e ∈ m := by
  induction m with
  | nil => simpa [Sparse.insert] using h
  | cons x m ih =>
    obtain ⟨a, w⟩ := x
    unfold Sparse.insert at h
    split at h
    · simpa using h
    · rcases List.mem_cons.1 h with h | h
      · simp [h]
      · rcases ih h with h | h <;> simp [h]

theorem Sparse.pairwise_insert (k : Nat) (v : α) (m : List (Nat × α))
    (hm : m.Pairwise fun x y => x.1 < y.1) (h : ∀ e ∈ m, e.1 ≠ k) :
    (Sparse.insert k v m).Pairwise fun x y => x.1 < y.1 := by
  induction m with
  | nil => simp [Sparse.insert]
  | cons e m ih =>
    obtain ⟨a, w⟩ := e
    have ha : a ≠ k := h (a, w) (by simp)
    obtain ⟨h1, h2⟩ := List.pairwise_cons.1 hm
    unfold Sparse.insert
    split
    · next hlt =>
      refine List.pairwise_cons.2 ⟨fun e he => ?_, hm⟩
      rcases List.mem_cons.1 he with he | he
      · simpa [he] using hlt
      · have := h1 e he; simp only at this ⊢; omega
    · next hlt =>
      refine List.pairwise_cons.2 ⟨fun e he => ?_, ih h2 fun e he => h e (by simp [he])⟩
      rcases Sparse.mem_insert he with he | he
      · subst he; simp only; omega
      · exact h1 e he

variable [DecidableEq α]

/-- A read after a write of the same place. -/
@[simp] theorem Sparse.get_set_same (k : Nat) (v : α) (m : List (Nat × α)) :
    Sparse.get d (Sparse.set d k v m) k = v := by
  unfold Sparse.set
  split
  · next h => rw [h, Sparse.get_unlisted d k _ (Sparse.filter_unlists k m)]
  · exact Sparse.get_insert_same d k v _ (Sparse.filter_unlists k m)

/-- A write leaves every other place alone. -/
theorem Sparse.get_set_ne {k k' : Nat} (hk : k' ≠ k) (v : α) (m : List (Nat × α)) :
    Sparse.get d (Sparse.set d k v m) k' = Sparse.get d m k' := by
  unfold Sparse.set
  split
  · exact Sparse.get_filter_ne d hk m
  · rw [Sparse.get_insert_ne d hk, Sparse.get_filter_ne d hk]

/-- Every entry of a map after a write is the one written or was there, under another number. -/
theorem Sparse.mem_set {k : Nat} {v : α} {m : List (Nat × α)} {e : Nat × α}
    (h : e ∈ Sparse.set d k v m) : (e = (k, v) ∧ v ≠ d) ∨ (e ∈ m ∧ e.1 ≠ k) := by
  unfold Sparse.set at h
  split at h
  · exact .inr ⟨(List.mem_filter.1 h).1, Sparse.filter_unlists k m e h⟩
  · next hv =>
    rcases Sparse.mem_insert h with h | h
    · exact .inl ⟨h, hv⟩
    · exact .inr ⟨(List.mem_filter.1 h).1, Sparse.filter_unlists k m e h⟩

/-- A write keeps the canonical form. -/
theorem Sparse.wf_set (k : Nat) (v : α) (m : List (Nat × α)) (h : Sparse.Wf d m) :
    Sparse.Wf d (Sparse.set d k v m) := by
  refine ⟨?_, fun e he => ?_⟩
  · unfold Sparse.set
    split
    · exact h.1.filter _
    · exact Sparse.pairwise_insert k v _ (h.1.filter _) (Sparse.filter_unlists k m)
  · rcases Sparse.mem_set d he with ⟨rfl, hv⟩ | ⟨he, _⟩
    · exact hv
    · exact h.2 e he

theorem Sparse.get_cons_pairwise {e : Nat × α} {m : List (Nat × α)} (h : Sparse.Wf d (e :: m)) :
    ∀ x ∈ m, e.1 < x.1 := (List.pairwise_cons.1 h.1).1

/-- Canonical maps that read the same everywhere are equal. -/
theorem Sparse.ext {m m' : List (Nat × α)} (h : Sparse.Wf d m) (h' : Sparse.Wf d m')
    (heq : ∀ k, Sparse.get d m k = Sparse.get d m' k) : m = m' := by
  induction m generalizing m' with
  | nil =>
    cases m' with
    | nil => rfl
    | cons e m' =>
      have := heq e.1
      simp only [Sparse.get, if_true] at this
      exact absurd this.symm (h'.2 e (by simp))
  | cons e m ih =>
    cases m' with
    | nil =>
      have := heq e.1
      simp only [Sparse.get, if_true] at this
      exact absurd this (h.2 e (by simp))
    | cons e' m' =>
      have h1 := Sparse.get_cons_pairwise d h
      have h1' := Sparse.get_cons_pairwise d h'
      have hkey : e.1 = e'.1 := by
        by_contra hne
        rcases Nat.lt_or_gt_of_ne hne with hlt | hlt
        · have hx := heq e.1
          rw [Sparse.get_unlisted d e.1 (e' :: m')] at hx
          · simp only [Sparse.get, if_true] at hx
            exact h.2 e (by simp) hx
          · intro x hx'
            rcases List.mem_cons.1 hx' with rfl | hx'
            · omega
            · have := h1' x hx'; omega
        · have hx := heq e'.1
          rw [Sparse.get_unlisted d e'.1 (e :: m)] at hx
          · simp only [Sparse.get, if_true] at hx
            exact h'.2 e' (by simp) hx.symm
          · intro x hx'
            rcases List.mem_cons.1 hx' with rfl | hx'
            · omega
            · have := h1 x hx'; omega
      have hval : e.2 = e'.2 := by
        have := heq e.1
        simpa [Sparse.get, hkey] using this
      have htail : m = m' := by
        refine ih ⟨(List.pairwise_cons.1 h.1).2, fun x hx => h.2 x (by simp [hx])⟩
          ⟨(List.pairwise_cons.1 h'.1).2, fun x hx => h'.2 x (by simp [hx])⟩ fun k => ?_
        by_cases hk : k = e.1
        · rw [Sparse.get_unlisted d k m, Sparse.get_unlisted d k m']
          · intro x hx; have := h1' x hx; omega
          · intro x hx; have := h1 x hx; omega
        · have hk' : k ≠ e'.1 := hkey ▸ hk
          have := heq k
          simpa [Sparse.get, hk, hk'] using this
      obtain ⟨a, b⟩ := e; obtain ⟨a', b'⟩ := e'
      simp only at hkey hval
      simp [hkey, hval, htail]

/-- Writing what is there changes nothing. -/
theorem Sparse.set_get_self (k : Nat) (m : List (Nat × α)) (h : Sparse.Wf d m) :
    Sparse.set d k (Sparse.get d m k) m = m := by
  refine Sparse.ext d (Sparse.wf_set d k _ m h) h fun k' => ?_
  by_cases hk : k' = k
  · subst hk; simp
  · exact Sparse.get_set_ne d hk _ m

end SparseLaws

/-! ## Bytes -/

@[simp] theorem readByte_writeByte_same (a : Addr) (b : Byte) (m : List Host.Cell) :
    readByte (writeByte a b m) a = b := by simp [readByte, writeByte]

theorem readByte_writeByte_ne {a a' : Addr} (h : a' ≠ a) (b : Byte) (m : List Host.Cell) :
    readByte (writeByte a b m) a' = readByte m a' := by
  unfold readByte writeByte
  exact Sparse.get_set_ne _ (fun he => h (BitVec.eq_of_toNat_eq he)) _ _

theorem writeByte_wf (a : Addr) (b : Byte) {m : List Host.Cell} (h : Memory.wf m) : Memory.wf (writeByte a b m) := by
  refine ⟨Sparse.wf_set _ _ _ _ h.1, fun e he => ?_⟩
  rcases Sparse.mem_set _ he with ⟨rfl, _⟩ | ⟨he, _⟩
  · exact a.isLt
  · exact h.2 e he

theorem writeByte_readByte_self (a : Addr) {m : List Host.Cell} (h : Memory.wf m) :
    writeByte a (readByte m a) m = m := Sparse.set_get_self _ _ _ h.1

theorem get_unlisted_of_big {m : List Host.Cell} (h : Memory.wf m) {k : Nat} (hk : 2 ^ 64 ≤ k) :
    Sparse.get unlistedByte m k = unlistedByte :=
  Sparse.get_unlisted _ k m fun e he => by have := h.2 e he; omega

/-- Canonical memories that read the same are equal. -/
theorem memory_ext {m m' : List Host.Cell} (h : Memory.wf m) (h' : Memory.wf m')
    (heq : ∀ a : Addr, readByte m a = readByte m' a) : m = m' := by
  refine Sparse.ext unlistedByte h.1 h'.1 fun k => ?_
  by_cases hk : k < 2 ^ 64
  · have := heq (BitVec.ofNat 64 k)
    simp only [readByte, BitVec.toNat_ofNat] at this
    rwa [Nat.mod_eq_of_lt hk] at this
  · rw [get_unlisted_of_big h (by omega), get_unlisted_of_big h' (by omega)]

/-! ## Runs of bytes -/

theorem inRun_zero (base a : Addr) : inRun base 0 a = false := by simp [inRun]

/-- A run of `n + 1` bytes is its first byte and the run of `n` bytes after it. -/
theorem inRun_succ (base a : Addr) (n : Nat) :
    inRun base (n + 1) a = (decide (a = base) || inRun (base + 1) n a) := by
  unfold inRun
  by_cases h : a = base
  · subst h; simp
  · have h0 : (a - base).toNat ≠ 0 := by
      intro hz
      have : a - base = 0 := BitVec.eq_of_toNat_eq (by simpa using hz)
      exact h (by
        have := congrArg (· + base) this
        simpa using this)
    have h1 : (a - (base + 1)).toNat = (a - base).toNat - 1 := by bv_omega
    rw [h1]
    simp only [h, decide_false, Bool.false_or, decide_eq_decide]
    omega

theorem inRun_iff_exists (base a : Addr) (n : Nat) (hn : n ≤ 2 ^ 64) :
    inRun base n a = true ↔ ∃ j < n, a = base + BitVec.ofNat 64 j := by
  unfold inRun
  constructor
  · intro h
    refine ⟨(a - base).toNat, by simpa only [decide_eq_true_eq] using h, ?_⟩
    rw [BitVec.ofNat_toNat, BitVec.setWidth_eq, BitVec.add_comm, BitVec.sub_add_cancel]
  · rintro ⟨j, hj, rfl⟩
    have : (base + BitVec.ofNat 64 j - base).toNat = j := by
      bv_omega
    rw [this]
    exact decide_eq_true hj

theorem readByte_writeLE_outside (n : Nat) (hn : n ≤ 2 ^ 64) (a b : Addr) (v : Nat) (m : List Host.Cell)
    (h : inRun a n b = false) : readByte (writeLE a n v m) b = readByte m b := by
  induction n generalizing a v m with
  | zero => rfl
  | succ n ih =>
    rw [inRun_succ] at h
    simp only [Bool.or_eq_false_iff, decide_eq_false_iff_not] at h
    unfold writeLE
    rw [ih (by omega) _ _ _ h.2, readByte_writeByte_ne h.1]

theorem writeLE_wf (n : Nat) (a : Addr) (v : Nat) {m : List Host.Cell} (h : Memory.wf m) :
    Memory.wf (writeLE a n v m) := by
  induction n generalizing a v m with
  | zero => exact h
  | succ n ih => exact ih _ _ (writeByte_wf _ _ h)

/-- `MemRead` depends on the bytes of its run alone. -/
theorem readLE_congr (n : Nat) (a : Addr) {m m' : List Host.Cell}
    (h : ∀ j < n, readByte m (a + BitVec.ofNat 64 j) = readByte m' (a + BitVec.ofNat 64 j)) :
    readLE m a n = readLE m' a n := by
  induction n generalizing a with
  | zero => rfl
  | succ n ih =>
    unfold readLE
    have h0 := h 0 (by omega)
    simp only [BitVec.add_zero] at h0
    rw [h0, ih (a + 1)]
    intro j hj
    have := h (j + 1) (by omega)
    have he : a + 1 + BitVec.ofNat 64 j = a + BitVec.ofNat 64 (j + 1) := by
      bv_omega
    rw [he]; exact this

theorem readLE_lt (n : Nat) (a : Addr) (m : List Host.Cell) : readLE m a n < 256 ^ n := by
  induction n generalizing a with
  | zero => simp [readLE]
  | succ n ih =>
    have h1 := (readByte m a).isLt
    have h2 := ih (a + 1)
    unfold readLE
    rw [Nat.pow_succ]
    omega

/-- A little-endian read after a little-endian write of the same run. -/
theorem readLE_writeLE_same (n : Nat) (hn : n ≤ 2 ^ 64) (a : Addr) (v : Nat) (m : List Host.Cell) :
    readLE (writeLE a n v m) a n = v % 256 ^ n := by
  induction n generalizing a v m with
  | zero => simp [readLE, Nat.mod_one]
  | succ n ih =>
    unfold readLE writeLE
    have hout : inRun (a + 1) n a = false := by
      unfold inRun
      have : (a - (a + 1)).toNat = 2 ^ 64 - 1 := by
        bv_omega
      rw [this]
      simp only [decide_eq_false_iff_not]
      omega
    rw [readByte_writeLE_outside n (by omega) _ _ _ _ hout, readByte_writeByte_same, ih (by omega)]
    rw [Nat.pow_succ, Nat.mul_comm (256 ^ n) 256, Nat.mod_mul]
    simp

/-- Writing back what a little-endian read gave changes nothing. -/
theorem writeLE_readLE_self (n : Nat) (hn : n ≤ 2 ^ 64) (a : Addr) {m : List Host.Cell} (h : Memory.wf m) :
    writeLE a n (readLE m a n) m = m := by
  induction n generalizing a with
  | zero => rfl
  | succ n ih =>
    unfold writeLE readLE
    have hb : BitVec.ofNat 8 ((readByte m a).toNat + 256 * readLE m (a + 1) n) = readByte m a := by
      apply BitVec.eq_of_toNat_eq
      have := (readByte m a).isLt
      simp only [BitVec.toNat_ofNat]
      omega
    have hd : ((readByte m a).toNat + 256 * readLE m (a + 1) n) / 256 = readLE m (a + 1) n := by
      have := (readByte m a).isLt
      omega
    rw [hb, hd, writeByte_readByte_self a h, ih (by omega) (a + 1)]

/-- Storing bytes keeps the canonical form. -/
theorem writeBytes_wf (skip : Addr → Bool) (bs : List Byte) (a : Addr) {m : List Host.Cell} (h : Memory.wf m) :
    Memory.wf (writeBytes skip a bs m) := by
  induction bs generalizing a m with
  | nil => exact h
  | cons b bs ih =>
    unfold writeBytes
    split
    · exact ih (a + 1) h
    · exact ih (a + 1) (writeByte_wf a b h)

/-- A byte that is skipped, or outside the run, is kept. -/
theorem readByte_writeBytes_outside (skip : Addr → Bool) (bs : List Byte) (hn : bs.length ≤ 2 ^ 64) (a b : Addr)
    (m : List Host.Cell) (h : skip b = true ∨ inRun a bs.length b = false) :
    readByte (writeBytes skip a bs m) b = readByte m b := by
  induction bs generalizing a m with
  | nil => rfl
  | cons v bs ih =>
    have hne : skip a = true ∨ b ≠ a := by
      rcases h with h | h
      · by_cases e : b = a
        · exact .inl (e ▸ h)
        · exact .inr e
      · rw [List.length_cons, inRun_succ, Bool.or_eq_false_iff] at h
        exact .inr (by simpa using h.1)
    have hrest : skip b = true ∨ inRun (a + 1) bs.length b = false := by
      rcases h with h | h
      · exact .inl h
      · rw [List.length_cons, inRun_succ, Bool.or_eq_false_iff] at h
        exact .inr h.2
    unfold writeBytes
    rw [ih (by rw [List.length_cons] at hn; omega) (a + 1) _ hrest]
    split
    · rfl
    · next hs =>
      rcases hne with hs' | hb
      · exact absurd hs' hs
      · exact readByte_writeByte_ne hb _ _

/-- A stored byte that is not skipped reads back. -/
theorem readByte_writeBytes_inside (skip : Addr → Bool) (bs : List Byte) (hn : bs.length ≤ 2 ^ 64) (a : Addr)
    (m : List Host.Cell) (j : Nat) (hj : j < bs.length) (hs : skip (a + BitVec.ofNat 64 j) = false) :
    some (readByte (writeBytes skip a bs m) (a + BitVec.ofNat 64 j)) = bs[j]? := by
  induction bs generalizing a m j with
  | nil => exact absurd hj (by simp)
  | cons v bs ih =>
    rw [List.length_cons] at hj hn
    unfold writeBytes
    cases j with
    | zero =>
      have ha : a + BitVec.ofNat 64 0 = a := by simp
      have hout : inRun (a + 1) bs.length a = false := by
        have := inRun_iff_exists (a + 1) a bs.length (by omega)
        by_contra hc
        obtain ⟨i, hi, e⟩ := this.1 (by simpa using hc)
        have e' : (1 : BitVec 64) + BitVec.ofNat 64 i = 0 := by
          have : a + 0 = a + (1 + BitVec.ofNat 64 i) := by rw [← BitVec.add_assoc]; simpa using e
          exact (BitVec.add_right_inj _).1 this.symm
        have := congrArg BitVec.toNat e'
        simp at this
        omega
      rw [ha] at hs ⊢
      rw [readByte_writeBytes_outside skip bs (by omega) (a + 1) a _ (.inr hout), hs]
      simp
    | succ j =>
      have ha : a + BitVec.ofNat 64 (j + 1) = (a + 1) + BitVec.ofNat 64 j := by
        rw [BitVec.add_assoc]; congr 1
        apply BitVec.eq_of_toNat_eq; simp [Nat.add_comm]
      rw [ha] at hs ⊢
      rw [ih (by omega) (a + 1) _ j (by omega) hs]
      simp

/-- The bytes of a value stand for it, cut to their number. -/
theorem valueLE_bytesLE (n v : Nat) : valueLE (bytesLE n v) = v % 256 ^ n := by
  induction n generalizing v with
  | zero => simp [bytesLE, valueLE, Nat.mod_one]
  | succ n ih =>
    simp only [bytesLE, valueLE, ih, BitVec.toNat_ofNat]
    exact ((congrArg (v % ·) (Nat.pow_succ' (m := 256) (n := n))).trans Nat.mod_mul).symm

@[simp] theorem bytesLE_length (n v : Nat) : (bytesLE n v).length = n := by
  induction n generalizing v with
  | zero => rfl
  | succ n ih => simp [bytesLE, ih]

/-- The bytes of a value, written out. -/
theorem bytesLE_eq_map (n v : Nat) : bytesLE n v = (List.range n).map fun j => BitVec.ofNat 8 (v / 256 ^ j) := by
  induction n generalizing v with
  | zero => rfl
  | succ n ih =>
    rw [List.range_succ_eq_map, List.map_cons, List.map_map]
    simp only [bytesLE, ih, Nat.pow_zero, Nat.div_one]
    congr 1
    refine List.map_congr_left fun j _ => ?_
    simp only [Function.comp, Nat.pow_succ', Nat.div_div_eq_div_mul]

end Sys2Proof.Machine
end

