-- ==== Sys2Proof/Laws/Frames.lean ====
section
/-! SUPPORT. What a stage of a COMPUTE can do: one relation, `Frame`, that every stage meets, so that no later proof
unfolds a stage to learn what it leaves alone. -/

namespace Sys2Proof.Machine

/-- Everything a stage of format `F` can change from `s` to `t`: working buffers (no longer than they were or than the
call window), PHASE_ACC, INCR, the bytes its accesses touch, TABLE_LOCK to free, and how many values are drawn. -/
structure Frame (F : Format) (s t : State) : Prop where
  cur : t.cur = s.cur
  regs : t.core.regs = s.core.regs
  inFlight : t.core.inFlight = s.core.inFlight
  others : t.others = s.others
  tableBuilt : t.tableBuilt = s.tableBuilt
  platform : t.platform = s.platform
  bus : t.bus = s.bus
  replies : t.replies = s.replies
  lock : t.tableLock = s.tableLock ∨ t.tableLock = none
  draws : s.draws ≤ t.draws
  bytes : ∀ a, accessHas F s.core a = false → readByte t.mem a = readByte s.mem a
  wf : Memory.wf s.mem → Memory.wf t.mem
  work : ∀ src, (t.core.work.of src).length ≤ max (s.core.work.of src).length s.core.frames
  pitch : t.core.work.pitch.length ≤ max s.core.work.pitch.length s.core.frames

/-- The call window depends on the registers alone. -/
theorem frames_congr {c d : CoreState} (h : d.regs = c.regs) : d.frames = c.frames := by
  unfold CoreState.frames; rw [h]

theorem elementAddr_congr (F : Format) {c d : CoreState} (h : d.regs = c.regs) (i : Nat) :
    elementAddr F d i = elementAddr F c i := by
  unfold elementAddr; rw [h]

theorem accessHas_congr (F : Format) {c d : CoreState} (h : d.regs = c.regs) (a : Addr) :
    accessHas F d a = accessHas F c a := by
  unfold accessHas
  rw [frames_congr h]
  simp only [elementAddr_congr F h]

theorem elementHas_congr (F : Format) {c d : CoreState} (h : d.regs = c.regs) (a : Addr) :
    elementHas F d a = elementHas F c a := by
  unfold elementHas
  rw [frames_congr h]
  simp only [elementAddr_congr F h]

namespace Frame

variable {F : Format}

theorem refl (s : State) : Frame F s s :=
  ⟨rfl, rfl, rfl, rfl, rfl, rfl, rfl, rfl, .inl rfl, Nat.le_refl _, fun _ _ => rfl, id,
    fun _ => Nat.le_max_left _ _, Nat.le_max_left _ _⟩

theorem trans {s t u : State} (h : Frame F s t) (g : Frame F t u) : Frame F s u where
  cur := g.cur.trans h.cur
  regs := g.regs.trans h.regs
  inFlight := g.inFlight.trans h.inFlight
  others := g.others.trans h.others
  tableBuilt := g.tableBuilt.trans h.tableBuilt
  platform := g.platform.trans h.platform
  bus := g.bus.trans h.bus
  replies := g.replies.trans h.replies
  lock := by
    rcases g.lock with e | e
    · rw [e]; exact h.lock
    · exact .inr e
  draws := h.draws.trans g.draws
  bytes a ha := (g.bytes a (by rw [accessHas_congr F h.regs]; exact ha)).trans (h.bytes a ha)
  wf := g.wf ∘ h.wf
  work src := by
    have h1 := h.work src
    have h2 := g.work src
    rw [frames_congr h.regs] at h2
    omega
  pitch := by
    have h1 := h.pitch
    have h2 := g.pitch
    rw [frames_congr h.regs] at h2
    omega

theorem of_onlyDraws {s t : State} (h : OnlyDraws s t) : Frame F s t where
  cur := h.cur
  regs := by rw [h.core]
  inFlight := by rw [h.core]
  others := h.others
  tableBuilt := h.tableBuilt
  platform := h.platform
  bus := h.bus
  replies := h.replies
  lock := .inl h.tableLock
  draws := h.draws
  bytes a _ := by rw [h.mem]
  wf := by rw [h.mem]; exact id
  work src := by rw [h.core]; exact Nat.le_max_left _ _
  pitch := by rw [h.core]; exact Nat.le_max_left _ _

/-- Stages over the frames, one by one, keep the relation. -/
theorem foldl {f : State → Nat → State} {s : State} (l : List Nat)
    (hf : ∀ i ∈ l, ∀ u, Frame F s u → Frame F u (f u i)) : Frame F s (l.foldl f s) := by
  suffices H : ∀ u, Frame F s u → Frame F s (l.foldl f u) from H s (refl s)
  induction l with
  | nil => exact fun _ h => h
  | cons i l ih =>
    intro u hu
    exact ih (fun j hj => hf j (by simp [hj])) _ (hu.trans (hf i (by simp) u hu))

end Frame

/-! ## Working buffers -/

theorem fillEntries_length (new old : List F64) : (fillEntries new old).length = max old.length new.length := by
  simp only [fillEntries, List.length_append, List.length_drop]
  omega

theorem setSource_frame (F : Format) (src : Source) (b : List F64) (s : State)
    (hb : b.length ≤ max (s.core.work.of src).length s.core.frames) : Frame F s (s.setSource src b) where
  cur := rfl
  regs := rfl
  inFlight := rfl
  others := rfl
  tableBuilt := rfl
  platform := rfl
  bus := rfl
  replies := rfl
  lock := .inl rfl
  draws := Nat.le_refl _
  bytes _ _ := rfl
  wf := id
  work src' := by
    simp only [State.setSource, State.setCore_core, CoreState.setWork_work]
    by_cases h : src' = src
    · subst h; simpa using hb
    · rw [Work.setOf_of_ne _ h]; exact Nat.le_max_left _ _
  pitch := by simp [State.setSource]

theorem setPitch_frame (F : Format) (b : List F64) (s : State)
    (hb : b.length ≤ max s.core.work.pitch.length s.core.frames) : Frame F s (s.setPitch b) where
  cur := rfl
  regs := rfl
  inFlight := rfl
  others := rfl
  tableBuilt := rfl
  platform := rfl
  bus := rfl
  replies := rfl
  lock := .inl rfl
  draws := Nat.le_refl _
  bytes _ _ := rfl
  wf := id
  work src := by simp [State.setPitch]
  pitch := by simpa [State.setPitch] using hb

theorem setIncr_frame (F : Format) (p : BitVec 64) (s : State) : Frame F s (s.setCore (s.core.setIncr p)) := by
  refine ⟨rfl, rfl, rfl, rfl, rfl, rfl, rfl, rfl, .inl rfl, Nat.le_refl _, fun _ _ => rfl, id, fun _ => ?_, ?_⟩ <;>
    exact Nat.le_max_left _ _

theorem setPhaseAcc_frame (F : Format) (p : BitVec 64) (s : State) :
    Frame F s (s.setCore (s.core.setPhaseAcc p)) := by
  refine ⟨rfl, rfl, rfl, rfl, rfl, rfl, rfl, rfl, .inl rfl, Nat.le_refl _, fun _ _ => rfl, id, fun _ => ?_, ?_⟩ <;>
    exact Nat.le_max_left _ _

theorem tableRead_frame (F : Format) (P : Params) (r : BitVec 8) (s : State) : Frame F s (tableRead P r s).2 := by
  refine ⟨rfl, rfl, rfl, rfl, rfl, rfl, rfl, rfl, .inr rfl, Nat.le_refl _, fun _ _ => rfl, id, fun _ => ?_, ?_⟩ <;>
    exact Nat.le_max_left _ _

theorem begin_complete_regs (F : Format) (s : State) : (s.begin F).core.regs = s.core.regs := rfl

/-! ## The five drivers -/

variable (P : Params) (F : Format)

/-- Every pass of the envelope's loop covers at least one frame, and none past the buffer (R135). -/
theorem subRange_le (e : EnvId) (r : Regs) (c : Nat) : subRange P e r c ≤ r.bufferLength.toNat - c :=
  Nat.min_le_left _ _

theorem applyEnvKernel_length (w : List F64) (c n : Nat) (v0 slope : F64) (h : c + n ≤ w.length) :
    (applyEnvKernel P w c n v0 slope).length = w.length := by
  simp only [applyEnvKernel, List.length_append, List.length_take, List.length_map, List.length_range,
    List.length_drop]
  omega

theorem envPass_frame (e : EnvId) (c : Nat) (s : State) (h : s.core.frames ≤ (s.core.work.of e.source).length) :
    Frame F s (envPass P e c s) ∧
      ((envPass P e c s).core.work.of e.source).length = (s.core.work.of e.source).length := by
  unfold envPass
  extract_lets r len t q v0 slope
  have hd : OnlyDraws s slope.2 := (settle_onlyDraws P _ s).trans (settle_onlyDraws P _ _)
  have hr : r = s.core.regs := rfl
  have hl : (applyEnvKernel P (slope.2.core.work.of e.source) c (subRange P e r c) v0.1 slope.1).length =
      (s.core.work.of e.source).length := by
    have hsub := subRange_le P e r c
    rw [hd.core]
    by_cases hc : c + subRange P e r c ≤ (s.core.work.of e.source).length
    · exact applyEnvKernel_length P _ c _ _ _ hc
    · have : r.bufferLength.toNat = s.core.frames := rfl
      have h0 : subRange P e r c = 0 := by omega
      rw [h0]
      simp only [applyEnvKernel, List.range_zero, List.map_nil, List.append_nil, Nat.add_zero,
        List.take_append_drop]
  refine ⟨(Frame.of_onlyDraws hd).trans (setSource_frame F _ _ _ ?_), ?_⟩
  · rw [hl, hd.core]; exact Nat.le_max_left _ _
  · simpa [State.setSource] using hl

theorem envLoop_frame (e : EnvId) (fuel c : Nat) (s : State)
    (h : s.core.frames ≤ (s.core.work.of e.source).length) : Frame F s (envLoop P e fuel c s) := by
  induction fuel generalizing c s with
  | zero => exact .refl s
  | succ fuel ih =>
    unfold envLoop
    split
    · obtain ⟨h1, h2⟩ := envPass_frame P F e c s h
      refine h1.trans (ih _ _ ?_)
      rw [frames_congr h1.regs, h2]
      exact h
    · exact .refl s

theorem envDrive_frame (e : EnvId) (s : State) : Frame F s (envDrive P e s) := by
  unfold envDrive
  split
  · have hs : Frame F s (s.setSource e.source
        (fillEntries (List.replicate s.core.frames Fp.one) (s.core.work.of e.source))) :=
      setSource_frame F _ _ _ (by rw [fillEntries_length, List.length_replicate])
    refine hs.trans (envLoop_frame P F e _ 0 _ ?_)
    simp only [State.setSource, State.setCore_core, CoreState.setWork_work, Work.setOf_of_same, fillEntries_length,
      List.length_replicate]
    exact Nat.le_max_right _ _
  · exact .refl s

theorem lfoValues_length (l : LfoId) (r : Regs) : (lfoValues P l r).length = r.bufferLength.toNat := by
  simp [lfoValues]

theorem lfoDrive_frame (l : LfoId) (s : State) : Frame F s (lfoDrive P l s) := by
  unfold lfoDrive
  split
  · exact setSource_frame F _ _ _ (by rw [fillEntries_length, lfoValues_length]; exact Nat.le_refl _)
  · exact .refl s

theorem noiseDrive_frame (s : State) : Frame F s (noiseDrive P s) := by
  unfold noiseDrive
  split
  · extract_lets r v
    have hd : OnlyDraws s v.2 := noiseValues_onlyDraws P _ _ _ _ _ _ s
    have hv : v.1.length = s.core.frames := by
      show (noiseValues P _ _ _ _ _ _ s).1.length = _
      rw [noiseValues_fst]; simp
    exact (Frame.of_onlyDraws hd).trans (setSource_frame F _ _ _ (by
      rw [fillEntries_length, hv, hd.core]))
  · exact .refl s

/-! ## The sample primitives -/

theorem accessHas_false {c : CoreState} {a : Addr} (h : accessHas F c a = false) {i : Nat} (hi : i < c.frames) :
    inRun (elementAddr F c i) F.accessBytes a = false := by
  unfold accessHas at h
  rw [List.any_eq_false] at h
  simpa using h i (List.mem_range.2 hi)

/-- A store of at most the access width at a frame of the window. -/
theorem storeBits_frame {n : Nat} (hn : n / 8 = F.accessBytes) (i : Nat) (v : BitVec n) (s : State)
    (hi : i < s.core.frames) : Frame F s (storeBits F i v s) where
  cur := rfl
  regs := rfl
  inFlight := rfl
  others := rfl
  tableBuilt := rfl
  platform := rfl
  bus := rfl
  replies := rfl
  lock := .inl rfl
  draws := Nat.le_refl _
  bytes a ha := by
    have hb : F.accessBytes ≤ 2 ^ 64 := by cases F <;> decide
    exact readByte_writeLE_outside _ (by omega) _ _ _ _ (by rw [hn]; exact accessHas_false F ha hi)
  wf h := writeLE_wf _ _ _ h
  work _ := Nat.le_max_left _ _
  pitch := Nat.le_max_left _ _

theorem storeInt_frame {n : Nat} (hn : n / 8 = F.accessBytes) (i : Nat) (v : F64) (s : State)
    (hi : i < s.core.frames) : Frame F s (storeInt P n F i v s) := by
  have hd := convInt_onlyDraws P n v s
  exact (Frame.of_onlyDraws hd).trans (storeBits_frame F hn i _ _ (by rw [hd.core]; exact hi))

theorem accumulateInt_frame {n : Nat} (hn : n / 8 = F.accessBytes) (i : Nat) (v : F64) (s : State)
    (hi : i < s.core.frames) : Frame F s (accumulateInt P n F i v s) := by
  have hd := convInt_onlyDraws P n v s
  exact (Frame.of_onlyDraws hd).trans (storeBits_frame F hn i _ _ (by rw [hd.core]; exact hi))

theorem accumulateReal_frame (hn : 8 = F.accessBytes) (i : Nat) (v : F64) (s : State)
    (hi : i < s.core.frames) : Frame F s (accumulateReal P F i v s) := by
  have hd := settle_onlyDraws P (Fp.add (loadBits 64 F i s) v) s
  exact (Frame.of_onlyDraws hd).trans (storeBits_frame F hn i _ _ (by rw [hd.core]; exact hi))

theorem storeFromDouble_frame (i : Nat) (v : F64) (s : State) (hi : i < s.core.frames) :
    Frame F s (storeFromDouble P F i v s) := by
  cases F
  · exact storeInt_frame P _ rfl i v s hi
  · exact storeInt_frame P _ rfl i v s hi
  · exact storeInt_frame P _ rfl i v s hi
  · exact storeInt_frame P _ rfl i v s hi
  · exact storeInt_frame P _ rfl i v s hi
  · have hd := settle32_onlyDraws P (Fp.toF32 v) s
    exact (Frame.of_onlyDraws hd).trans (storeBits_frame _ rfl i _ _ (by rw [hd.core]; exact hi))
  · exact storeBits_frame _ rfl i v s hi
  · exact storeBits_frame _ rfl i v s hi

theorem accumulate_frame (i : Nat) (v : F64) (s : State) (hi : i < s.core.frames) :
    Frame F s (accumulate P F i v s) := by
  cases F
  · exact accumulateInt_frame P _ rfl i v s hi
  · exact accumulateInt_frame P _ rfl i v s hi
  · exact accumulateInt_frame P _ rfl i v s hi
  · exact accumulateInt_frame P _ rfl i v s hi
  · exact accumulateInt_frame P _ rfl i v s hi
  · have hd := settle32_onlyDraws P (Fp.add32 (loadBits 32 .float i s) (Fp.toF32 v)) s
    exact (Frame.of_onlyDraws hd).trans (storeBits_frame _ rfl i _ _ (by rw [hd.core]; exact hi))
  · exact accumulateReal_frame P _ rfl i v s hi
  · exact accumulateReal_frame P _ rfl i v s hi

/-! ## The stages over sample memory -/

theorem oscFrame_frame (k : OscId) (i : Nat) (s : State) (hi : i < s.core.frames) :
    Frame F s (oscFrame P k F s i) := by
  unfold oscFrame
  extract_lets sr b f w
  have hd : OnlyDraws s w.2 := wave_onlyDraws P _ _ _ _ s
  exact (Frame.of_onlyDraws hd).trans (accumulate_frame P F i _ _ (by rw [hd.core]; exact hi))

theorem oscRender_frame (k : OscId) (s : State) : Frame F s (oscRender P k F s) :=
  Frame.foldl _ fun i hi u hu =>
    oscFrame_frame P F k i u (by rw [frames_congr hu.regs]; exact List.mem_range.1 hi)

theorem putEntry_length (b : List F64) (i : Nat) (v : F64) : (putEntry b i v).length ≤ max b.length (i + 1) := by
  simp only [putEntry, List.length_append, List.length_take, List.length_cons, List.length_drop]
  omega

theorem pitchFrame_frame (root : F64) (X : List F64) (i : Nat) (s : State) (hi : i < s.core.frames) :
    Frame F s (pitchFrame P root X s i) := by
  unfold pitchFrame
  extract_lets inc s1 p row v s2
  have hd : OnlyDraws s inc.2 := frameIncr_onlyDraws P root i s
  have h1 : Frame F s s1 := (Frame.of_onlyDraws hd).trans (setIncr_frame F _ _)
  have h2 : Frame F s row.2 := h1.trans (tableRead_frame F P _ _)
  have h3 : Frame F s v.2 := h2.trans (Frame.of_onlyDraws (settle_onlyDraws P _ _))
  have h4 : Frame F s s2 := h3.trans (setPitch_frame F _ _ (by
    refine (putEntry_length _ _ _).trans ?_
    rw [frames_congr h3.regs]
    omega))
  exact h4.trans (setPhaseAcc_frame F _ _)

theorem copyBack_frame (i : Nat) (s : State) (hi : i < s.core.frames) : Frame F s (copyBack P F s i) :=
  storeFromDouble_frame P F i _ s hi

theorem pitchStage_frame (s : State) : Frame F s (pitchStage P F s) := by
  unfold pitchStage
  split
  · exact .refl s
  · extract_lets X root start done
    have h1 : Frame F s start := (Frame.of_onlyDraws (keyPitch_onlyDraws P _ s)).trans (setPhaseAcc_frame F _ _)
    have h2 : Frame F start done := Frame.foldl _ fun i hi u hu =>
      pitchFrame_frame P F _ _ i u (by
        rw [frames_congr hu.regs, frames_congr h1.regs]; exact List.mem_range.1 hi)
    have h12 := h1.trans h2
    exact h12.trans (Frame.foldl _ fun i hi u hu =>
      copyBack_frame P F i u (by
        rw [frames_congr hu.regs, frames_congr h12.regs]; exact List.mem_range.1 hi))

theorem volumeFrame_frame (i : Nat) (s : State) (hi : i < s.core.frames) : Frame F s (volumeFrame P F s i) := by
  have hd := settle_onlyDraws P (Fp.mul (loadAsDouble F i s) (gain P i s.core)) s
  exact (Frame.of_onlyDraws hd).trans (storeFromDouble_frame P F i _ _ (by rw [hd.core]; exact hi))

theorem volumeStage_frame (s : State) : Frame F s (volumeStage P F s) :=
  Frame.foldl _ fun i hi u hu =>
    volumeFrame_frame P F i u (by rw [frames_congr hu.regs]; exact List.mem_range.1 hi)

/-- Everything the stages of a COMPUTE can do. -/
theorem stages_frame (s : State) : Frame F s (stages P F s) :=
  (envDrive_frame P F .env0 s).trans <| (envDrive_frame P F .env1 _).trans <| (lfoDrive_frame P F .lfo0 _).trans <|
    (lfoDrive_frame P F .lfo1 _).trans <| (noiseDrive_frame P F _).trans <| (oscRender_frame P F .osc0 _).trans <|
      (oscRender_frame P F .osc1 _).trans <| (pitchStage_frame P F _).trans (volumeStage_frame P F _)

end Sys2Proof.Machine
end

