-- ==== Sys2Proof/Laws/Commands.lean ====
section
/-! SUPPORT. The duties as propositions, and everything a command can answer. -/

namespace Sys2Proof.Machine

/-! ## The duties -/

theorem heldByOther_iff (s : State) (a : Addr) : heldByOther s a = true ↔ HeldByOther s a := by
  unfold heldByOther HeldByOther
  rw [List.any_eq_true]
  refine exists_congr fun e => and_congr_right fun _ => ?_
  cases h : e.2.inFlight with
  | none => simp
  | some F =>
    simp only [elementHas, List.any_eq_true, List.mem_range, Option.some.injEq, exists_eq_left', inRun,
      decide_eq_true_eq]

theorem inRegisterWindow_iff (s : State) (a : Addr) :
    inRegisterWindow s.platform a = true ↔ InRegisterWindow s a := by
  simp [inRegisterWindow, InRegisterWindow, inRun]

theorem inDevice_iff (s : State) (a : Addr) : inRegions s.platform.device a = true ↔ IsDevice s a := by
  simp [inRegions, IsDevice, inRun]

theorem inTable_iff (s : State) (a : Addr) : inRegions s.platform.table a = true ↔ IsTable s a := by
  simp [inRegions, IsTable, inRun]

theorem inWindowOrTable_iff (s : State) (a : Addr) :
    inWindowOrTable s.platform a = true ↔ InRegisterWindow s a ∨ IsTable s a := by
  rw [inWindowOrTable, Bool.or_eq_true, inRegisterWindow_iff, inTable_iff]

theorem inUnreachable_iff (s : State) (a : Addr) : inRegions s.platform.unreachable a = true ↔ IsUnreachable s a := by
  simp [inRegions, IsUnreachable, inRun]

theorem mem_windowBytes {F : Format} {c : CoreState} {a : Addr} :
    a ∈ windowBytes F c ↔ ∃ i < c.frames, ∃ j < F.esize, elementAddr F c i + BitVec.ofNat 64 j = a := by
  simp [windowBytes, frameBytes]

/-- The window's bytes are those of its elements. -/
theorem mem_windowBytes_iff {F : Format} {c : CoreState} {a : Addr} :
    a ∈ windowBytes F c ↔ elementHas F c a = true := by
  have hb : F.esize ≤ 2 ^ 64 := by cases F <;> decide
  rw [mem_windowBytes]
  unfold elementHas
  simp only [List.any_eq_true, List.mem_range, inRun_iff_exists _ _ _ hb]
  refine exists_congr fun i => and_congr_right fun _ => exists_congr fun j => and_congr_right fun _ => eq_comm

theorem placementFault_eq_none {F : Format} {s : State} : placementFault F s = none ↔ PlacementMet F s := by
  unfold placementFault PlacementMet
  constructor
  · intro h i hi j hj a
    have ha : a ∈ windowBytes F s.core := mem_windowBytes.2 ⟨i, hi, j, hj, rfl⟩
    split at h
    · cases h
    · next h1 =>
      split at h
      · cases h
      · next h2 =>
        rw [List.any_eq_true] at h1 h2
        exact ⟨fun hw => h1 ⟨a, ha, (inWindowOrTable_iff s a).2 (.inl hw)⟩,
          fun ht => h1 ⟨a, ha, (inWindowOrTable_iff s a).2 (.inr ht)⟩, fun hd => h2 ⟨a, ha, (inDevice_iff s a).2 hd⟩⟩
  · intro h
    have h1 : (windowBytes F s.core).any (inWindowOrTable s.platform) = false := by
      rw [List.any_eq_false]
      intro a ha hw
      obtain ⟨i, hi, j, hj, rfl⟩ := mem_windowBytes.1 ha
      rcases (inWindowOrTable_iff s _).1 hw with hw | ht
      · exact (h i hi j hj).1 hw
      · exact (h i hi j hj).2.1 ht
    have h2 : (windowBytes F s.core).any (inRegions s.platform.device) = false := by
      rw [List.any_eq_false]
      intro a ha hw
      obtain ⟨i, hi, j, hj, rfl⟩ := mem_windowBytes.1 ha
      exact (h i hi j hj).2.2 ((inDevice_iff s _).1 hw)
    simp [h1, h2]

theorem mem_frameBytes {F : Format} {c : CoreState} {n i : Nat} {a : Addr} :
    a ∈ frameBytes F c n i ↔ ∃ j < n, elementAddr F c i + BitVec.ofNat 64 j = a := by
  simp [frameBytes]

theorem accessFault_eq_none {F : Format} {s : State} {i : Nat} :
    accessFault F s i = none ↔ ∀ j < F.accessBytes,
      ¬HeldByOther s (elementAddr F s.core i + BitVec.ofNat 64 j) ∧
      ¬IsUnreachable s (elementAddr F s.core i + BitVec.ofNat 64 j) := by
  unfold accessFault
  constructor
  · intro h j hj
    have ha : elementAddr F s.core i + BitVec.ofNat 64 j ∈ frameBytes F s.core F.accessBytes i :=
      mem_frameBytes.2 ⟨j, hj, rfl⟩
    split at h
    · cases h
    · next h1 =>
      split at h
      · cases h
      · next h2 =>
        rw [List.any_eq_true] at h1 h2
        exact ⟨fun hw => h1 ⟨_, ha, (heldByOther_iff s _).2 hw⟩, fun hd => h2 ⟨_, ha, (inUnreachable_iff s _).2 hd⟩⟩
  · intro h
    have h1 : (frameBytes F s.core F.accessBytes i).any (heldByOther s) = false := by
      rw [List.any_eq_false]
      intro a ha hw
      obtain ⟨j, hj, rfl⟩ := mem_frameBytes.1 ha
      exact (h j hj).1 ((heldByOther_iff s _).1 hw)
    have h2 : (frameBytes F s.core F.accessBytes i).any (inRegions s.platform.unreachable) = false := by
      rw [List.any_eq_false]
      intro a ha hw
      obtain ⟨j, hj, rfl⟩ := mem_frameBytes.1 ha
      exact (h j hj).2 ((inUnreachable_iff s _).1 hw)
    simp [h1, h2]

theorem accessesMet_iff {F : Format} {s : State} :
    (List.range s.core.frames).findSome? (accessFault F s) = none ↔ AccessesMet F s := by
  rw [List.findSome?_eq_none_iff]
  simp only [List.mem_range, accessFault_eq_none, AccessesMet]

theorem tableFault_eq_none {s : State} : tableFault s = none ↔ s.tableBuilt = true := by
  unfold tableFault; split <;> simp_all

/-- A COMPUTE breaks no duty exactly when every duty is met. -/
theorem computeFault_eq_none {F : Format} {s : State} : computeFault F s = none ↔ DutiesMet F s := by
  unfold computeFault DutiesMet
  rw [← placementFault_eq_none, ← accessesMet_iff, ← tableFault_eq_none]
  cases placementFault F s with
  | some f => simp
  | none =>
    cases (List.range s.core.frames).findSome? (accessFault F s) with
    | some f => simp
    | none => simp

/-- The duties depend on the registers, the other instances, the platform and the table alone. -/
theorem computeFault_congr (F : Format) {s t : State} (hr : t.core.regs = s.core.regs) (ho : t.others = s.others)
    (hp : t.platform = s.platform) (hb : t.tableBuilt = s.tableBuilt) : computeFault F t = computeFault F s := by
  have hheld : heldByOther t = heldByOther s := by funext a; unfold heldByOther; rw [ho]
  have hframe : ∀ n i, frameBytes F t.core n i = frameBytes F s.core n i := by
    intro n i; unfold frameBytes; rw [elementAddr_congr F hr]
  have hwin : windowBytes F t.core = windowBytes F s.core := by
    unfold windowBytes
    rw [frames_congr hr]
    congr 1
    funext i
    exact hframe _ i
  have hacc : accessFault F t = accessFault F s := by
    funext i; unfold accessFault; rw [hframe, hheld, hp]
  unfold computeFault placementFault tableFault
  rw [hwin, hacc, hp, hb, frames_congr hr]

/-! ## What a command answers -/

theorem command_of_busy {s : State} (h : s.core.busy = true) (o : Host.Outcome State Fault Refusal) :
    command s o = .fault .hostWriteWhileBusy := by simp [command, h]

theorem command_of_idle {s : State} (h : s.core.busy = false) (o : Host.Outcome State Fault Refusal) :
    command s o = o := by simp [command, h]

/-- Everything the atomic step of a COMPUTE can answer: nothing happens, a duty is broken, or the stages run. -/
theorem runCompute_cases (P : Params) (F : Format) (s : State) :
    (s.core.regs.bufferBase = 0 ∧ runCompute P F s = .next s.complete) ∨
    (s.core.regs.bufferBase ≠ 0 ∧ ∃ f, computeFault F s = some f ∧ runCompute P F s = .fault f) ∨
    (s.core.regs.bufferBase ≠ 0 ∧ DutiesMet F s ∧ runCompute P F s = .next (stages P F (s.begin F)).complete) := by
  unfold runCompute
  by_cases h : s.core.regs.bufferBase = 0
  · exact .inl ⟨h, if_pos h⟩
  · rw [if_neg h]
    refine .inr ?_
    cases hf : computeFault F s with
    | some f => exact .inl ⟨h, f, rfl, rfl⟩
    | none => exact .inr ⟨h, computeFault_eq_none.1 hf, rfl⟩

/-- What the atomic step of a COMPUTE leaves of the state: the frame of the stages, and BUSY 0. -/
structure Computed (F : Format) (s t : State) : Prop where
  frame : Frame F (s.begin F) (t.begin F)
  idle : t.core.inFlight = none

theorem complete_begin (F : Format) (s : State) (h : s.core.inFlight = some F) : s.complete.begin F = s := by
  cases s with
  | mk cur core => cases core; simp_all [State.complete, State.begin, State.setCore, CoreState.setInFlight]

theorem begin_begin (F : Format) (s : State) : (s.begin F).begin F = s.begin F := rfl

theorem complete_of_begin (F : Format) (s : State) : (s.begin F).complete = s.complete := rfl

theorem runCompute_next {P : Params} {F : Format} {s t : State} (h : runCompute P F s = .next t) : Computed F s t := by
  rcases runCompute_cases P F s with ⟨_, e⟩ | ⟨_, f, _, e⟩ | ⟨_, _, e⟩
  · obtain rfl := Host.Outcome.next.inj (e.symm.trans h)
    exact ⟨Frame.refl (s.begin F), rfl⟩
  · rw [e] at h; cases h
  · obtain rfl := Host.Outcome.next.inj (e.symm.trans h)
    have hf := stages_frame P F (s.begin F)
    refine ⟨?_, rfl⟩
    rw [complete_begin F _ hf.inFlight]
    exact hf

theorem runCompute_not_refused (P : Params) (F : Format) (s : State) (r : Refusal) : runCompute P F s ≠ .refused r := by
  rcases runCompute_cases P F s with ⟨_, e⟩ | ⟨_, f, _, e⟩ | ⟨_, _, e⟩ <;> rw [e] <;> exact fun h => by cases h

/-- An instruction that is no COMPUTE answers as NOP does. -/
theorem exec_of_no_format {i : Instr} (h : i.computeFormat = none) (s : State) : exec i s = command s (.next s) := by
  cases i <;> first | rfl | (simp [Instr.computeFormat] at h)

/-- An instruction that is a COMPUTE runs it. -/
theorem exec_of_format {i : Instr} {F : Format} (h : i.computeFormat = some F) (s : State) :
    exec i s = command s (runCompute Config.params F s) := by
  cases i <;> simp [Instr.computeFormat] at h <;> subst h <;> rfl

theorem exec_compute (F : Format) (s : State) :
    exec (Instr.compute F) s = command s (runCompute Config.params F s) := by cases F <;> rfl

theorem computeFormat_compute (F : Format) : (Instr.compute F).computeFormat = some F := by cases F <;> rfl

end Sys2Proof.Machine
end

