-- ==== Sys2Proof/Laws/Float.lean ====
section
/-! SUPPORT. Laws of the exact IEEE arithmetic: what a packed pattern reads as, that an exactly representable value
rounds to itself, and the identities the stages rest on. -/

namespace Sys2Proof.Machine.Fp

/-! ## Fields of a packed pattern -/

theorem toNat_pack (s : Bool) (b : Nat) :
    (pack s b).toNat = min b infMag + if s then 2 ^ 63 else 0 := by
  have h : min b infMag ≤ 0x7FF0000000000000 := Nat.min_le_right _ _
  unfold pack
  rw [BitVec.toNat_ofNat]
  cases s
  · simp; omega
  · simp; omega

theorem neg_pack (s : Bool) (b : Nat) : neg (pack s b) = s := by
  have h : min b infMag ≤ 0x7FF0000000000000 := Nat.min_le_right _ _
  rw [neg, BitVec.msb_eq_decide, toNat_pack]
  cases s
  · simp; omega
  · simp

theorem expField_pack (s : Bool) {b : Nat} (h : b ≤ infMag) : expField (pack s b) = b / 2 ^ 52 := by
  have h' : b ≤ 0x7FF0000000000000 := h
  rw [expField, toNat_pack, Nat.min_eq_left h]
  cases s
  · simp; omega
  · simp; omega

theorem fracField_pack (s : Bool) {b : Nat} (h : b ≤ infMag) : fracField (pack s b) = b % 2 ^ 52 := by
  rw [fracField, toNat_pack, Nat.min_eq_left h]
  cases s
  · simp
  · simp only [if_true]; omega

theorem isFinite_pack (s : Bool) {b : Nat} (h : b < infMag) : isFinite (pack s b) = true := by
  have h' : b < 0x7FF0000000000000 := h
  rw [isFinite, expField_pack s (Nat.le_of_lt h)]
  simp only [bne_iff_ne, ne_eq]
  omega

/-- A finite pattern is its sign and its magnitude bits. -/
theorem pack_self (x : F64) (h : isNaN x = false) : pack (neg x) (x.toNat % 2 ^ 63) = x := by
  have hx := x.isLt
  have hb : x.toNat % 2 ^ 63 ≤ infMag := by
    simp only [isNaN, expField, fracField, Bool.and_eq_false_iff, beq_eq_false_iff_ne, ne_eq, bne_eq_false_iff_eq]
      at h
    unfold infMag
    omega
  apply BitVec.eq_of_toNat_eq
  rw [toNat_pack, Nat.min_eq_left hb, neg, BitVec.msb_eq_decide]
  by_cases hm : 2 ^ (64 - 1) ≤ x.toNat
  · rw [decide_eq_true hm, if_pos rfl]; omega
  · rw [decide_eq_false hm, if_neg Bool.false_ne_true]; omega

theorem isNaN_of_finite {x : F64} (h : isFinite x = true) : isNaN x = false := by
  simp only [isFinite, bne_iff_ne, ne_eq] at h
  simp [isNaN, h]

theorem isInf_of_finite {x : F64} (h : isFinite x = true) : isInf x = false := by
  simp only [isFinite, bne_iff_ne, ne_eq] at h
  simp [isInf, h]

theorem two_pow_mul (a b c : Nat) (h : a + b = c) : 2 ^ a * 2 ^ b = 2 ^ c := by rw [← Nat.pow_add, h]

/-! ## Rounding of exactly representable values -/

theorem roundHalfEven_exact (q den : Nat) (h : 0 < den) : roundHalfEven (q * den) den = q := by
  unfold roundHalfEven
  simp only [Nat.mul_mod_left, Nat.mul_div_cancel _ h, Nat.mul_zero, Nat.not_lt_zero, false_or]
  split
  · omega
  · rfl

/-- `q` units of 2^e, with `q` of at most `frac + 1` bits, round to themselves. -/
theorem roundMag_exact (frac q e d : Nat) (hd : 0 < d)
    (h : (e = 0 ∧ q < 2 ^ (frac + 1)) ∨ (2 ^ frac ≤ q ∧ q < 2 ^ (frac + 1))) :
    roundMag frac (q * 2 ^ e * d) d = e * 2 ^ frac + q := by
  unfold roundMag
  have hlog : Nat.log2 (q * 2 ^ e * d / d) - frac = e := by
    rw [Nat.mul_div_cancel _ hd]
    rcases h with ⟨rfl, h⟩ | ⟨h1, h2⟩
    · by_cases hq : q = 0
      · subst hq; simp
      · have := (Nat.log2_lt (by omega : q * 2 ^ 0 ≠ 0)).2 (by omega : q * 2 ^ 0 < 2 ^ (frac + 1))
        omega
    · have hq : q * 2 ^ e ≠ 0 := by
        have : 0 < 2 ^ frac := Nat.two_pow_pos _
        have := Nat.two_pow_pos e
        exact Nat.mul_ne_zero (by omega) (by omega)
      have hlo : 2 ^ (frac + e) ≤ q * 2 ^ e := by
        rw [Nat.pow_add]; exact Nat.mul_le_mul_right _ h1
      have hhi : q * 2 ^ e < 2 ^ (frac + 1 + e) := by
        rw [Nat.pow_add _ (frac + 1)]; exact Nat.mul_lt_mul_of_pos_right h2 (Nat.two_pow_pos e)
      have := (Nat.le_log2 hq).2 hlo
      have := (Nat.log2_lt hq).2 hhi
      omega
  simp only [hlog]
  rw [show q * 2 ^ e * d = q * (d * 2 ^ e) by rw [Nat.mul_assoc, Nat.mul_comm (2 ^ e)],
    roundHalfEven_exact _ _ (Nat.mul_pos hd (Nat.two_pow_pos e))]

/-- The magnitude of a pattern, taken over any denominator, rounds to the pattern's magnitude bits. -/
theorem roundMag_mag (x : F64) (d : Nat) (hd : 0 < d) :
    roundMag 52 (mag x * d) d = x.toNat % 2 ^ 63 := by
  have hx := x.isLt
  have hf : fracField x < 2 ^ 52 := Nat.mod_lt _ (by decide)
  unfold mag
  split
  · next he =>
    have := roundMag_exact 52 (fracField x) 0 d hd (.inl ⟨rfl, by omega⟩)
    simp only [Nat.pow_zero, Nat.mul_one] at this
    rw [this]
    simp only [expField, fracField] at he ⊢
    omega
  · next he =>
    rw [roundMag_exact 52 (2 ^ 52 + fracField x) (expField x - 1) d hd (.inr ⟨by omega, by omega⟩)]
    simp only [expField, fracField] at he ⊢
    omega

/-- Packing a finite pattern's own magnitude gives the pattern back. -/
theorem pack_roundMag_mag (x : F64) (h : isFinite x = true) (d : Nat) (hd : 0 < d) :
    pack (neg x) (roundMag 52 (mag x * d) d) = x := by
  rw [roundMag_mag x d hd, pack_self x (isNaN_of_finite h)]

/-- The magnitude a packed pattern reads as. -/
theorem mag_pack (s : Bool) (q e : Nat) (hb : e * 2 ^ 52 + q < infMag)
    (h : (e = 0 ∧ q < 2 ^ 53) ∨ (2 ^ 52 ≤ q ∧ q < 2 ^ 53)) : mag (pack s (e * 2 ^ 52 + q)) = q * 2 ^ e := by
  rw [mag, expField_pack s (Nat.le_of_lt hb), fracField_pack s (Nat.le_of_lt hb)]
  rcases h with ⟨rfl, h⟩ | ⟨h1, h2⟩
  · by_cases hq : q < 2 ^ 52
    · rw [if_pos (by omega)]; omega
    · rw [if_neg (by omega), show (0 * 2 ^ 52 + q) / 2 ^ 52 - 1 = 0 by omega]; omega
  · rw [if_neg (by omega), show (e * 2 ^ 52 + q) / 2 ^ 52 - 1 = e by omega,
      show 2 ^ 52 + (e * 2 ^ 52 + q) % 2 ^ 52 = q by omega]

/-- A value of at most 53 bits, far enough above the least unit, has 53 significant bits. -/
theorem normalise (a k : Nat) (h0 : a ≠ 0) (h : a < 2 ^ 53) (hk : 52 ≤ k + Nat.log2 a) :
    ∃ q, (2 ^ 52 ≤ q ∧ q < 2 ^ 53) ∧ q * 2 ^ (k + Nat.log2 a - 52) = a * 2 ^ k := by
  have hl := (Nat.log2_lt h0).2 h
  refine ⟨a * 2 ^ (52 - Nat.log2 a), ⟨?_, ?_⟩, ?_⟩
  · rw [← two_pow_mul (Nat.log2 a) (52 - Nat.log2 a) 52 (by omega)]
    exact Nat.mul_le_mul_right _ (Nat.log2_self_le h0)
  · rw [← two_pow_mul (Nat.log2 a + 1) (52 - Nat.log2 a) 53 (by omega)]
    exact Nat.mul_lt_mul_of_pos_right Nat.lt_log2_self (Nat.two_pow_pos _)
  · rw [Nat.mul_assoc, two_pow_mul _ _ k (by omega)]

/-! ## Signed values -/

theorem units_natAbs (x : F64) : (units x).natAbs = mag x := by
  unfold units; split <;> simp

theorem units_eq_zero {x : F64} : units x = 0 ↔ mag x = 0 := by
  rw [← units_natAbs]; simp

/-- The sign of a non-zero value. -/
theorem units_neg {x : F64} (h : mag x ≠ 0) : decide (units x < 0) = neg x := by
  unfold units
  cases neg x
  · simp
  · simp; omega

/-- A finite non-zero value of units rounds to itself. -/
theorem roundUnits_units (z : Bool) (x : F64) (h : isFinite x = true) (h0 : mag x ≠ 0) :
    roundUnits z (units x) 1 = x := by
  unfold roundUnits
  rw [if_neg (by rwa [units_eq_zero]), units_natAbs, units_neg h0]
  have := pack_roundMag_mag x h 1 (by decide)
  rwa [Nat.mul_one] at this

/-- A finite zero is +0.0 or −0.0. -/
theorem eq_zero_of_mag {x : F64} (h : isFinite x = true) (h0 : mag x = 0) : x = pack (neg x) 0 := by
  have := pack_roundMag_mag x h 1 (by decide)
  rw [h0] at this
  exact this.symm

/-! ## Identities -/

theorem mag_one : mag one = 2 ^ 1074 := by decide +kernel

theorem neg_one : neg one = false := by decide

theorem isFinite_one : isFinite one = true := by decide

theorem infMag_pack {x : F64} (h : isInf x = true) : pack (neg x) infMag = x := by
  have hx := x.isLt
  have hn : isNaN x = false := by
    simp only [isInf, Bool.and_eq_true, beq_iff_eq] at h
    simp [isNaN, h.2]
  have hb : x.toNat % 2 ^ 63 = infMag := by
    simp only [isInf, expField, fracField, Bool.and_eq_true, beq_iff_eq] at h
    unfold infMag
    omega
  rw [← hb]; exact pack_self x hn

theorem finite_of_not {x : F64} (hn : isNaN x = false) (hi : isInf x = false) : isFinite x = true := by
  simp only [isNaN, Bool.and_eq_false_iff, beq_eq_false_iff_ne, ne_eq, bne_eq_false_iff_eq] at hn
  simp only [isInf, Bool.and_eq_false_iff, beq_eq_false_iff_ne, ne_eq] at hi
  simp only [isFinite, bne_iff_ne, ne_eq]
  intro he
  rcases hn with h | h
  · exact h he
  · rcases hi with g | g
    · exact g he
    · exact g h

/-- `1.0 × x = x` of every `x` that is no NaN. -/
theorem mul_one_left (x : F64) (h : isNaN x = false) : mul one x = x := by
  unfold mul
  have h1 : isNaN one = false := by decide
  have h2 : isInf one = false := by decide
  have h3 : mag one ≠ 0 := by rw [mag_one]; exact Nat.two_pow_pos _ |>.ne'
  simp only [h1, h2, h, neg_one, Bool.false_or, Bool.or_false, Bool.false_eq_true, if_false,
    Bool.false_bne]
  split
  · next hi =>
    have : mag x ≠ 0 := by
      simp only [isInf, Bool.and_eq_true, beq_iff_eq] at hi
      unfold mag
      rw [if_neg (by omega)]
      exact Nat.mul_ne_zero (by omega) (Nat.two_pow_pos _).ne'
    rw [if_neg (by omega)]
    exact infMag_pack hi
  · next hi =>
    have hf := finite_of_not h (by simpa using hi)
    rw [mag_one, Nat.mul_comm]
    exact pack_roundMag_mag x hf _ (Nat.two_pow_pos _)

/-- `x × 1.0 = x` of every `x` that is no NaN. -/
theorem mul_one_right (x : F64) (h : isNaN x = false) : mul x one = x := by
  have hc : mul x one = mul one x := by
    have hs : (neg x != neg one) = (neg one != neg x) := by cases neg x <;> rfl
    unfold mul
    rw [hs, Bool.or_comm (isNaN x), Bool.or_comm (isInf x), Nat.mul_comm (mag x)]
    simp only [or_comm (a := mag x = 0)]
  rw [hc, mul_one_left x h]

/-- `x / x = 1.0` of every finite non-zero `x`. -/
theorem div_self_eq_one (x : F64) (h : isFinite x = true) (h0 : mag x ≠ 0) : div x x = one := by
  unfold div
  have hr : roundMag 52 (mag x * 2 ^ 1074) (mag x) = 0x3FF0000000000000 := by
    have := roundMag_exact 52 (2 ^ 52) 1022 (mag x) (Nat.pos_of_ne_zero h0) (.inr ⟨Nat.le_refl _, by decide⟩)
    rw [two_pow_mul 52 1022 1074 (by omega), Nat.mul_comm] at this
    exact this.trans (by decide)
  have hs : (neg x != neg x) = false := by cases neg x <;> rfl
  simp only [isNaN_of_finite h, isInf_of_finite h, Bool.or_false, Bool.false_eq_true, if_false, h0, hs, hr]
  decide

/-- Adding a zero to a finite non-zero value changes nothing. -/
theorem add_zero_right {x z : F64} (h : isFinite x = true) (h0 : mag x ≠ 0) (hz : isFinite z = true)
    (hm : mag z = 0) : add x z = x := by
  unfold add
  simp only [isNaN_of_finite h, isInf_of_finite h, isNaN_of_finite hz, isInf_of_finite hz, Bool.or_false,
    Bool.false_eq_true, if_false, units_eq_zero.2 hm, Int.add_zero]
  exact roundUnits_units _ x h h0

theorem add_zero_left {x z : F64} (h : isFinite x = true) (h0 : mag x ≠ 0) (hz : isFinite z = true)
    (hm : mag z = 0) : add z x = x := by
  unfold add
  simp only [isNaN_of_finite h, isInf_of_finite h, isNaN_of_finite hz, isInf_of_finite hz, Bool.or_false,
    Bool.false_eq_true, if_false, units_eq_zero.2 hm, Int.zero_add]
  exact roundUnits_units _ x h h0

/-- A zero times a finite value is a zero. -/
theorem mul_zero_finite {z x : F64} (hz : isFinite z = true) (hm : mag z = 0) (h : isFinite x = true) :
    mul z x = pack (neg z != neg x) 0 := by
  unfold mul
  have hr : roundMag 52 (0 * mag x) (2 ^ 1074) = 0 := by
    have := roundMag_exact 52 0 0 (2 ^ 1074) (Nat.two_pow_pos _) (.inl ⟨rfl, by decide⟩)
    simpa using this
  simp only [isNaN_of_finite h, isInf_of_finite h, isNaN_of_finite hz, isInf_of_finite hz, Bool.or_false,
    Bool.false_eq_true, if_false, hm, hr]

theorem mag_pack_zero (s : Bool) : mag (pack s 0) = 0 := by cases s <;> decide

theorem isFinite_pack_zero (s : Bool) : isFinite (pack s 0) = true := by cases s <;> decide

/-! ## Integers -/

theorem trunc_of_mag_zero {x : F64} (h : mag x = 0) : trunc x = 0 := by
  unfold trunc; rw [h]; simp

theorem ofInt_zero : ofInt 0 = zero := by
  unfold ofInt roundUnits
  rw [Int.zero_mul, if_pos rfl]
  decide

/-- An integer of at most 53 bits converts exactly (R223). -/
theorem ofInt_exact (n : Int) (h : n.natAbs ≤ 2 ^ 53) :
    isFinite (ofInt n) = true ∧ mag (ofInt n) = n.natAbs * 2 ^ 1074 ∧ (n ≠ 0 → neg (ofInt n) = decide (n < 0)) ∧
      (n = 0 → ofInt n = zero) := by
  by_cases h0 : n = 0
  · subst h0; rw [ofInt_zero, Int.natAbs_zero, Nat.zero_mul]
    exact ⟨by decide, by decide, fun h => absurd rfl h, fun _ => rfl⟩
  · obtain ⟨q, e, hq, he, hb⟩ : ∃ q e, (2 ^ 52 ≤ q ∧ q < 2 ^ 53) ∧ q * 2 ^ e = n.natAbs * 2 ^ 1074 ∧
        e * 2 ^ 52 + q < infMag := by
      by_cases hmax : n.natAbs = 2 ^ 53
      · refine ⟨2 ^ 52, 1075, by decide, ?_, by decide⟩
        rw [hmax, two_pow_mul 52 1075 1127 (by omega), two_pow_mul 53 1074 1127 (by omega)]
      · have hn0 : n.natAbs ≠ 0 := by omega
        have hl := (Nat.log2_lt hn0).2 (by omega : n.natAbs < 2 ^ 53)
        obtain ⟨q, hq, he⟩ := normalise n.natAbs 1074 hn0 (by omega) (by omega)
        refine ⟨q, _, hq, he, ?_⟩
        unfold infMag
        omega
    have hpos : (0 : Int) < 2 ^ 1074 := by positivity
    have hne : n * 2 ^ 1074 ≠ 0 := Int.mul_ne_zero h0 (ne_of_gt hpos)
    have habs : (n * 2 ^ 1074 : Int).natAbs = q * 2 ^ e := by
      rw [Int.natAbs_mul, he]; congr 1
    have hval : ofInt n = pack (decide (n < 0)) (e * 2 ^ 52 + q) := by
      unfold ofInt roundUnits
      rw [if_neg hne, habs]
      have hr := roundMag_exact 52 q e 1 (by decide) (.inr hq)
      rw [Nat.mul_one] at hr
      rw [hr]
      congr 1
      rw [decide_eq_decide]
      constructor
      · intro h; by_contra hc
        have hc : 0 ≤ n := by omega
        have : 0 ≤ n * 2 ^ 1074 := Int.mul_nonneg hc (le_of_lt hpos)
        omega
      · exact fun h => Int.mul_neg_of_neg_of_pos h hpos
    refine ⟨by rw [hval]; exact isFinite_pack _ hb, ?_, fun _ => by rw [hval, neg_pack], fun h => absurd h h0⟩
    rw [hval, mag_pack _ q e hb (.inr hq), he]

/-- Truncation undoes the conversion of an integer of at most 53 bits. -/
theorem trunc_ofInt (n : Int) (h : n.natAbs ≤ 2 ^ 53) : trunc (ofInt n) = n := by
  obtain ⟨_, hm, hs, hz⟩ := ofInt_exact n h
  by_cases h0 : n = 0
  · rw [trunc_of_mag_zero (by rw [hm, h0]; simp), h0]
  · unfold trunc
    rw [hm, hs h0, Nat.mul_div_cancel _ (Nat.two_pow_pos _)]
    by_cases hn : n < 0
    · rw [decide_eq_true hn, if_pos rfl]; omega
    · rw [decide_eq_false hn, if_neg Bool.false_ne_true]; omega

/-! ## Binary32 -/

theorem toNat_pack32 (s : Bool) (b : Nat) :
    (pack32 s b).toNat = min b infMag32 + if s then 2 ^ 31 else 0 := by
  have h : min b infMag32 ≤ 0x7F800000 := Nat.min_le_right _ _
  unfold pack32
  rw [BitVec.toNat_ofNat]
  cases s
  · simp; omega
  · simp; omega

/-- A binary32 that is no NaN is its sign and its magnitude bits. -/
theorem pack32_self (y : F32) (h : isNaN32 y = false) : pack32 (neg32 y) (y.toNat % 2 ^ 31) = y := by
  have hx := y.isLt
  have hb : y.toNat % 2 ^ 31 ≤ infMag32 := by
    simp only [isNaN32, expField32, fracField32, Bool.and_eq_false_iff, beq_eq_false_iff_ne, ne_eq,
      bne_eq_false_iff_eq] at h
    unfold infMag32
    omega
  apply BitVec.eq_of_toNat_eq
  rw [toNat_pack32, Nat.min_eq_left hb, neg32, BitVec.msb_eq_decide]
  by_cases hm : 2 ^ (32 - 1) ≤ y.toNat
  · rw [decide_eq_true hm, if_pos rfl]; omega
  · rw [decide_eq_false hm, if_neg Bool.false_ne_true]; omega

theorem roundMag_mag32 (y : F32) (d : Nat) (hd : 0 < d) : roundMag 23 (mag32 y * d) d = y.toNat % 2 ^ 31 := by
  have hx := y.isLt
  have hf : fracField32 y < 2 ^ 23 := Nat.mod_lt _ (by decide)
  unfold mag32
  split
  · next he =>
    have := roundMag_exact 23 (fracField32 y) 0 d hd (.inl ⟨rfl, by omega⟩)
    simp only [Nat.pow_zero, Nat.mul_one] at this
    rw [this]
    simp only [expField32, fracField32] at he ⊢
    omega
  · next he =>
    rw [roundMag_exact 23 (2 ^ 23 + fracField32 y) (expField32 y - 1) d hd (.inr ⟨by omega, by omega⟩)]
    simp only [expField32, fracField32] at he ⊢
    omega

/-- What the widening of a finite binary32 reads as (R15, R224: it is exact). -/
theorem widen_exact (y : F32) (hn : isNaN32 y = false) (hi : isInf32 y = false) :
    isFinite (widen y) = true ∧ neg (widen y) = neg32 y ∧ mag (widen y) = mag32 y * 2 ^ 925 := by
  have hw : widen y = pack (neg32 y) (roundMag 52 (mag32 y * 2 ^ 925) 1) := by
    unfold widen; rw [hn, hi]; rfl
  rw [hw]
  by_cases h0 : mag32 y = 0
  · rw [h0, Nat.zero_mul]
    exact ⟨by cases neg32 y <;> decide, neg_pack _ _, by cases neg32 y <;> decide⟩
  · obtain ⟨a, k, ha0, ha, hk, hm⟩ : ∃ a k, a ≠ 0 ∧ a < 2 ^ 24 ∧ k ≤ 253 ∧ mag32 y = a * 2 ^ k := by
      have hf : fracField32 y < 2 ^ 23 := Nat.mod_lt _ (by decide)
      have he : expField32 y < 255 := by
        have : expField32 y < 256 := Nat.mod_lt _ (by decide)
        simp only [isNaN32, Bool.and_eq_false_iff, beq_eq_false_iff_ne, ne_eq, bne_eq_false_iff_eq] at hn
        simp only [isInf32, Bool.and_eq_false_iff, beq_eq_false_iff_ne, ne_eq] at hi
        omega
      unfold mag32 at h0 ⊢
      split at h0
      · next h => rw [if_pos h]; exact ⟨fracField32 y, 0, h0, by omega, by omega, by omega⟩
      · next h => rw [if_neg h]; exact ⟨2 ^ 23 + fracField32 y, expField32 y - 1, by omega, by omega, by omega, rfl⟩
    have hl := (Nat.log2_lt ha0).2 (Nat.lt_trans ha (by decide) : a < 2 ^ 53)
    obtain ⟨q, hq, he⟩ := normalise a (k + 925) ha0 (Nat.lt_trans ha (by decide)) (by omega)
    have hv : mag32 y * 2 ^ 925 = q * 2 ^ (k + 925 + Nat.log2 a - 52) := by
      rw [he, hm, Nat.mul_assoc, two_pow_mul _ _ (k + 925) rfl]
    have hr := roundMag_exact 52 q (k + 925 + Nat.log2 a - 52) 1 (by decide) (.inr hq)
    rw [Nat.mul_one] at hr
    have hb : (k + 925 + Nat.log2 a - 52) * 2 ^ 52 + q < infMag := by unfold infMag; omega
    rw [hv, hr]
    exact ⟨isFinite_pack _ hb, neg_pack _ _, mag_pack _ _ _ hb (.inr hq)⟩

/-- Rounding to binary32 undoes the widening of a binary32 that is no NaN (R223). -/
theorem toF32_widen (y : F32) (h : isNaN32 y = false) : toF32 (widen y) = y := by
  by_cases hi : isInf32 y = true
  · have hy : y.toNat % 2 ^ 31 = infMag32 := by
      simp only [isInf32, expField32, fracField32, Bool.and_eq_true, beq_iff_eq] at hi
      unfold infMag32
      omega
    have hw : widen y = pack (neg32 y) infMag := by unfold widen; rw [h, hi]; rfl
    have hp := pack32_self y h
    rw [hy] at hp
    rw [hw]
    unfold toF32
    rw [neg_pack, show isNaN (pack (neg32 y) infMag) = false by cases neg32 y <;> decide,
      show isInf (pack (neg32 y) infMag) = true by cases neg32 y <;> decide]
    exact hp
  · obtain ⟨hf, hs, hm⟩ := widen_exact y h (by simpa using hi)
    unfold toF32
    rw [isNaN_of_finite hf, isInf_of_finite hf, hs, hm, if_neg Bool.false_ne_true, if_neg Bool.false_ne_true,
      roundMag_mag32 y _ (Nat.two_pow_pos _)]
    exact pack32_self y h

end Sys2Proof.Machine.Fp
end

