-- ==== Sys2Proof/Laws/Formats.lean ====
section
/-! SUPPORT. Laws of the sample primitives: the field of an element as it is stored and read back. -/

namespace Sys2Proof.Machine

/-- Reading the element just stored. -/
theorem loadBits_storeBits {n : Nat} (hn : n % 8 = 0) (h64 : n ≤ 64) (F : Format) (i : Nat) (v : BitVec n)
    (s : State) : loadBits n F i (storeBits F i v s) = v := by
  apply BitVec.eq_of_toNat_eq
  have h256 : (256 : Nat) ^ (n / 8) = 2 ^ n := by
    rw [show (256 : Nat) = 2 ^ 8 by rfl, ← Nat.pow_mul]; congr 1; omega
  have hr := readLE_writeLE_same (n / 8) (by omega) (elementAddr F s.core i) v.toNat s.mem
  unfold loadBits storeBits
  simp only [State.setMem_mem, State.setMem_core, hr, BitVec.toNat_ofNat, h256]
  rw [Nat.mod_mod, Nat.mod_eq_of_lt v.isLt]

/-- Storing what is there changes nothing. -/
theorem storeBits_loadBits {n : Nat} (hn : n % 8 = 0) (h64 : n ≤ 64) (F : Format) (i : Nat) (s : State)
    (h : Memory.wf s.mem) : storeBits F i (loadBits n F i s) s = s := by
  have h256 : (256 : Nat) ^ (n / 8) = 2 ^ n := by
    rw [show (256 : Nat) = 2 ^ 8 by rfl, ← Nat.pow_mul]; congr 1; omega
  have hlt := readLE_lt (n / 8) (elementAddr F s.core i) s.mem
  rw [h256] at hlt
  unfold storeBits loadBits
  rw [BitVec.toNat_ofNat, Nat.mod_eq_of_lt hlt, writeLE_readLE_self _ (by omega) _ h]
  rfl

/-- An element's field depends on the registers and the memory alone. -/
theorem loadBits_congr (n : Nat) (F : Format) (i : Nat) {s t : State} (hr : t.core.regs = s.core.regs)
    (hm : t.mem = s.mem) : loadBits n F i t = loadBits n F i s := by
  unfold loadBits; rw [elementAddr_congr F hr, hm]

/-- So does its value as a binary64. -/
theorem loadAsDouble_congr (F : Format) (i : Nat) {s t : State} (hr : t.core.regs = s.core.regs)
    (hm : t.mem = s.mem) : loadAsDouble F i t = loadAsDouble F i s := by
  unfold loadAsDouble
  cases F <;> simp only [loadBits_congr _ _ i hr hm]

/-- The integer of an N-bit field is at most 2^(N−1) in magnitude. -/
theorem natAbs_toInt_le {n : Nat} (hn : 0 < n) (v : BitVec n) : v.toInt.natAbs ≤ 2 ^ (n - 1) := by
  have h1 := BitVec.toInt_lt (x := v)
  have h2 := BitVec.le_toInt v
  obtain ⟨m, rfl⟩ : ∃ m, n = m + 1 := ⟨n - 1, by omega⟩
  simp only [Nat.add_sub_cancel] at h1 h2 ⊢
  have h3 : ((2 ^ m : Nat) : Int) = 2 ^ m := by push_cast; rfl
  omega

/-- A store into an element writes its access's bytes alone. -/
theorem storeBits_outside {n : Nat} {F : Format} (hn : n / 8 = F.accessBytes) (i : Nat) (v : BitVec n) (s : State)
    (a : Addr) (h : ∀ j < F.accessBytes, a ≠ elementAddr F s.core i + BitVec.ofNat 64 j) :
    readByte (storeBits F i v s).mem a = readByte s.mem a := by
  have hb : F.accessBytes ≤ 2 ^ 64 := by cases F <;> decide
  refine readByte_writeLE_outside _ (hn ▸ hb) _ _ _ _ (Bool.eq_false_iff.2 fun hr => ?_)
  rw [hn, inRun_iff_exists _ _ _ hb] at hr
  obtain ⟨j, hj, e⟩ := hr
  exact h j hj e

/-- Accumulate writes the bytes of its access alone (R222). -/
theorem accumulate_outside (P : Params) (F : Format) (i : Nat) (x : F64) (s : State) (a : Addr)
    (h : ∀ j < F.accessBytes, a ≠ elementAddr F s.core i + BitVec.ofNat 64 j) :
    readByte (accumulate P F i x s).mem a = readByte s.mem a := by
  have key {n : Nat} (hn : n / 8 = F.accessBytes) (v : BitVec n) (u : State) (hu : OnlyDraws s u) :
      readByte (storeBits F i v u).mem a = readByte s.mem a := by
    rw [storeBits_outside hn i v u a (by rw [hu.core]; exact h), hu.mem]
  cases F
  iterate 5 exact key rfl _ _ (convInt_onlyDraws P _ _ s)
  · exact key rfl _ _ (settle32_onlyDraws P _ s)
  · exact key rfl _ _ (settle_onlyDraws P _ s)
  · exact key rfl _ _ (settle_onlyDraws P _ s)

/-- StoreFromDouble leaves the instance's registers and hidden state (R221). -/
theorem storeFromDouble_core (P : Params) (F : Format) (i : Nat) (v : F64) (s : State) :
    (storeFromDouble P F i v s).core = s.core := by
  cases F
  iterate 5 exact (convInt_onlyDraws P _ v s).core
  · exact (settle32_onlyDraws P _ s).core
  · rfl
  · rfl

end Sys2Proof.Machine
end

