-- ==== Sys2Proof/Laws/Instances.lean ====
section
/-! SUPPORT. Laws of the addressed instance and of a step: which instance an event reaches, and that focusing loses
nothing. -/

namespace Sys2Proof.Machine

@[simp] theorem focus_cur (n : Nat) (s : State) : (s.focus n).cur = n := by
  unfold State.focus; split <;> simp_all

@[simp] theorem focus_core (n : Nat) (s : State) : (s.focus n).core = s.coreOf n := by
  unfold State.focus State.coreOf; split <;> simp_all

@[simp] theorem focus_mem (n : Nat) (s : State) : (s.focus n).mem = s.mem := by
  unfold State.focus; split <;> rfl

@[simp] theorem focus_tableBuilt (n : Nat) (s : State) : (s.focus n).tableBuilt = s.tableBuilt := by
  unfold State.focus; split <;> rfl

@[simp] theorem focus_tableLock (n : Nat) (s : State) : (s.focus n).tableLock = s.tableLock := by
  unfold State.focus; split <;> rfl

@[simp] theorem focus_platform (n : Nat) (s : State) : (s.focus n).platform = s.platform := by
  unfold State.focus; split <;> rfl

@[simp] theorem focus_bus (n : Nat) (s : State) : (s.focus n).bus = s.bus := by
  unfold State.focus; split <;> rfl

@[simp] theorem focus_replies (n : Nat) (s : State) : (s.focus n).replies = s.replies := by
  unfold State.focus; split <;> rfl

@[simp] theorem focus_draws (n : Nat) (s : State) : (s.focus n).draws = s.draws := by
  unfold State.focus; split <;> rfl

/-- Focusing the addressed instance changes nothing. -/
theorem focus_self (s : State) : s.focus s.cur = s := by simp [State.focus]

theorem coreOf_cur (s : State) : s.coreOf s.cur = s.core := by simp [State.coreOf]

/-- Every instance keeps its state when the addressed one changes. -/
theorem coreOf_focus (n m : Nat) (s : State) : (s.focus n).coreOf m = s.coreOf m := by
  by_cases h : n = s.cur
  · rw [h, focus_self]
  · by_cases hm : m = n
    · rw [hm]
      conv_lhs => rw [State.coreOf, focus_cur, if_pos rfl, focus_core]
    · unfold State.coreOf
      rw [focus_cur, if_neg hm]
      have ho : (s.focus n).others = Sparse.set CoreState.reset s.cur s.core
          (Sparse.set CoreState.reset n CoreState.reset s.others) := by simp [State.focus, h]
      rw [ho]
      by_cases hc : m = s.cur
      · rw [hc, Sparse.get_set_same, if_pos rfl]
      · rw [Sparse.get_set_ne _ hc, Sparse.get_set_ne _ hm, if_neg hc]

/-- The other instances after a change of the addressed one. -/
theorem mem_focus_others {n : Nat} {s : State} {e : Nat × CoreState} (h : e ∈ (s.focus n).others) :
    (n = s.cur ∧ e ∈ s.others) ∨ (n ≠ s.cur ∧ e = (s.cur, s.core)) ∨ (n ≠ s.cur ∧ e ∈ s.others ∧ e.1 ≠ n) := by
  by_cases hn : n = s.cur
  · rw [hn, focus_self] at h; exact .inl ⟨hn, h⟩
  · simp only [State.focus, hn, if_false] at h
    rcases Sparse.mem_set _ h with ⟨he, _⟩ | ⟨he, _⟩
    · exact .inr (.inl ⟨hn, he⟩)
    · rcases Sparse.mem_set _ he with ⟨_, hd⟩ | ⟨he, hne⟩
      · exact absurd rfl hd
      · exact .inr (.inr ⟨hn, he, hne⟩)

/-- The list of the other instances stays canonical. -/
theorem focus_others_wf (n : Nat) (s : State) (h : Sparse.Wf CoreState.reset s.others) :
    Sparse.Wf CoreState.reset (s.focus n).others := by
  unfold State.focus
  split
  · exact h
  · exact Sparse.wf_set _ _ _ _ (Sparse.wf_set _ _ _ _ h)

/-- `coreOf` sees only the addressed instance and the list. -/
theorem coreOf_congr {s t : State} (hc : t.cur = s.cur) (ho : t.others = s.others) {m : Nat} (hm : m ≠ s.cur) :
    t.coreOf m = s.coreOf m := by
  unfold State.coreOf
  rw [hc, if_neg hm, if_neg hm, ho]

/-! ## A step -/

theorem step_nil {s : State} (h : s.bus = []) : step s = idle s := by unfold step; rw [h]

theorem step_cons {s : State} {e : Event} {rest : List Event} (h : s.bus = e :: rest) :
    step s = handle e (s.setBus rest) := by unfold step; rw [h]

theorem atInstance_cur (s : State) (k : State → Host.Outcome State Fault Refusal) : atInstance s.cur s k = k s := by
  simp [atInstance, focus_self]

/-- An outcome at an instance is that of the instance, or the number names none. -/
theorem atInstance_cases (n : Nat) (s : State) (k : State → Host.Outcome State Fault Refusal) :
    ((n = s.cur ∨ n < s.platform.windows.length) ∧ atInstance n s k = k (s.focus n)) ∨
      atInstance n s k = .refused (.noSuchInstance n) := by
  unfold atInstance
  split
  · next h => exact .inl ⟨h, rfl⟩
  · exact .inr rfl

/-- Everything a CMD write can do: an instruction runs, or a COMPUTE starts. -/
theorem issue_cases (data : Data) (ov : Bool) (s : State) :
    issue data ov s = exec (decodeKey (dispatchKey s.core.regs.format data)) s ∨
      (ov = true ∧ ∃ F, (decodeKey (dispatchKey s.core.regs.format data)).computeFormat = some F ∧
        issue data ov s = startCompute F s) := by
  unfold issue
  cases ov with
  | false => exact .inl rfl
  | true =>
    cases h : (decodeKey (dispatchKey s.core.regs.format data)).computeFormat with
    | none => left; simp [h]
    | some F => right; exact ⟨rfl, F, rfl, by simp [h]⟩

/-- Everything the start of a COMPUTE can answer. -/
theorem startCompute_cases (F : Format) (s : State) (h : s.core.busy = false) :
    (s.core.regs.bufferBase = 0 ∧ startCompute F s = .next s) ∨
    (s.core.regs.bufferBase ≠ 0 ∧ ∃ f, placementFault F s = some f ∧ startCompute F s = .fault f) ∨
    (s.core.regs.bufferBase ≠ 0 ∧ PlacementMet F s ∧ startCompute F s = .next (s.begin F)) := by
  unfold startCompute
  rw [command_of_idle h]
  by_cases hb : s.core.regs.bufferBase = 0
  · exact .inl ⟨hb, if_pos hb⟩
  · rw [if_neg hb]
    refine .inr ?_
    cases hf : placementFault F s with
    | some f => exact .inl ⟨hb, f, rfl, rfl⟩
    | none => exact .inr ⟨hb, placementFault_eq_none.1 hf, rfl⟩

/-! ## Accesses by byte address -/

theorem mem_runAddrs {a x : Addr} {n : Nat} : x ∈ runAddrs a n ↔ ∃ j < n, a + BitVec.ofNat 64 j = x := by
  simp [runAddrs]

theorem mem_memoryAddrs {s : State} {a x : Addr} {n : Nat} :
    x ∈ memoryAddrs s.platform a n ↔ (∃ j < n, a + BitVec.ofNat 64 j = x) ∧ ¬InRegisterWindow s x := by
  rw [memoryAddrs, List.mem_filter, mem_runAddrs, ← inRegisterWindow_iff]
  simp

theorem windowAt_eq_none {s : State} {a : Addr} : windowAt s.platform a = none ↔ ¬InRegisterWindow s a := by
  simp [windowAt, InRegisterWindow, inRun, List.findIdx?_eq_none_iff]

/-- The first window an address lies in is the one the map gives it. -/
theorem windowAt_of_first {s : State} {a : Addr} {n : Nat} {off : BitVec 10} (h : WindowAt s a n off) :
    windowAt s.platform a = some n ∧ (a - s.platform.windows.getD n 0).setWidth 10 = off := by
  obtain ⟨w, hw, ha, hfirst⟩ := h
  obtain ⟨hlt, hget⟩ := List.getElem?_eq_some_iff.1 hw
  have hsub : a - w = off.setWidth 64 := by rw [ha, BitVec.add_comm, BitVec.add_sub_cancel]
  constructor
  · rw [windowAt, List.findIdx?_eq_some_iff_getElem]
    refine ⟨hlt, ?_, fun j hj => ?_⟩
    · rw [hget, inRun, hsub]
      have := off.isLt
      simp only [BitVec.toNat_setWidth, decide_eq_true_eq]
      omega
    · have hjl : j < s.platform.windows.length := by omega
      have := hfirst j hj _ (List.getElem?_eq_getElem hjl)
      simp only [inRun, decide_eq_true_eq]
      omega
  · rw [List.getD_eq_getElem?_getD, hw, Option.getD_some, hsub]
    apply BitVec.eq_of_toNat_eq
    have := off.isLt
    simp only [BitVec.toNat_setWidth]
    omega

/-- What the map makes of an access at offset `off` of a window. -/
theorem registerAccess_of_first {s : State} {a : Addr} {n : Nat} {off : BitVec 10} (h : WindowAt s a n off)
    (bytes : Nat) :
    registerAccess s.platform a bytes = if alignedAccess off bytes then some (n, off) else none := by
  obtain ⟨h1, h2⟩ := windowAt_of_first h
  simp only [registerAccess, h1, h2]

/-- An access that begins in no window is no register access. -/
theorem registerAccess_outside {s : State} {a : Addr} (h : ¬InRegisterWindow s a) (bytes : Nat) :
    registerAccess s.platform a bytes = none := by
  simp only [registerAccess, windowAt_eq_none.2 h]

/-- A register access is one of the instance whose window the address lies in. -/
theorem registerAccess_window {pl : Platform} {a : Addr} {bytes k : Nat} {off : BitVec 10}
    (h : registerAccess pl a bytes = some (k, off)) :
    windowAt pl a = some k ∧ k < pl.windows.length ∧ bytes = 8 ∧ off.toNat % 8 = 0 := by
  unfold registerAccess at h
  split at h
  · next k' hk =>
    obtain ⟨hal, h⟩ := Option.ite_none_right_eq_some.1 h
    obtain ⟨rfl, rfl⟩ := Prod.mk.inj (Option.some.inj h)
    rw [alignedAccess, Bool.and_eq_true, beq_iff_eq, beq_iff_eq] at hal
    refine ⟨hk, ?_, hal.1, hal.2⟩
    rw [windowAt, List.findIdx?_eq_some_iff_getElem] at hk
    exact hk.1
  · cases h

/-- Everything an access that is no register access can do. -/
theorem agentAccess_cases (store : Bool) (a : Addr) (n : Nat) (s effect : State) :
    agentAccess store a n s effect = .fault .bufferShared ∨ agentAccess store a n s effect = .fault .tableWrite ∨
      agentAccess store a n s effect = .refused (.deviceAccess a) ∨ agentAccess store a n s effect = .next effect := by
  unfold agentAccess
  extract_lets touched
  split
  · exact .inl rfl
  · split
    · exact .inr (.inl rfl)
    · split
      · exact .inr (.inr (.inl rfl))
      · exact .inr (.inr (.inr rfl))

/-- An access that touches no byte of memory has its effect. -/
theorem agentAccess_of_no_memory {store : Bool} {a : Addr} {n : Nat} {s : State}
    (h : ∀ j < n, InRegisterWindow s (a + BitVec.ofNat 64 j)) (effect : State) :
    agentAccess store a n s effect = .next effect := by
  have hm : memoryAddrs s.platform a n = [] := by
    rw [List.eq_nil_iff_forall_not_mem]
    intro x hx
    obtain ⟨⟨j, hj, rfl⟩, hw⟩ := mem_memoryAddrs.1 hx
    exact hw (h j hj)
  simp [agentAccess, hm]

/-- Making bytes free values touches those bytes alone. -/
theorem scribble_spec (P : Params) (l : List Addr) (s : State) :
    (scribble P l s).core = s.core ∧ (scribble P l s).cur = s.cur ∧ (scribble P l s).others = s.others ∧
    (scribble P l s).tableBuilt = s.tableBuilt ∧ (scribble P l s).tableLock = s.tableLock ∧
    (scribble P l s).platform = s.platform ∧ (scribble P l s).bus = s.bus ∧ (scribble P l s).replies = s.replies ∧
    (Memory.wf s.mem → Memory.wf (scribble P l s).mem) ∧
    ∀ a, a ∉ l → readByte (scribble P l s).mem a = readByte s.mem a := by
  induction l generalizing s with
  | nil => exact ⟨rfl, rfl, rfl, rfl, rfl, rfl, rfl, rfl, id, fun _ _ => rfl⟩
  | cons b l ih =>
    unfold scribble
    obtain ⟨h1, h2, h3, h4, h5, h6, h7, h8, h9, h10⟩ :=
      ih ((draw P s).2.setMem (writeByte b ((draw P s).1.setWidth 8) (draw P s).2.mem))
    refine ⟨h1, h2, h3, h4, h5, h6, h7, h8, fun h => h9 (writeByte_wf _ _ h), fun a ha => ?_⟩
    simp only [List.mem_cons, not_or] at ha
    rw [h10 a ha.2]
    exact readByte_writeByte_ne ha.1 _ _

/-- Each byte made free holds a free value drawn here (R261). -/
theorem scribble_byte (P : Params) (l : List Addr) (s : State) (a : Addr) (h : a ∈ l) :
    ∃ n, s.draws ≤ n ∧ readByte (scribble P l s).mem a = (P.free n).setWidth 8 := by
  induction l generalizing s with
  | nil => cases h
  | cons b l ih =>
    unfold scribble
    by_cases hl : a ∈ l
    · obtain ⟨n, hn, e⟩ := ih ((draw P s).2.setMem (writeByte b ((draw P s).1.setWidth 8) (draw P s).2.mem)) hl
      exact ⟨n, Nat.le_of_succ_le hn, e⟩
    · have hb : a = b := by
        rcases List.mem_cons.1 h with h | h
        · exact h
        · exact absurd h hl
      refine ⟨s.draws, Nat.le_refl _, ?_⟩
      rw [(scribble_spec P l _).2.2.2.2.2.2.2.2.2 a hl, hb]
      exact readByte_writeByte_same _ _ _

end Sys2Proof.Machine
end

