-- ==== Sys2Proof/Laws/PerInstr.lean ====
section
/-! SUPPORT. Statements made instruction by instruction. `Encoded`: a well-formed instruction is one byte below 0x80
whose key matches the instruction's own row of spec/opcode_table.json (R84, R91). -/

namespace Sys2Proof.Laws.Encoded

/-- What `Encoded` says of one instruction. -/
def Statement (i : Instr) : Prop :=
  i.WellFormed →
    (∃ b, encode i = [b] ∧ b.toNat < 128) ∧
      ∃ row, opcodeTable[i.row]? = some row ∧ encodeKey i &&& row.mask = row.bits

/-- A key laid out as a byte leaves bit 7 clear. -/
theorem one_byte (i : Instr) : ∃ b, encode i = [b] ∧ b.toNat < 128 := by
  refine ⟨_, rfl, ?_⟩
  have := (encodeKey i).isLt
  rw [BitVec.toNat_setWidth]
  omega

theorem nop (fmt : Format) : Statement (.nop fmt) := fun _ =>
  ⟨one_byte _, _, rfl, by cases fmt <;> decide⟩
theorem computeS8 : Statement .computeS8 := fun _ => ⟨one_byte _, _, rfl, by decide⟩
theorem computeS16 : Statement .computeS16 := fun _ => ⟨one_byte _, _, rfl, by decide⟩
theorem computeS24 : Statement .computeS24 := fun _ => ⟨one_byte _, _, rfl, by decide⟩
theorem computeS32 : Statement .computeS32 := fun _ => ⟨one_byte _, _, rfl, by decide⟩
theorem computeS64 : Statement .computeS64 := fun _ => ⟨one_byte _, _, rfl, by decide⟩
theorem computeFloat : Statement .computeFloat := fun _ => ⟨one_byte _, _, rfl, by decide⟩
theorem computeDouble : Statement .computeDouble := fun _ => ⟨one_byte _, _, rfl, by decide⟩
theorem computeComplex : Statement .computeComplex := fun _ => ⟨one_byte _, _, rfl, by decide⟩

theorem reserved2 (fmt : Format) (op : BitVec 4) : Statement (.reserved2 fmt op) := fun h =>
  ⟨one_byte _, _, rfl, by revert h; revert op; cases fmt <;> decide⟩
theorem reserved4 (fmt : Format) (op : BitVec 4) : Statement (.reserved4 fmt op) := fun h =>
  ⟨one_byte _, _, rfl, by revert h; revert op; cases fmt <;> decide⟩
theorem reserved8 (fmt : Format) (op : BitVec 4) : Statement (.reserved8 fmt op) := fun h =>
  ⟨one_byte _, _, rfl, by revert h; revert op; cases fmt <;> decide⟩

end Sys2Proof.Laws.Encoded
end

