-- ==== Sys2Proof/Laws/Registers.lean ====
section
/-! SUPPORT. Laws of the register file: the offset map, the enumerated fields and the ROUTE slots. -/

namespace Sys2Proof.Machine

/-- The register map finds each register at its offset (R24). -/
theorem regAt_regOffset (reg : Reg) : regAt (regOffset reg) = some reg := by cases reg <;> decide

theorem regOffset_aligned (reg : Reg) : alignedAccess (regOffset reg) 8 = true := by cases reg <;> decide

theorem regAt_cmd {off : BitVec 10} (h : regAt off = some .cmd) : off = 0 := by
  have := List.find?_some h
  exact (eq_of_beq this).symm

theorem legalTag_le (t : BitVec 4) : (legalTag t).toNat ≤ 8 := by
  unfold legalTag; split
  · assumption
  · decide

theorem toNat_append_add {w v : Nat} (x : BitVec w) (y : BitVec v) :
    (x ++ y).toNat = x.toNat * 2 ^ v + y.toNat := by
  rw [BitVec.toNat_append, ← Nat.shiftLeft_add_eq_or_of_lt y.isLt, Nat.shiftLeft_eq]

/-- Eight slots laid side by side. -/
theorem eight_slots (t0 t1 t2 t3 t4 t5 t6 t7 : BitVec 4) :
    (t7 ++ t6 ++ t5 ++ t4 ++ t3 ++ t2 ++ t1 ++ t0 : BitVec 32).toNat =
      ((((((t7.toNat * 16 + t6.toNat) * 16 + t5.toNat) * 16 + t4.toNat) * 16 + t3.toNat) * 16 + t2.toNat) * 16 +
        t1.toNat) * 16 + t0.toNat := by
  iterate 7 rw [toNat_append_add]
  rfl

theorem routeSlot_toNat (r : BitVec 32) (i : Nat) : (routeSlot r i).toNat = r.toNat / 16 ^ i % 16 := by
  rw [routeSlot, BitVec.extractLsb'_toNat, Nat.shiftRight_eq_div_pow, Nat.pow_mul]

/-- A slot of a stored ROUTE word (R25, R40). -/
theorem routeSlot_fieldRoute (d : Data) (i : Nat) (h : i < 8) :
    routeSlot (fieldRoute d) i = legalTag (d.extractLsb' (4 * i) 4) := by
  apply BitVec.eq_of_toNat_eq
  rw [routeSlot_toNat]
  let slot (j : Nat) : BitVec 4 := legalTag (d.extractLsb' (4 * j) 4)
  have e := eight_slots (slot 0) (slot 1) (slot 2) (slot 3) (slot 4) (slot 5) (slot 6) (slot 7)
  show (fieldRoute d).toNat / 16 ^ i % 16 = (slot i).toNat
  rw [show (fieldRoute d).toNat = _ from e]
  have hlt : ∀ j, (slot j).toNat < 16 := fun j => (slot j).isLt
  have h0 := hlt 0
  have h1 := hlt 1
  have h2 := hlt 2
  have h3 := hlt 3
  have h4 := hlt 4
  have h5 := hlt 5
  have h6 := hlt 6
  have h7 := hlt 7
  interval_cases i <;> omega

/-- A stored ROUTE word is legal (R25). -/
theorem legalRoute_fieldRoute (d : Data) : LegalRoute (fieldRoute d) := by
  intro i hi
  rw [routeSlot_fieldRoute d i hi]
  exact legalTag_le _

/-- A stored length is at most MAX_FRAMES (R26). -/
theorem fieldLength_le (P : Params) (d : Data) : (fieldLength P d).toNat ≤ P.maxFrames := by
  have h := (fieldU32 d).isLt
  simp only [fieldLength, BitVec.toNat_ofNat]
  omega

theorem fieldLength_toNat (P : Params) (d : Data) : (fieldLength P d).toNat = min (d.toNat % 2 ^ 32) P.maxFrames := by
  have h := (fieldU32 d).isLt
  have e : (fieldU32 d).toNat = d.toNat % 2 ^ 32 := by simp [fieldU32]
  simp only [fieldLength, BitVec.toNat_ofNat, e]
  omega

theorem storeReg_bufferLength (P : Params) (reg : Reg) (d : Data) (r : Regs) :
    (storeReg P reg d r).bufferLength = r.bufferLength ∨ (storeReg P reg d r).bufferLength = fieldLength P d := by
  cases reg <;> first | exact .inl rfl | exact .inr rfl

theorem storeReg_route (P : Params) (reg : Reg) (d : Data) (r : Regs) (src : Source) :
    (storeReg P reg d r).route src = r.route src ∨ (storeReg P reg d r).route src = fieldRoute d := by
  cases reg <;> cases src <;> first | exact .inl rfl | exact .inr rfl

/-- A register write keeps the registers legal (R25, R26). -/
theorem legalRegs_storeReg (reg : Reg) (d : Data) {r : Regs} (h : LegalRegs r) :
    LegalRegs (storeReg Config.params reg d r) := by
  refine ⟨?_, fun src => ?_⟩
  · rcases storeReg_bufferLength Config.params reg d r with e | e <;> rw [e]
    · exact h.1
    · exact fieldLength_le _ _
  · rcases storeReg_route Config.params reg d r src with e | e <;> rw [e]
    · exact h.2 src
    · exact legalRoute_fieldRoute d

theorem legalRegs_reset : LegalRegs Regs.reset := by
  refine ⟨Nat.zero_le _, fun src i hi => ?_⟩
  cases src <;> (interval_cases i <;> decide)

theorem legalWork_unspecified : LegalWork Work.unspecified :=
  ⟨fun src => by cases src <;> exact Nat.zero_le _, Nat.zero_le _⟩

/-- An instance at reset is legal (R50). -/
theorem legalCore_reset : LegalCore CoreState.reset :=
  ⟨legalRegs_reset, legalWork_unspecified, fun h => by cases h⟩

theorem legalWork_workAfterStore (reg : Reg) {w : Work} (h : LegalWork w) : LegalWork (workAfterStore reg w) := by
  unfold workAfterStore
  split
  · exact legalWork_unspecified
  · exact legalWork_unspecified
  · exact h

/-- A stage keeps an instance's working buffers within MAX_FRAMES (R43). -/
theorem Frame.legalWork {F : Format} {s t : State} (h : Frame F s t) (hr : LegalRegs s.core.regs)
    (hw : LegalWork s.core.work) : LegalWork t.core.work := by
  have hl : s.core.frames ≤ Config.maxFrames := hr.1
  refine ⟨fun src => ?_, ?_⟩
  · have h1 := h.work src
    have h2 := hw.1 src
    omega
  · have h1 := h.pitch
    have h2 := hw.2
    omega

/-- What the atomic step of a COMPUTE leaves is a legal instance. -/
theorem Computed.legalCore {F : Format} {s t : State} (h : Computed F s t) (hl : LegalCore s.core) :
    LegalCore t.core := by
  have hr : t.core.regs = s.core.regs := h.frame.regs
  refine ⟨hr ▸ hl.1, h.frame.legalWork hl.1 hl.2.1, fun hb => ?_⟩
  simp [CoreState.busy, h.idle] at hb

end Sys2Proof.Machine
end

