-- ==== Sys2Proof/Laws/Sources.lean ====
section
/-! SUPPORT. The folds over SOURCES written out source by source, and what drawing a NaN's payload leaves. -/

namespace Sys2Proof.Machine

/-- What leaves the arithmetic is the value itself, or some NaN (R15). -/
theorem settled_settle (P : Params) (x : F64) (s : State) : Settled x (settle P x s).1 := by
  unfold Settled
  by_cases h : Fp.isNaN x = true
  · rw [if_pos h, isNaN_settle, h]
  · rw [if_neg h, settle_of_number P (by simpa using h)]

/-- A state that only drew is the old one but for the counter. -/
theorem OnlyDraws.eq {s t : State} (h : OnlyDraws s t) : t = { s with draws := t.draws } := by
  obtain ⟨h1, h2, h3, h4, h5, h6, h7, h8, h9, _⟩ := h
  cases s
  cases t
  simp_all

/-- One routed source's factor of the gain (R210). -/
theorem bendGain_cases (src : Source) (x v : F64) :
    bendGain src x v = if src.isEnv then Fp.mul v x else Fp.mul v (Fp.div (Fp.add x Fp.one) Fp.two) := rfl

/-- The gain, source by source (R210). -/
theorem gain_eq (P : Params) (i : Nat) (c : CoreState) :
    let by_ (src : Source) (g : F64) : F64 :=
      if routes c.regs src .volume then bendGain src (c.sourceAt P src i) g else g
    gain P i c = by_ .noise (by_ .lfo1 (by_ .lfo0 (by_ .env1 (by_ .env0 c.regs.volume)))) := by
  intro by_
  simp only [gain, sources, List.foldl, by_]

/-- The tuning, source by source (R193). -/
theorem tuning_eq (P : Params) (i : Nat) (c : CoreState) :
    let by_ (src : Source) (tun : F64) : F64 :=
      if routes c.regs src .pitchTuning then tuneBy src (c.sourceAt P src i) tun else tun
    tuning P i c = by_ .noise (by_ .lfo1 (by_ .lfo0 (by_ .env1 (by_ .env0 c.regs.pitchTuning)))) := by
  intro by_
  simp only [tuning, sources, List.foldl, by_]

/-- The increment a frame leaves is that of its ratio (R190, R194). -/
theorem pitchFrame_incr (P : Params) (root : F64) (X : List F64) (s : State) (i : Nat) :
    (pitchFrame P root X s i).core.incr = (frameIncr P root i s).1 := by
  unfold pitchFrame
  extract_lets inc s1 p row v s2
  have hv : v.2.core = s1.core := (settle_onlyDraws P _ _).core
  show v.2.core.incr = _
  rw [hv]
  rfl

/-- The same of a binary32 result (R224). -/
theorem settled32_settle32 (P : Params) (x : F32) (s : State) : Settled32 x (settle32 P x s).1 := by
  unfold Settled32 settle32
  split
  · exact isNaN32_nanOf32 _
  · rfl

/-- The bends, source by source (R161). -/
theorem bendAll_eq (P : Params) (k : OscId) (i : Nat) (c : CoreState) :
    bendAll P k i c = bend P k i c (bend P k i c (bend P k i c (bend P k i c (bend P k i c
      ⟨(c.regs.osc k).frequency, (c.regs.osc k).phase, (c.regs.osc k).volume⟩ .env0) .env1) .lfo0) .lfo1) .noise := by
  simp only [bendAll, sources, List.foldl]

/-- Writing the next entry of W_PITCH, or an earlier one, writes that entry and no other. -/
theorem putEntry_getElem? (b : List F64) (i : Nat) (v : F64) (h : i ≤ b.length) :
    (putEntry b i v)[i]? = some v ∧ ∀ j, j ≠ i → (putEntry b i v)[j]? = b[j]? := by
  have hl : (b.take i).length = i := by simp [h]
  unfold putEntry
  refine ⟨?_, fun j hj => ?_⟩
  · rw [List.getElem?_append_right (by omega), hl]; simp
  · rcases Nat.lt_or_gt_of_ne hj with hj | hj
    · rw [List.getElem?_append_left (by omega), List.getElem?_take_of_lt hj]
    · rw [List.getElem?_append_right (by omega), hl]
      obtain ⟨m, rfl⟩ : ∃ m, j = i + 1 + m := ⟨j - i - 1, by omega⟩
      rw [show i + 1 + m - i = m + 1 by omega, List.getElem?_cons_succ, List.getElem?_drop]

/-- An output frame leaves memory, the registers and the sources' buffers, and writes one entry of W_PITCH (R190). -/
theorem pitchFrame_keeps (P : Params) (root : F64) (X : List F64) (s : State) (i : Nat) :
    (pitchFrame P root X s i).mem = s.mem ∧ (pitchFrame P root X s i).core.regs = s.core.regs ∧
    (∀ src, (pitchFrame P root X s i).core.work.of src = s.core.work.of src) ∧
    ∃ v, (pitchFrame P root X s i).core.work.pitch = putEntry s.core.work.pitch i v := by
  unfold pitchFrame
  extract_lets inc s1 p row v s2
  have hd : OnlyDraws s inc.2 := frameIncr_onlyDraws P root i s
  have hv : OnlyDraws row.2 v.2 := settle_onlyDraws P _ _
  have hc : v.2.core = inc.2.core.setIncr inc.1 := hv.core
  refine ⟨?_, ?_, fun src => ?_, v.1, ?_⟩
  · show v.2.mem = _
    rw [hv.mem]; exact hd.mem
  · show v.2.core.regs = _
    rw [hc, ← hd.core]; rfl
  · have : v.2.core.work = s.core.work := by rw [hc, ← hd.core]; rfl
    rw [← this]
    cases src <;> rfl
  · show putEntry v.2.core.work.pitch i v.1 = _
    rw [hc, ← hd.core]; rfl

/-- After the first `n` output frames W_PITCH has `n` entries, and the registers are as they were. -/
theorem pitchFrames_length (P : Params) (root : F64) (X : List F64) (s : State) (n : Nat) :
    n ≤ ((List.range n).foldl (pitchFrame P root X) s).core.work.pitch.length ∧
    ((List.range n).foldl (pitchFrame P root X) s).core.regs = s.core.regs := by
  induction n with
  | zero => exact ⟨Nat.zero_le _, rfl⟩
  | succ n ih =>
    rw [List.range_succ, List.foldl_append]
    obtain ⟨_, hr, _, v, hp⟩ := pitchFrame_keeps P root X ((List.range n).foldl (pitchFrame P root X) s) n
    simp only [List.foldl]
    refine ⟨?_, hr.trans ih.2⟩
    rw [hp, putEntry, List.length_append, List.length_take, List.length_cons]
    omega

end Sys2Proof.Machine
end

