-- ==== Sys2Proof/Tests/Slice0.lean ====
section
/-! SUPPORT. Tests of the model: ill-formed terms, words written out from the encodings of spec/30_encoding.md, vectors of
spec/95_test_vectors.md (named in each docstring), and a state that meets the hypotheses of each statement. -/

namespace Sys2Proof.Tests

open Sys2Proof Sys2Proof.Machine

/- One test at a time: each waits for the kernel, and waiting threads hold memory. -/
set_option Elab.async false

/-! ## Well-formedness: an ill-formed term for each check -/

theorem test_reserved2_refuses_other_codes :
    ¬(Instr.reserved2 .s8 1).WellFormed ∧ ¬(Instr.reserved2 .s8 4).WellFormed ∧ (Instr.reserved2 .s8 3).WellFormed := by
  decide

theorem test_reserved4_refuses_other_codes :
    ¬(Instr.reserved4 .s8 3).WellFormed ∧ ¬(Instr.reserved4 .s8 8).WellFormed ∧ (Instr.reserved4 .s8 7).WellFormed := by
  decide

theorem test_reserved8_refuses_other_codes :
    ¬(Instr.reserved8 .s8 7).WellFormed ∧ (Instr.reserved8 .s8 8).WellFormed ∧ (Instr.reserved8 .s8 15).WellFormed := by
  decide

/-! ## Decoding: each row's word, written as FORMAT (3 bits) and OP (4 bits) of R84 with bit 7 of the byte 0 -/

/-- R83, R84: OP = 0000, FORMAT ignored. -/
theorem test_decode_nop : decode [0b0_101_0000#8] = .instr (.nop .float) [] := by decide
/-- R85, R86: FORMAT 000. -/
theorem test_decode_s8 : decode [0b0_000_0001#8] = .instr .computeS8 [] := by decide
/-- FORMAT 001. -/
theorem test_decode_s16 : decode [0b0_001_0001#8] = .instr .computeS16 [] := by decide
/-- FORMAT 010. -/
theorem test_decode_s24 : decode [0b0_010_0001#8] = .instr .computeS24 [] := by decide
/-- FORMAT 011 (V-ENC-1). -/
theorem test_decode_s32 : decode [0b0_011_0001#8] = .instr .computeS32 [] := by decide
/-- FORMAT 100. -/
theorem test_decode_s64 : decode [0b0_100_0001#8] = .instr .computeS64 [] := by decide
/-- FORMAT 101. -/
theorem test_decode_float : decode [0b0_101_0001#8] = .instr .computeFloat [] := by decide
/-- FORMAT 110. -/
theorem test_decode_double : decode [0b0_110_0001#8] = .instr .computeDouble [] := by decide
/-- FORMAT 111. -/
theorem test_decode_complex : decode [0b0_111_0001#8] = .instr .computeComplex [] := by decide
/-- OP = 001x. -/
theorem test_decode_reserved2 : decode [0b0_001_0011#8] = .instr (.reserved2 .s16 3) [] := by decide
/-- OP = 01xx (V-ENC-4). -/
theorem test_decode_reserved4 : decode [0b0_110_0111#8] = .instr (.reserved4 .double 7) [] := by decide
/-- OP = 1xxx. -/
theorem test_decode_reserved8 : decode [0b0_111_1000#8] = .instr (.reserved8 .complex 8) [] := by decide
/-- Bit 7 of the byte is no bit of a key. -/
theorem test_decode_refuses_bit_seven : decode [0x81#8] = .notAKey 0x81 ∧ decode [] = .noBytes := by decide
/-- V-ENC-18: 8 keys give NOP, 8 a COMPUTE, 112 a reserved command. -/
theorem test_key_counts :
    ((List.range 128).filter fun k => (decodeKey (BitVec.ofNat 7 k)).row = 0).length = 8 ∧
    ((List.range 128).filter fun k => (decodeKey (BitVec.ofNat 7 k)).computeFormat.isSome).length = 8 ∧
    ((List.range 128).filter fun k => 9 ≤ (decodeKey (BitVec.ofNat 7 k)).row).length = 112 := by decide +kernel

/-! ## States and parameters of the tests -/

/-- Parameters like those spec/95_test_vectors.md assumes: the default kernel and table, MAX_FRAMES = 64, SIN of 0 and
of 1.5707963267948966, POW2 of whole numbers. -/
def testParams : Params where
  maxFrames := 64
  freqEpsilon := 0x3EB0C6F7A0B5ED8D
  fullScaleS32 := 0x41DFFFFFFFC00000
  noiseModeFixed := 0
  coeff := defaultCoeff
  sin := fun x => if x = 0x3FF921FB54442D18 then Fp.one else Fp.zero
  pow2 := fun x => Fp.pack false ((1023 + Fp.trunc x).toNat * 2 ^ 52)
  envKernel := defaultEnvKernel
  segmentBasis := .noteQuarters
  lfoKernel := fun _ _ => Fp.zero
  free := fun n => BitVec.ofNat 64 n
  stale := fun _ => Fp.zero

/-- `Rig(F, 8, L)` of spec/95_test_vectors.md. -/
def rig (F : Format) (L : Nat) : Regs :=
  { Regs.reset with
    bufferBase := 0x8000, stride := 1, format := F, samplerate := 8, bufferLength := BitVec.ofNat 32 L
    volume := Fp.one }

/-- The machine with those registers, no window, no device and every address reachable. -/
def rigState (r : Regs) : State :=
  { State.reset with core := { CoreState.reset with regs := r }, platform := ⟨[], [], [], []⟩ }

/-- The rig with OSC0 of the given kind at 1.0 Hz and the given volume, at absolute time `t`. -/
def oscRig (F : Format) (L : Nat) (kind : Kind) (volume : F64) (t : Nat) : State :=
  rigState { rig F L with osc0 := ⟨kind, Fp.one, Fp.zero, volume⟩, offset := BitVec.ofNat 64 t }

/-- With `n`-bit elements stored from frame 0 on. -/
def withElements {n : Nat} (F : Format) (vs : List (BitVec n)) (s : State) : State :=
  (List.range vs.length).foldl (fun s i => storeBits F i (vs.getD i 0) s) s

/-- What the elements hold after a COMPUTE. -/
def elementsAfter (n : Nat) (F : Format) (s : State) : List (BitVec n) :=
  match computeCommand testParams F s with
  | .next t => (List.range s.core.frames).map fun i => loadBits n F i t
  | .fault _ => []
  | .refused _ => []

/-! ## The instructions -/

/-- R100's example. -/
theorem test_nop_changes_nothing : exec (.nop .float) (rigState (rig .float 2)) = .next (rigState (rig .float 2)) := rfl
/-- R107's example. -/
theorem test_reserved_change_nothing :
    exec (.reserved2 .s8 2) (rigState (rig .s8 2)) = .next (rigState (rig .s8 2)) ∧
    exec (.reserved4 .s8 7) (rigState (rig .s8 2)) = .next (rigState (rig .s8 2)) ∧
    exec (.reserved8 .s8 15) (rigState (rig .s8 2)) = .next (rigState (rig .s8 2)) := ⟨rfl, rfl, rfl⟩
/-- V-FMT-1: wrap_8(100 + 63). -/
theorem test_computeS8_wraps :
    elementsAfter 8 .s8 (withElements .s8 [100#8] (oscRig .s8 1 .square 0x3FE0000000000000 0)) = [BitVec.ofInt 8 (-93)] := by
  decide +kernel
/-- V-FMT-5: wrap_16(−65535). -/
theorem test_computeS16_wraps :
    elementsAfter 16 .s16 (withElements .s16 [BitVec.ofInt 16 (-32768)] (oscRig .s16 1 .sawtooth Fp.one 0)) = [1#16] := by
  decide +kernel
/-- V-FMT-6: no wrap at 24 bits. -/
theorem test_computeS24_keeps_32_bits :
    elementsAfter 32 .s24 (withElements .s24 [8388607#32] (oscRig .s24 1 .square Fp.one 0)) = [16777214#32] := by
  decide +kernel
/-- V-FMT-9: wrap_32(2^31). -/
theorem test_computeS32_wraps :
    elementsAfter 32 .s32 (withElements .s32 [1#32] (oscRig .s32 1 .square Fp.one 0)) = [0x80000000#32] := by
  decide +kernel
/-- V-FMT-8: −1073741823.5 is truncated. -/
theorem test_computeS32_truncates :
    elementsAfter 32 .s32 (oscRig .s32 1 .sawtooth Fp.one 2) = [BitVec.ofInt 32 (-1073741823)] := by decide +kernel
/-- V-FMT-11: wrap_64(2^63). -/
theorem test_computeS64_wraps :
    elementsAfter 64 .s64 (oscRig .s64 1 .square Fp.one 0) = [0x8000000000000000#64] := by decide +kernel
/-- V-FMT-13: 2^53 + 1 is rounded by the pitch snapshot. -/
theorem test_computeS64_rounds :
    elementsAfter 64 .s64 (withElements .s64 [9007199254740993#64] (oscRig .s64 1 .square Fp.zero 0)) =
      [9007199254740992#64] := by decide +kernel
/-- V-FMT-14: 0.25 + 0.5. -/
theorem test_computeFloat_adds :
    elementsAfter 32 .float (withElements .float [0x3E800000#32] (oscRig .float 1 .sawtooth Fp.one 6)) =
      [0x3F400000#32] := by decide +kernel
/-- V-FMT-15: the binary32 add rounds 2^−30 away. -/
theorem test_computeFloat_rounds_at_32_bits :
    elementsAfter 32 .float (withElements .float [0x3F800000#32] (oscRig .float 1 .square 0x3E10000000000000 0)) =
      [0x3F800000#32] := by decide +kernel
/-- V-FMT-19: 1.0 + 0.25. -/
theorem test_computeDouble_adds :
    elementsAfter 64 .double (withElements .double [Fp.one] (oscRig .double 1 .triangle 0x3FE0000000000000 3)) =
      [0x3FF4000000000000#64] := by decide +kernel
/-- V-FMT-18: (−0.0) + (+0.0). -/
theorem test_computeDouble_negative_zero :
    elementsAfter 64 .double (withElements .double [Fp.negZero] (oscRig .double 1 .square Fp.zero 0)) = [Fp.zero] := by
  decide +kernel
/-- V-FMT-20: 1.5 + 0.25; the imaginary part 2.0 stays. -/
theorem test_computeComplex_real_part_only :
    elementsAfter 128 .complex
      (withElements .complex [0x4000000000000000#64 ++ 0x3FF8000000000000#64] (oscRig .complex 1 .sawtooth Fp.one 5)) =
      [0x4000000000000000#64 ++ 0x3FFC000000000000#64] := by decide +kernel

/-! ## The stages -/

/-- R166's example: a quarter of a period of a sine. -/
theorem test_sine : elementsAfter 64 .double (oscRig .double 1 .sine Fp.one 2) = [Fp.one] := by decide +kernel

/-- V-CMD-5: frames 0 and 1 share element 0, which gets −1.0 and then −0.75. -/
theorem test_stride_zero_aliases :
    elementsAfter 64 .double
      (rigState { rig .double 2 with stride := 0, osc0 := ⟨.sawtooth, Fp.one, Fp.zero, Fp.one⟩ }) =
      [0xBFFC000000000000#64, 0xBFFC000000000000#64] := by decide +kernel

/-- The rig with an envelope of levels 0.0, 1.0, 0.5, 0.25 routed to OSC0_FREQUENCY. -/
def envState (N O L : Nat) : State :=
  rigState { rig .double L with
    frameCount := BitVec.ofNat 64 N, offset := BitVec.ofNat 64 O
    env0 := ⟨Fp.zero, Fp.one, 0x3FE0000000000000, 0x3FD0000000000000, Fp.zero, 1⟩ }

/-- V-ENV-6: begins inside quarter 1 and crosses into quarter 2. -/
theorem test_envelope_crosses_quarters :
    (envDrive testParams .env0 (envState 8 3 3)).core.work.env0 =
      [0x3FE8000000000000, 0x3FE0000000000000, 0x3FD8000000000000] := by decide +kernel

/-- V-ENV-3: frames past the note end keep 1.0. -/
theorem test_envelope_past_the_note :
    (envDrive testParams .env0 (envState 8 6 4)).core.work.env0 =
      [0x3FD0000000000000, 0x3FD0000000000000, Fp.one, Fp.one] := by decide +kernel

/-- V-LFO-3: an LFO of 0.0 halves the frequency, so frame 1 is −0.875. -/
theorem test_lfo_bends_the_frequency :
    elementsAfter 64 .double
      (rigState { rig .double 2 with
        osc0 := ⟨.sawtooth, Fp.one, Fp.zero, Fp.one⟩, lfo0 := ⟨.sine, 0, 0, 0, 1⟩ }) =
      [Fp.negOne, 0xBFEC000000000000#64] := by decide +kernel

/-- V-PIT-3 on four frames of 0.0, 10.0, 20.0, 30.0: ratio 2.0 decimates, clamped at the end. -/
theorem test_pitch_ratio_two :
    elementsAfter 64 .double
      (withElements .double [Fp.ofInt 0, Fp.ofInt 10, Fp.ofInt 20, Fp.ofInt 30]
        (rigState { rig .double 4 with pitchTuning := Fp.twelveHundred })) =
      [Fp.ofInt 0, Fp.ofInt 20, Fp.ofInt 30, Fp.ofInt 30] := by decide +kernel

/-- V-PIT-5's first frames: ratio 0.5 interpolates 4.375, truncated to 4. -/
theorem test_pitch_ratio_half :
    elementsAfter 8 .s8
      (withElements .s8 [0#8, 10#8, 20#8, 30#8]
        (rigState { rig .s8 4 with pitchTuning := Fp.negate Fp.twelveHundred })) = [0#8, 4#8, 10#8, 15#8] := by
  decide +kernel

/-- V-VOL-1: truncation toward zero. -/
theorem test_volume_truncates :
    elementsAfter 16 .s16
      (withElements .s16 [3#16, BitVec.ofInt 16 (-3), 7#16, BitVec.ofInt 16 (-7)]
        (rigState { rig .s16 4 with volume := 0x3FE0000000000000 })) =
      [1#16, BitVec.ofInt 16 (-1), 3#16, BitVec.ofInt 16 (-3)] := by decide +kernel

/-! ## Registers and scripts -/

/-- V-ENC-5 to V-ENC-9, V-ENC-12 and V-ENC-15. -/
theorem test_register_words :
    readReg testParams .format (writeReg testParams .format 0xF CoreState.reset) = 7 ∧
    readReg testParams .osc0Kind (writeReg testParams .osc0Kind 0x6 CoreState.reset) = 0 ∧
    readReg testParams .osc0Kind (writeReg testParams .osc0Kind 0xC CoreState.reset) = 4 ∧
    readReg testParams .env0Route (writeReg testParams .env0Route 0xF1 CoreState.reset) = 1 ∧
    readReg testParams .env0Route (writeReg testParams .env0Route 0xFFFFFFFF00000081 CoreState.reset) = 0x81 ∧
    readReg testParams .stride (writeReg testParams .stride 0x100000003 CoreState.reset) = 3 ∧
    readReg testParams .volume (writeReg testParams .volume 0x7FF8000000000001 CoreState.reset) =
      0x7FF8000000000001 := by decide +kernel

/-- V-ENC-10 and V-ENC-11, with MAX_FRAMES = 64. -/
theorem test_buffer_length_clamps :
    readReg testParams .bufferLength (writeReg testParams .bufferLength (2 ^ 40 + 5) CoreState.reset) = 5 ∧
    readReg testParams .bufferLength (writeReg testParams .bufferLength 0xFFFFFFFF CoreState.reset) = 64 := by
  decide +kernel

/-- R93: `ROUTE ENV0, 1, VOLUME` after slot 0 holds OSC0_FREQUENCY. -/
theorem test_route_line :
    expandLine 0 [(.env0, 1)] (.route .env0 1 (some .volume)) =
      ([.regWrite 0 0x128 8 0x81 false], [(.env0, 0x81), (.env0, 1)]) := by decide +kernel

/-- R93: after `WRF ENV0_ROUTE, 1.0` the value last written is the pattern of 1.0; the slot ROUTE names is replaced. -/
theorem test_route_after_wrf :
    (expand 0 [.wrf .env0Route ⟨false, 1, 1⟩ false, .route .env0 0 (some .osc0Phase)]).getLast? =
      some (.regWrite 0 0x128 8 0x3FF0000000000002 false) := by decide +kernel

/-- R92: a MEM line is one store for each element. -/
theorem test_mem_line :
    expand 0 [.mem .s16 0x1000 [.int 1, .int (-2)]] =
      [.memWrite 0x1000 [1, 0] false, .memWrite 0x1002 [0xFE, 0xFF] false] := by decide +kernel

/-- A row's word runs as the first instruction after reset (R82, R84). -/
theorem test_fetch_word_runs :
    step (State.reset.withFetchWord 8 0x31) =
      .next { State.reset with core := { CoreState.reset with regs := { Regs.reset with format := .s32 } } } := rfl

/-! ## Witnesses: a state and operands that meet the hypotheses of each statement -/

/-- The state whose next event is `e`. -/
def next (e : Event) (s : State) : State := s.setBus [e]

/-- Two frames of each format, at stride 1 from 0x8000. -/
def ready (F : Format) : State := rigState (rig F 2)

/-- The same with the COMPUTE in flight. -/
def running (F : Format) : State := (ready F).begin F

/-- Every COMPUTE of the rig meets its duties. -/
theorem ready_duties (F : Format) : DutiesMet F (ready F) := by
  rw [← computeFault_eq_none]
  cases F <;> decide +kernel

/-- And completes. -/
theorem ready_completes (F : Format) : ∃ t, exec (Instr.compute F) (ready F) = .next t := by
  have hf : (Instr.compute F).computeFormat = some F := by cases F <;> rfl
  rw [exec_of_format hf]
  refine ⟨(stages Config.params F ((ready F).begin F)).complete, ?_⟩
  unfold runCompute
  rw [command_of_idle (by rfl), if_neg (by cases F <;> decide),
    (computeFault_eq_none (s := ready F)).2 (ready_duties F)]

/-- DecodeAfterEncode: each constructor that WellFormed restricts, at the ends of its range. -/
theorem test_witness_decode_after_encode :
    (Instr.nop .complex).WellFormed ∧ (Instr.reserved2 .s8 2).WellFormed ∧ (Instr.reserved2 .s8 3).WellFormed ∧
    (Instr.reserved4 .s8 4).WellFormed ∧ (Instr.reserved4 .s8 7).WellFormed ∧ (Instr.reserved8 .s8 8).WellFormed ∧
    (Instr.reserved8 .s8 15).WellFormed := by decide

/-- DecoderSelectsByOpThenFormat: each OP class at its ends. -/
theorem test_witness_decoder : (0#4 = 0) ∧ (1#4 = 1) ∧ 2 ≤ (2#4).toNat ∧ 2 ≤ (15#4).toNat := by decide

/-- The rig in S8 on a platform of two instances, whose windows lie at 0x100 and 0x800. -/
def two : State := { ready .s8 with platform := ⟨[0x100, 0x800], [], [], []⟩ }

/-- StepRunsDecodedInstruction: a NOP and a COMPUTE whose write is overlapped. -/
theorem test_witness_step_overlapped :
    (decodeKey (dispatchKey (two.coreOf 0).regs.format 0x30)).computeFormat = none ∧
    (decodeKey (dispatchKey (two.coreOf 0).regs.format 0x31)).computeFormat = some .s8 ∧
    (next (.regWrite 0 0x000 8 0x31 true) two).bus = .regWrite 0 0x000 8 0x31 true :: [] := ⟨rfl, rfl, rfl⟩

/-- R198: with k past the end, row 128 of the default table and X[L − 1] = 2 − 2^−52, the ordered sum is 2 − 2^−51,
as binary64 rounds it (log 32). -/
theorem test_interpolate_past_the_end :
    interpolate (defaultCoeff 128) [0x3FFFFFFFFFFFFFFF] 2 = 0x3FFFFFFFFFFFFFFE := by decide +kernel

/-- StepRunsDecodedInstruction, and HasInstance wherever it is a premise: the addressed instance, and the last one of a
platform with two. -/
theorem test_witness_step :
    (HasInstance State.reset 0 ∧
      (next (.regWrite 0 0x000 8 1 false) State.reset).bus = .regWrite 0 0x000 8 1 false :: []) ∧
    HasInstance two 1 ∧ (next (.regWrite 1 0x000 8 0x31 false) two).bus = .regWrite 1 0x000 8 0x31 false :: [] :=
  ⟨⟨.inl rfl, rfl⟩, .inr (by decide), rfl⟩

/-- HostWriteStoresItsRegister, for a register of each word format, on the addressed instance and on another. -/
theorem test_witness_host_write :
    ∀ reg ∈ [Reg.bufferBase, .stride, .bufferLength, .format, .osc0Kind, .noiseRoute, .status, .noiseMode],
      reg ≠ .cmd ∧ ∀ n ∈ [0, 1], (two.coreOf n).busy = false ∧
        (next (.regWrite n (regOffset reg) 8 0xFF false) two).bus = .regWrite n (regOffset reg) 8 0xFF false :: [] := by
  decide

/-- ReservedFieldValuesStoreZero: the first and last reserved code of a KIND and of a slot. -/
theorem test_witness_reserved_values :
    4 < (5 : Data).toNat % 8 ∧ 4 < (7 : Data).toNat % 8 ∧ 8 < dataSlot 9 0 ∧ 8 < dataSlot 0xF0000000 7 ∧
    ¬4 < (4 : Data).toNat % 8 ∧ ¬8 < dataSlot 8 0 := by decide

/-- OnlyAlignedAccessesReachRegisters, by offset: accesses of another form are 4 bytes wide, or at 0x04C. -/
theorem test_witness_aligned :
    (Reg.volume ≠ .cmd ∧ (two.coreOf 1).busy = false ∧
      (next (.regWrite 1 (regOffset .volume) 8 1 false) two).bus = .regWrite 1 (regOffset .volume) 8 1 false :: []) ∧
    ((4 ≠ 8 ∨ (0x048 : BitVec 10).toNat % 8 ≠ 0) ∧
      (next (.regWrite 1 0x048 4 1 false) two).bus = .regWrite 1 0x048 4 1 false :: []) ∧
    ((8 ≠ 8 ∨ (0x04C : BitVec 10).toNat % 8 ≠ 0) ∧
      (next (.regRead 1 0x04C 8) two).bus = .regRead 1 0x04C 8 :: []) := by decide

/-- OnlyAlignedAccessesReachRegisters, by byte address: CMD of instance 1, whose window begins at 0x800, its VOLUME, the
last slot of the window, and four bytes that end at the end of the window. -/
theorem test_witness_window :
    WindowAt two 0x800 1 0x000 ∧ WindowAt two 0x848 1 (regOffset .volume) ∧ WindowAt two 0xBF8 1 0x3F8 ∧
    (WindowAt two 0xBFC 1 0x3FC ∧ (∀ j < 4, InRegisterWindow two (0xBFC + BitVec.ofNat 64 j)) ∧ (4 ≠ 8)) := by
  have h : ∀ a : Addr, 0x800 ≤ a.toNat → a.toNat < 0xC00 →
      ∀ m < 1, ∀ v, two.platform.windows[m]? = some v → 0x400 ≤ (a - v).toNat := by
    intro a ha hb m hm v hv
    obtain rfl : m = 0 := by omega
    obtain rfl : (0x100 : Addr) = v := Option.some.inj hv
    rw [BitVec.toNat_sub]
    have h100 : (0x100 : Addr).toNat = 0x100 := by decide
    omega
  refine ⟨⟨0x800, rfl, by decide, h _ (by decide) (by decide)⟩, ⟨0x800, rfl, by decide, h _ (by decide) (by decide)⟩,
    ⟨0x800, rfl, by decide, h _ (by decide) (by decide)⟩, ⟨0x800, rfl, by decide, h _ (by decide) (by decide)⟩, ?_,
    by decide⟩
  intro j hj
  refine ⟨0x800, by decide, ?_⟩
  interval_cases j <;> decide

/-- R80: storing a CMD word by its byte address runs the command; the eight bytes of STATUS read little-endian. -/
theorem test_window_by_address :
    step (next (.memWrite 0x100 [0x07, 0, 0, 0, 0, 0, 0, 0] false) two) = .next two ∧
    step (next (.memRead 0x108 8) (two.begin .s8)) =
      .next ((two.begin .s8).reply (.mem [1, 0, 0, 0, 0, 0, 0, 0])) := ⟨rfl, rfl⟩

/-- UnnamedOffsetsReadZero: the gap after VOLUME and the last slot of the window. -/
theorem test_witness_unnamed :
    (∀ reg ∈ allRegs, regOffset reg ≠ 0x050) ∧ (∀ reg : Reg, regOffset reg ≠ 0x050) ∧
    (∀ reg : Reg, regOffset reg ≠ 0x3F8) := by
  refine ⟨by decide, fun reg => ?_, fun reg => ?_⟩ <;> cases reg <;> decide

/-- WriteWhileBusyFaults: CMD and a parameter register while a COMPUTE is in flight. -/
theorem test_witness_busy :
    (running .s8).core.busy = true ∧ (two.focus 1 |>.begin .s8 |>.focus 0).cur = 0 ∧
    ((two.focus 1 |>.begin .s8 |>.focus 0).coreOf 1).busy = true ∧
    (next (.regWrite 0 (regOffset .cmd) 8 0 false) (running .s8)).bus =
      .regWrite (running .s8).cur (regOffset .cmd) 8 0 false :: [] ∧
    (next (.regRead 0 (regOffset .status) 8) (running .s8)).bus =
      .regRead (running .s8).cur (regOffset .status) 8 :: [] := by decide

/-- ResetSetsEveryRegister and ResetDuringComputeFreesTheWindow: idle, and with two frames in flight. -/
theorem test_witness_reset :
    (next (.reset 0) (ready .s8)).bus = .reset (ready .s8).cur :: [] ∧ (ready .s8).core.busy = false ∧
    (running .complex).core.inFlight = some .complex ∧
    (next (.reset 0) (running .complex)).bus = .reset (running .complex).cur :: [] ∧
    0 < (running .complex).core.frames ∧ ((running .complex).coreOf 0).inFlight = some .complex ∧ (ready .s8).tableLock = none ∧
    ((ready .s8).setTableLock (some 0)).tableLock = some ((ready .s8).setTableLock (some 0)).cur := by decide

/-- NopAndReservedCommandsChangeNothing: an idle and a busy state. -/
theorem test_witness_nop : (ready .s8).core.busy = false ∧ (running .s8).core.busy = true := by decide

/-- NullBufferComputeDoesNothing. -/
theorem test_witness_null_buffer :
    State.reset.core.busy = false ∧ State.reset.core.regs.bufferBase = 0 := by decide

/-- ComputeRunsTheStagesInOrder, for each of the eight formats; and its null buffer. -/
theorem test_witness_compute (F : Format) :
    (Instr.compute F).computeFormat = some F ∧ (ready F).core.busy = false ∧ (ready F).core.regs.bufferBase ≠ 0 ∧
    DutiesMet F (ready F) ∧ State.reset.core.regs.bufferBase = 0 := by
  refine ⟨by cases F <;> rfl, rfl, by cases F <;> decide, ready_duties F, rfl⟩

/-- ComputeFrame and ComplexKeepsImaginaryParts: a COMPUTE of two frames completes in every format. -/
theorem test_witness_frame (F : Format) :
    (Instr.compute F).computeFormat = some F ∧ (∃ t, exec (Instr.compute F) (ready F) = .next t) ∧
    0 < (ready F).core.frames ∧ (8 ≤ 15 ∧ 15 < 16) :=
  ⟨by cases F <;> rfl, ready_completes F, by cases F <;> decide, by decide⟩

/-- ExecFaultsOnlyForBrokenDuties: a command while BUSY, and a COMPUTE before the table is constructed. -/
theorem test_witness_exec_faults :
    exec (.nop .s8) (running .s8) = .fault .hostWriteWhileBusy ∧
    exec .computeS8 ((ready .s8).setTableBuilt false) = .fault .tableUnconstructed := ⟨rfl, rfl⟩

/-- The rig in S8 on a platform with the given addresses, with instance 1 BUSY over its own two bytes at 0x9000. -/
def crowded (base : Addr) (pl : Platform) : State :=
  { rigState { rig .s8 2 with bufferBase := base } with
    others := [(1, { CoreState.reset with regs := { rig .s8 2 with bufferBase := 0x9000 }, inFlight := some .s8 })]
    platform := pl }

/-- With no window and no device, every element is placed well. -/
theorem crowded_placement (base : Addr) : PlacementMet .s8 (crowded base ⟨[], [], [], []⟩) :=
  fun _ _ _ _ => ⟨(fun ⟨_, h, _⟩ => nomatch h), (fun ⟨_, h, _⟩ => nomatch h), fun ⟨_, h, _⟩ => nomatch h⟩

/-- BrokenDutyNamesItsFault, the clauses of placement: the last byte of a window, the first byte of the table device, the
first byte of a device. -/
theorem test_witness_placement :
    InRegisterWindow (crowded 0x83FF ⟨[0x8000], [], [], []⟩) (0x83FF + BitVec.ofNat 64 0) ∧
    IsTable (crowded 0x8400 ⟨[0x8000], [], [], [⟨0x8401, 9⟩]⟩) (0x8400 + BitVec.ofNat 64 1) ∧
    placementFault .s8 (crowded 0x8400 ⟨[0x8000], [], [], [⟨0x8401, 9⟩]⟩) = some .bufferInWindow ∧
    IsDevice (crowded 0x8400 ⟨[0x8000], [⟨0x8401, 1⟩], [], []⟩) (0x8400 + BitVec.ofNat 64 1) ∧
    ¬InRegisterWindow (crowded 0x8400 ⟨[0x8000], [⟨0x8401, 1⟩], [], []⟩) (0x8400 + BitVec.ofNat 64 0) ∧
    ¬InRegisterWindow (crowded 0x8400 ⟨[0x8000], [⟨0x8401, 1⟩], [], []⟩) (0x8400 + BitVec.ofNat 64 1) ∧
    ¬IsTable (crowded 0x8400 ⟨[0x8000], [⟨0x8401, 1⟩], [], []⟩) (0x8400 + BitVec.ofNat 64 1) := by
  simp only [← inRegisterWindow_iff, ← inDevice_iff, ← inTable_iff]
  decide +kernel

/-- BrokenDutyNamesItsFault, the clauses of the accesses: frame 1 is the first byte instance 1 holds, and frame 1 is the
first byte that is unreachable. -/
theorem test_witness_accesses :
    computeFault .s8 (crowded 0x8FFF ⟨[], [], [], []⟩) = some .bufferShared ∧
    accessFault .s8 (crowded 0x8FFF ⟨[], [], [], []⟩) 0 = none ∧
    PlacementMet .s8 (crowded 0x8FFF ⟨[], [], [], []⟩) ∧
    HeldByOther (crowded 0x8FFF ⟨[], [], [], []⟩) (0x8FFF + BitVec.ofNat 64 1) ∧
    computeFault .s8 (crowded 0x8000 ⟨[], [], [⟨0x8001, 4⟩], []⟩) = some .busError ∧
    IsUnreachable (crowded 0x8000 ⟨[], [], [⟨0x8001, 4⟩], []⟩) (0x8000 + BitVec.ofNat 64 1) ∧
    ¬HeldByOther (crowded 0x8000 ⟨[], [], [⟨0x8001, 4⟩], []⟩) (0x8000 + BitVec.ofNat 64 1) := by
  refine ⟨by decide +kernel, by decide +kernel, crowded_placement _, ?_, by decide +kernel, ?_, ?_⟩
  · rw [← heldByOther_iff]; decide +kernel
  · rw [← inUnreachable_iff]; decide +kernel
  · rw [← heldByOther_iff]; decide +kernel

/-- BrokenDutyNamesItsFault, the table's clause. -/
theorem test_witness_table_fault :
    let s := (ready .s16).setTableBuilt false
    PlacementMet .s16 s ∧ AccessesMet .s16 s ∧ s.tableBuilt = false ∧ s.core.regs.bufferBase ≠ 0 ∧
      s.core.busy = false :=
  ⟨(ready_duties .s16).1, (ready_duties .s16).2.1, rfl, by decide, rfl⟩

/-- ZeroLengthComputeChangesNothing, with a buffer. -/
theorem test_witness_zero_length :
    let s := rigState (rig .double 0)
    Instr.computeDouble.computeFormat = some .double ∧ s.core.busy = false ∧ s.core.regs.bufferLength = 0 ∧
      s.tableBuilt = true ∧ s.core.regs.bufferBase ≠ 0 := by decide

/-- OverlappedCommandEqualsAtomic and BusyLifecycle: an overlapped COMPUTE command, with and without a buffer. -/
theorem test_witness_overlap :
    (∀ s ∈ [State.reset, ready .s8], s.core.busy = false ∧
      (decodeKey (dispatchKey s.core.regs.format 1)).computeFormat = some .s8 ∧
      (next (.regWrite s.cur 0x000 8 1 true) s).bus = .regWrite s.cur 0x000 8 1 true :: []) ∧
    State.reset.core.regs.bufferBase = 0 ∧ (ready .s8).core.regs.bufferBase ≠ 0 ∧ PlacementMet .s8 (ready .s8) :=
  ⟨by decide, rfl, by decide, (ready_duties .s8).1⟩

/-- InFlightComputeCompletes: one in flight, and none. -/
theorem test_witness_in_flight :
    ((running .s8).bus = [] ∧ (running .s8).core.inFlight = some .s8 ∧ (running .s8).core.regs.bufferBase ≠ 0 ∧
      DutiesMet .s8 (running .s8)) ∧ ¬SomeBusy State.reset := by
  refine ⟨⟨rfl, rfl, by decide, ready_duties .s8⟩, ?_⟩
  rintro (h | ⟨e, h, _⟩)
  · cases h
  · cases h

/-- Instance 1 in flight over one frame, and the addressed instance 0 at reset. -/
def otherRunning : State :=
  { State.reset with
    others := [(1, { CoreState.reset with regs := rig .s8 1, inFlight := some .s8 })], platform := ⟨[], [], [], []⟩ }

/-- InFlightComputeCompletes: instance 1 in flight while the addressed instance 0 is idle. -/
theorem test_witness_other_in_flight :
    Inv otherRunning ∧ otherRunning.bus = [] ∧ otherRunning.core.busy = false ∧
    (otherRunning.coreOf 1).inFlight = some .s8 ∧ (∀ m < 1, (otherRunning.coreOf m).busy = false) ∧
    DutiesMet .s8 (otherRunning.focus 1) := by
  refine ⟨⟨by decide, by decide, by decide, legalCore_reset, fun e he => ?_, rfl⟩, rfl, rfl, rfl, by decide, ?_⟩
  · obtain rfl := List.mem_singleton.1 he
    refine ⟨⟨Nat.succ_le_succ (Nat.zero_le _), legalRegs_reset.2⟩, legalWork_unspecified, fun _ => by decide⟩
  · rw [← computeFault_eq_none]; decide +kernel

/-- EventsKeepOtherInstances: an event of instance 0 and one of none, which complete. -/
theorem test_witness_events :
    (∃ t, step (next (.reset 0) (crowded 0x8000 ⟨[0x100], [], [], []⟩)) = .next t) ∧
    eventTarget two.platform (.reset 0) ≠ some 1 ∧ eventTarget two.platform .constructTable ≠ some 0 ∧
    eventTarget two.platform (.memWrite 0x800 [] false) = some 1 ∧
    (∃ t, step (next .constructTable (ready .s8)) = .next t) :=
  ⟨⟨_, rfl⟩, by decide, by decide, by decide, ⟨_, rfl⟩⟩

/-- StepKeepsInv: from reset. -/
theorem test_witness_inv : Inv State.reset ∧ ∃ t, step State.reset = .next t :=
  ⟨⟨by decide, by decide, (fun _ h => nomatch h), legalCore_reset, (fun _ h => nomatch h), rfl⟩, ⟨_, rfl⟩⟩

/-- HiddenContentsReachNoResult: working buffers, PHASE_ACC and INCR all different, under a COMPUTE that completes. -/
theorem test_witness_hidden :
    let t : State := { ready .s8 with
      core := { (ready .s8).core with work := ⟨[1], [2], [3], [4], [5], [6, 7]⟩, phaseAcc := 9, incr := 8 } }
    SameButHidden (ready .s8) t ∧ ready .s8 ≠ t ∧ ∃ u, exec .computeS8 (ready .s8) = .next u :=
  ⟨rfl, by decide, ready_completes .s8⟩

/-- UnroutedSourcesAreNotDriven and UnroutedEnvelopesAreBypassed: nothing is routed, and a COMPUTE completes. -/
theorem test_witness_unrouted :
    (∀ src ∈ sources, hasRouting (ready .s16).core.regs src = false) ∧
    ∃ u, exec .computeS16 (ready .s16) = .next u := ⟨by decide, ready_completes .s16⟩

/-- EnvelopeIsOnePastTheNote: the frame at the note end itself. -/
theorem test_witness_past_the_note :
    let s := envState 8 6 4
    hasRouting s.core.regs EnvId.env0.source = true ∧ 2 < s.core.frames ∧
      s.core.regs.frameCount.toNat = s.core.time 2 := by decide

/-- EnvelopeFollowsTheQuarters: the last frame before the note end, the first of a quarter, and Q = 0. -/
theorem test_witness_quarters :
    testParams.segmentBasis = .noteQuarters ∧ testParams.envKernel = defaultEnvKernel ∧
    (∀ c ∈ [(8, 6, 4, 1), (8, 3, 3, 1), (3, 0, 4, 2)],
      let s := envState c.1 c.2.1 c.2.2.1
      hasRouting s.core.regs EnvId.env0.source = true ∧ c.2.2.2 < s.core.frames ∧
        s.core.time c.2.2.2 < s.core.regs.frameCount.toNat) := ⟨rfl, rfl, by decide⟩

/-- DriversFillTheirBuffers: an LFO and the noise source routed, at the last frame. -/
theorem test_witness_drivers :
    let s := rigState { rig .double 2 with lfo0 := ⟨.sine, 0, 0, 0, 1⟩, noise := ⟨0, 0, 0x80000000⟩ }
    1 < s.core.frames ∧ hasRouting s.core.regs LfoId.lfo0.source = true ∧ hasRouting s.core.regs .noise = true := by
  decide

/-- RoutingIsAnExistenceTest: a ROUTE register of legal slots. -/
theorem test_witness_legal_route : LegalRoute (Regs.route Regs.reset .env0) ∧ LegalRoute 0x80000001 := by
  constructor <;> (intro i hi; interval_cases i <;> decide)

/-- BendsFollowTheRouting: one envelope routed to both frequencies, both phases and both volumes. -/
theorem test_witness_bends :
    let r := { Regs.reset with env0 := ⟨0, 0, 0, 0, 0, 0x654321⟩ }
    Source.env0.isEnv = true ∧ routes r .env0 .osc0Frequency = true ∧ routes r .env0 .osc1Frequency = true ∧
    routes r .env0 .osc0Phase = true ∧ routes r .env0 .osc1Phase = true ∧ routes r .env0 .osc0Volume = true ∧
    routes r .env0 .osc1Volume = true := by decide

/-- OscRenderClampsTheFrequencyOfEachFrame and BendExamples: a NaN, zero, the pattern below FREQ_EPSILON, FREQ_EPSILON itself. -/
theorem test_witness_clamp :
    Fp.isNaN testParams.freqEpsilon = false ∧ Fp.isNaN Fp.nan = true ∧
    Fp.lt Fp.zero testParams.freqEpsilon = true ∧ Fp.lt 0x3EB0C6F7A0B5ED8C testParams.freqEpsilon = true ∧
    Fp.le testParams.freqEpsilon testParams.freqEpsilon = true ∧ Fp.isNaN Fp.zero = false := by decide +kernel

/-- SineSquareAndPulse: a sine value that is a NaN, and one that is 0.0. -/
theorem test_witness_thresholds :
    Fp.isNaN (sinOf { testParams with sin := fun _ => Fp.nan } (sineArg Fp.one Fp.zero Fp.one) State.reset).1 = true ∧
    (sinOf testParams (sineArg Fp.one Fp.zero Fp.one) State.reset).1 = Fp.zero := by decide +kernel

/-- PeriodPositionIsWithinZeroAndOne: a time just before 0, where r rounds to 1.0. -/
theorem test_witness_period :
    Fp.isFinite 0x8000000000000001 = true ∧ Fp.isFinite (Fp.div (Fp.ofNat 8) Fp.one) = true ∧
    Fp.lt Fp.zero (Fp.div (Fp.ofNat 8) Fp.one) = true ∧
    periodPosition Fp.one 0x8000000000000001 (Fp.ofNat 8) = Fp.one := by decide +kernel

/-- AccumulateAddsToTheElement: a byte outside the access of a COMPLEX element, the first of its imaginary part. -/
theorem test_witness_accumulate :
    ∀ j < Format.accessBytes .complex,
      elementAddr .complex (ready .complex).core 0 + 8 ≠
        elementAddr .complex (ready .complex).core 0 + BitVec.ofNat 64 j := by decide

/-- AccumulateAddsToTheElement and ZeroVolumeClearsIntegers: each integer format, two finite addends, VOLUME +0.0. -/
theorem test_witness_integers :
    (∀ F ∈ [Format.s8, .s16, .s24, .s32, .s64], ∃ n, intWidth F = some n) ∧ Fp.isFinite Fp.hundred = true ∧
    Fp.isFinite Fp.negOne = true ∧ Memory.wf State.reset.mem ∧
    (rigState { rig .s8 2 with volume := Fp.zero }).core.regs.volume = Fp.zero ∧
    (∀ src : Source, routes (rig .s8 2) src .volume = false) ∧ 1 < (ready .s8).core.frames := by
  refine ⟨fun F hF => ?_, by decide, by decide, by decide, rfl, fun src => by cases src <;> decide, by decide⟩
  simp only [List.mem_cons, List.not_mem_nil, or_false] at hF
  rcases hF with rfl | rfl | rfl | rfl | rfl <;> exact ⟨_, rfl⟩

/-- StoreAfterLoadRestores: an S64 element of 2^53, a FLOAT infinity, and any S8, S16, S24, S32, DOUBLE or COMPLEX one. -/
theorem test_witness_converts :
    ConvertsBack .s64 0 (withElements .s64 [0x20000000000000#64] (ready .s64)) ∧
    ConvertsBack .float 0 (withElements .float [0x7F800000#32] (ready .float)) ∧
    (∀ F ∈ [Format.s8, .s16, .s24, .s32, .double, .complex], ConvertsBack F 0 (ready F)) ∧
    Memory.wf (withElements .s64 [0x20000000000000#64] (ready .s64)).mem := by
  refine ⟨?_, ?_, fun F hF => ?_, by decide +kernel⟩
  · unfold ConvertsBack; decide +kernel
  · unfold ConvertsBack; decide +kernel
  · simp only [List.mem_cons, List.not_mem_nil, or_false] at hF
    rcases hF with rfl | rfl | rfl | rfl | rfl | rfl <;> trivial

/-- LargestS64WrapsToSmallest. -/
theorem test_witness_largest :
    loadBits 64 .s64 0 (withElements .s64 [0x7FFFFFFFFFFFFFFF#64] (ready .s64)) = 0x7FFFFFFFFFFFFFFF := by
  decide +kernel

/-- IntegerConversion: a finite value, an infinity and a NaN. -/
theorem test_witness_conversion :
    Fp.isFinite 0x7FEFFFFFFFFFFFFF = true ∧ Fp.isFinite 0x7FF0000000000000 = false ∧ Fp.isFinite Fp.nan = false := by
  decide

/-- ElementAddresses: stride 0. -/
theorem test_witness_stride : Regs.reset.stride = 0 := by decide

/-- AccessesAreLittleEndianBytes: no byte, 16 bytes, and the whole address space. -/
theorem test_witness_bytes : 0 ≤ 2 ^ 64 ∧ 16 ≤ 2 ^ 64 ∧ 2 ^ 64 ≤ 2 ^ 64 ∧
    (∀ j < 16, (0x10 : Addr) ≠ 0 + BitVec.ofNat 64 j) := by decide

/-- AgentAccessesOutsideBusyBuffers: the last byte a BUSY instance holds, and the byte after it. -/
theorem test_witness_agents :
    HeldByAny (running .s8) (0x8001 + BitVec.ofNat 64 0) ∧ ¬HeldByAny (running .s8) (0x8002 + BitVec.ofNat 64 0) ∧
    ([0x55#8].length ≤ 2 ^ 64 ∧
      (next (.memWrite 0x8001 [0x55] false) (running .s8)).bus = .memWrite 0x8001 [0x55] false :: []) ∧
    (∀ a j, OrdinaryAt (running .s8) a j) ∧
    (next (.memRead 0x8002 1) (running .s8)).bus = .memRead 0x8002 1 :: [] := by
  refine ⟨.inl ⟨.s8, rfl, 1, by decide, by decide⟩, ?_, by decide, fun _ _ =>
    ⟨(fun ⟨_, h, _⟩ => nomatch h), (fun ⟨_, h, _⟩ => nomatch h), fun ⟨_, h, _⟩ => nomatch h⟩, rfl⟩
  rintro (⟨F, hF, i, hi, h⟩ | ⟨e, he, _⟩)
  · cases hF
    have hi' : i < 2 := hi
    interval_cases i <;> exact absurd h (by decide)
  · cases he

/-- TableReadGivesTheRowAndLeavesTheLockFree: a store into the table device while an instance is BUSY. -/
theorem test_witness_table_store :
    let s := next (.memWrite 0x9000 [1] false) { running .s8 with platform := ⟨[], [], [], [⟨0x9000, 8192⟩]⟩ }
    SomeBusy s ∧ IsTable s (0x9000 + BitVec.ofNat 64 0) ∧ ¬InRegisterWindow s (0x9000 + BitVec.ofNat 64 0) ∧
    ¬HeldByAny s (0x9000 + BitVec.ofNat 64 0) ∧ step s = .fault .tableWrite := by
  refine ⟨.inl rfl, ⟨_, List.mem_cons_self, by decide⟩, (fun ⟨_, h, _⟩ => nomatch h), ?_, rfl⟩
  rintro (⟨F, hF, i, hi, h⟩ | ⟨e, he, _⟩)
  · cases hF
    have hi' : i < 2 := hi
    interval_cases i <;> exact absurd h (by decide)
  · cases he

/-- TableReadGivesTheRowAndLeavesTheLockFree: the table is constructed while an instance is BUSY, and while none is. -/
theorem test_witness_table :
    SomeBusy (running .s8) ∧ ¬SomeBusy (ready .s8) ∧
    (next .constructTable (ready .s8)).bus = .constructTable :: [] := by
  refine ⟨.inl rfl, ?_, rfl⟩
  rintro (h | ⟨e, h, _⟩)
  · cases h
  · cases h

/-- PitchIdentityAtZeroTuning: the default table's row 0, base key 0.0, two elements of each format. -/
theorem test_witness_pitch_identity (F : Format) :
    testParams.CoeffRow0 ∧ Memory.wf (ready F).mem ∧
    (∀ src, routes (ready F).core.regs src .pitchTuning = false) ∧ (ready F).core.regs.pitchTuning = Fp.zero ∧
    Fp.isFinite (ready F).core.regs.pitchBaseKey = true ∧
    Fp.isFinite (keyPitch testParams (keyDistance (ready F).core.regs) (ready F)).1 = true ∧
    Fp.mag (keyPitch testParams (keyDistance (ready F).core.regs) (ready F)).1 ≠ 0 ∧
    (∀ i < (ready F).core.frames, SteadyElement F i (ready F)) ∧ 0 < (ready F).core.frames := by
  refine ⟨by unfold Params.CoeffRow0; decide +kernel, by cases F <;> decide, fun src => by cases src <;> cases F <;> decide, rfl,
    by cases F <;> decide, by cases F <;> decide +kernel, by cases F <;> decide +kernel, fun i hi => ?_,
    by cases F <;> decide⟩
  have hi' : i < 2 := by cases F <;> exact hi
  cases F <;> interval_cases i <;> unfold SteadyElement <;> decide +kernel

/-- R193, R210: an envelope sample of 0.75 adds 600.0 cents, and an LFO sample of 0.0 halves the gain. -/
theorem test_routed_tuning_and_gain :
    let c := ((rigState { rig .double 1 with env0 := ⟨0, 0, 0, 0, 0, 7⟩, lfo0 := ⟨.sine, 0, 0, 0, 8⟩ }).setSource .env0
      [0x3FE8000000000000] |>.setSource .lfo0 [Fp.zero]).core
    tuning testParams 0 c = Fp.ofInt 600 ∧ gain testParams 0 c = 0x3FE0000000000000 := by decide +kernel

/-- PitchPassReadsBeforeItAdvances: the first entry, and the one after the entries written so far; a window of two frames
and one of none. -/
theorem test_witness_pitch_frame :
    (ready .s8).core.regs.bufferLength ≠ 0 ∧ Regs.reset.bufferLength = 0 ∧
    0 ≤ (ready .s8).core.work.pitch.length ∧
    2 ≤ (rigState (rig .s8 2) |>.setPitch [0, 0]).core.work.pitch.length := by decide

/-- RatioBecomesFixedPoint: −0.0, 1.0, 0.0, the last ratio below 2^32, 2^−33, 2^32, −1.0 and a NaN. -/
theorem test_witness_ratio :
    Fp.eqv Fp.negZero Fp.zero = true ∧ Fp.eqv Fp.one Fp.zero = false ∧
    (Fp.isFinite Fp.zero = true ∧ Fp.le Fp.zero Fp.zero = true ∧ Fp.lt Fp.zero (Fp.ofInt (2 ^ 32)) = true) ∧
    (Fp.isFinite 0x41EFFFFFFFFFFFFF = true ∧ Fp.le Fp.zero 0x41EFFFFFFFFFFFFF = true ∧
      Fp.lt 0x41EFFFFFFFFFFFFF (Fp.ofInt (2 ^ 32)) = true) ∧
    Fp.lt 0x3DE0000000000000 (Fp.div Fp.one (Fp.ofInt (2 ^ 32))) = true ∧
    Fp.le (Fp.ofInt (2 ^ 32)) 0x41F0000000000000 = true ∧ Fp.lt Fp.negOne Fp.zero = true ∧
    Fp.isFinite Fp.nan = false := by decide +kernel

/-- VolumeAppliesTheRoutedGain: VOLUME 1.0, unrouted, and elements that are numbers. -/
theorem test_witness_unity :
    (∀ F : Format, Memory.wf (ready F).mem ∧ (ready F).core.regs.volume = Fp.one) ∧
    (∀ src, routes (ready .double).core.regs src .volume = false) ∧
    (∀ i < (ready .double).core.frames, NumberElement .double i (ready .double)) := by
  refine ⟨fun F => ⟨by cases F <;> decide, rfl⟩, fun src => by cases src <;> decide, fun i hi => ?_⟩
  have hi' : i < 2 := hi
  interval_cases i <;> unfold NumberElement <;> decide +kernel

/-- RoundingIsToNearestEven: the midpoint above the greatest finite value is an infinity, and just below it is not. -/
theorem test_rounding_overflow :
    Fp.isInf (Fp.pack true (Fp.roundMag 52 ((2 ^ 54 - 1) * 2 ^ 2044) 1)) = true ∧
    Fp.isFinite (Fp.pack true (Fp.roundMag 52 ((2 ^ 54 - 1) * 2 ^ 2044 - 1) 1)) = true := by decide +kernel

/-- RoundingIsToNearestEven: an exact tie between 2^53 and 2^53 + 1 units of 2, which goes to the even one. -/
theorem test_witness_rounding :
    0 < 2 ∧ Fp.isFinite (Fp.pack false (Fp.roundMag 52 (2 ^ 54 + 2) 2)) = true ∧
    Fp.mag (Fp.pack false (Fp.roundMag 52 (2 ^ 54 + 2) 2)) = 2 ^ 53 ∧ Fp.isFinite Fp.one = true := by decide +kernel

/-- RouteLineSetsOneSlot: the first and the last slot. -/
theorem test_witness_route : 0 < 8 ∧ 7 < 8 ∧ 7 ≠ 0 ∧ 15 < 16 := by decide

end Sys2Proof.Tests
end

section
/-! Accesses of system memory, byte by byte (O50). -/

namespace Sys2Proof.Machine

/-- The bytes after the first of a run are the bytes of the run that begins one address higher. -/
theorem add_one_add_ofNat (a : Addr) (j : Nat) : a + 1 + BitVec.ofNat 64 j = a + BitVec.ofNat 64 (j + 1) := by
  bv_omega

/-- A run of fewer than 2^64 bytes does not wrap round to the address before its first. -/
theorem inRun_add_one_self (a : Addr) {n : Nat} (hn : n < 2 ^ 64) : inRun (a + 1) n a = false := by
  have hlast : (a - (a + 1)).toNat = 2 ^ 64 - 1 := by bv_omega
  rw [inRun, hlast, decide_eq_false_iff_not]
  omega

/-- `MemRead` is the sum of its bytes by their weights (R11, R62). -/
theorem readLE_eq_sum (m : List Host.Cell) (a : Addr) (n : Nat) :
    readLE m a n = ∑ j ∈ Finset.range n, (readByte m (a + BitVec.ofNat 64 j)).toNat * 256 ^ j := by
  induction n generalizing a with
  | zero => rfl
  | succ n ih =>
    rw [readLE, ih, Finset.sum_range_succ', Finset.mul_sum, Nat.add_comm]
    congr 1
    · refine Finset.sum_congr rfl fun j _ => ?_
      rw [add_one_add_ofNat, Nat.pow_succ', Nat.mul_left_comm]
    · simp

/-- `MemWrite` stores the value's byte of weight 256^j at the j-th address of its run (R11, R62). -/
theorem readByte_writeLE_inside {n : Nat} (hn : n ≤ 2 ^ 64) (a : Addr) (v : Nat) (m : List Host.Cell) {j : Nat}
    (hj : j < n) : readByte (writeLE a n v m) (a + BitVec.ofNat 64 j) = BitVec.ofNat 8 (v / 256 ^ j) := by
  induction n generalizing a v m j with
  | zero => exact absurd hj (Nat.not_lt_zero j)
  | succ n ih =>
    rw [writeLE]
    cases j with
    | zero =>
      rw [BitVec.add_zero, readByte_writeLE_outside n (by omega) _ _ _ _ (inRun_add_one_self a hn),
        readByte_writeByte_same, Nat.pow_zero, Nat.div_one]
    | succ j =>
      rw [← add_one_add_ofNat, ih (by omega) _ _ _ (Nat.lt_of_succ_lt_succ hj), Nat.div_div_eq_div_mul,
        ← Nat.pow_succ']

/-- An address that is none of a run's is outside it. -/
theorem inRun_eq_false {a b : Addr} {n : Nat} (hn : n ≤ 2 ^ 64) (h : ∀ j < n, b ≠ a + BitVec.ofNat 64 j) :
    inRun a n b = false := by
  refine Bool.eq_false_iff.2 fun hin => ?_
  obtain ⟨j, hj, he⟩ := (inRun_iff_exists a b n hn).1 hin
  exact h j hj he

end Sys2Proof.Machine

namespace Sys2Proof
open Machine

/-- Settles O50: the sum and the stored bytes by induction on the run's length, the other bytes by the law of a store
outside its run. -/
theorem accessesAreLittleEndianBytes : Obligations.AccessesAreLittleEndianBytes := by
  intro m a n v hn
  exact ⟨readLE_eq_sum m a n, fun _ hj => readByte_writeLE_inside hn a v m hj,
    fun b hb => readByte_writeLE_outside n hn a b v m (inRun_eq_false hn hb)⟩

end Sys2Proof
end

section
/-! Rounding to nearest, ties to even (O59). A value is rounded on the grid of the multiples of 2^e, `e` the exponent of
its binade; every finite pattern is on that grid or lies below its least normal point. -/

namespace Sys2Proof.Machine.Fp

/-! ## What a packed pattern is -/

theorem min_infMag_le (b : Nat) : min b infMag ≤ infMag := Nat.min_le_right _ _

/-- Magnitude bits past infinity's pack as infinity's. -/
theorem pack_min (s : Bool) (b : Nat) : pack s (min b infMag) = pack s b := by
  rw [pack, Nat.min_assoc, Nat.min_self, pack]

theorem isInf_pack (s : Bool) (b : Nat) : isInf (pack s b) = true ↔ infMag ≤ b := by
  rw [← pack_min, isInf, expField_pack s (min_infMag_le b), fracField_pack s (min_infMag_le b)]
  simp only [Bool.and_eq_true, beq_iff_eq, infMag]
  omega

theorem isFinite_pack_iff (s : Bool) (b : Nat) : isFinite (pack s b) = true ↔ b < infMag := by
  rw [← pack_min, isFinite, expField_pack s (min_infMag_le b)]
  simp only [bne_iff_ne, infMag]
  omega

theorem isNaN_pack (s : Bool) (b : Nat) : isNaN (pack s b) = false := by
  rw [← pack_min, isNaN, expField_pack s (min_infMag_le b), fracField_pack s (min_infMag_le b)]
  simp only [Bool.and_eq_false_iff, beq_eq_false_iff_ne, bne_eq_false_iff_eq, infMag]
  omega

/-- `mag_pack` up to the point where the next binade begins, whose bits carry into the exponent field. -/
theorem mag_pack_le (s : Bool) (q e : Nat) (hb : e * 2 ^ 52 + q < infMag) (hq : q ≤ 2 ^ 53)
    (h : e = 0 ∨ 2 ^ 52 ≤ q) : mag (pack s (e * 2 ^ 52 + q)) = q * 2 ^ e := by
  rcases Nat.lt_or_eq_of_le hq with hlt | rfl
  · exact mag_pack s q e hb (h.imp (⟨·, hlt⟩) (⟨·, hlt⟩))
  · have hcarry : e * 2 ^ 52 + 2 ^ 53 = (e + 1) * 2 ^ 52 + 2 ^ 52 := by omega
    rw [hcarry] at hb ⊢
    rw [mag_pack s _ _ hb (.inr ⟨le_refl _, by decide⟩), Nat.pow_succ]
    omega

/-- Every pattern's magnitude is a multiple of 2^e or lies below 2^52 units of 2^e. -/
theorem mag_eq_mul_or_lt (w : F64) (e : Nat) : (∃ k, mag w = k * 2 ^ e) ∨ 0 < e ∧ mag w < 2 ^ 52 * 2 ^ e := by
  obtain ⟨a, t, ha, hm⟩ : ∃ a t, a < 2 ^ 53 ∧ mag w = a * 2 ^ t := by
    have hf : fracField w < 2 ^ 52 := Nat.mod_lt _ (by decide)
    unfold mag
    split
    · exact ⟨fracField w, 0, by omega, by omega⟩
    · exact ⟨2 ^ 52 + fracField w, expField w - 1, by omega, rfl⟩
  rw [hm]
  rcases Nat.lt_or_ge t e with hte | het
  · refine .inr ⟨by omega, ?_⟩
    calc a * 2 ^ t < 2 ^ 53 * 2 ^ t := Nat.mul_lt_mul_of_pos_right ha (Nat.two_pow_pos t)
      _ = 2 ^ 52 * 2 ^ (t + 1) := by rw [Nat.pow_succ 2 t]; omega
      _ ≤ 2 ^ 52 * 2 ^ e := Nat.mul_le_mul_left _ (Nat.pow_le_pow_right (by decide) hte)
  · exact .inl ⟨a * 2 ^ (t - e), by rw [Nat.mul_assoc, two_pow_mul _ _ t (by omega)]⟩

/-! ## Rounding to an integer -/

/-- How far `m` is from `num / den`, in units of `1 / den`. -/
def error (num den m : Nat) : Nat := ((m * den : Nat) - (num : Int)).natAbs

theorem error_mul (num den k c : Nat) : error num (den * c) k = error num den (k * c) := by
  rw [error, error, Nat.mul_assoc, Nat.mul_comm c]

theorem roundHalfEven_bounds (num den : Nat) :
    num / den ≤ roundHalfEven num den ∧ roundHalfEven num den ≤ num / den + 1 := by
  unfold roundHalfEven
  dsimp only
  split <;> omega

/-- No integer is nearer than the rounded one, and if another is as near the rounded one is even. -/
theorem roundHalfEven_nearest (num k : Nat) {den : Nat} (hd : 0 < den) :
    error num den (roundHalfEven num den) ≤ error num den k ∧
      (error num den (roundHalfEven num den) = error num den k → k ≠ roundHalfEven num den →
        roundHalfEven num den % 2 = 0) := by
  have hnum := Nat.div_add_mod' num den
  have hrem := Nat.mod_lt num hd
  have hup := Nat.add_one_mul (num / den) den
  have hk : k < num / den ∧ k * den + den ≤ num / den * den ∨ k = num / den ∨ k = num / den + 1 ∨
      num / den + 1 < k ∧ (num / den + 1) * den + den ≤ k * den := by
    rcases Nat.lt_or_ge k (num / den) with h | h
    · exact .inl ⟨h, Nat.succ_mul k den ▸ Nat.mul_le_mul_right den h⟩
    · rcases Nat.lt_or_ge (num / den + 1) k with h' | h'
      · exact .inr (.inr (.inr ⟨h', Nat.succ_mul (num / den + 1) den ▸ Nat.mul_le_mul_right den h'⟩))
      · omega
  unfold error roundHalfEven
  dsimp only
  split
  · rcases hk with h | rfl | rfl | h <;> omega
  · rcases hk with h | rfl | rfl | h <;> omega

/-- From the midpoint above an odd integer on, rounding goes past it. -/
theorem lt_roundHalfEven_of_odd {k : Nat} (hk : k % 2 = 1) (num : Nat) {den : Nat} (hd : 0 < den) :
    k < roundHalfEven num den ↔ (2 * k + 1) * den ≤ 2 * num := by
  have hnum := Nat.div_add_mod' num den
  have hrem := Nat.mod_lt num hd
  have hmid : (2 * k + 1) * den = 2 * (k * den) + den := by rw [Nat.add_one_mul, Nat.mul_assoc]
  have hbounds := roundHalfEven_bounds num den
  rw [hmid]
  rcases Nat.lt_trichotomy (num / den) k with h | rfl | h
  · have := Nat.add_one_mul (num / den) den ▸ Nat.mul_le_mul_right den h
    omega
  · unfold roundHalfEven
    dsimp only
    split <;> omega
  · have := Nat.add_one_mul k den ▸ Nat.mul_le_mul_right den h
    omega

/-! ## The grid a value is rounded on -/

/-- The exponent of the grid's spacing: 0 of a value below the second binade of normal numbers. -/
def roundExp (frac num den : Nat) : Nat := Nat.log2 (num / den) - frac

theorem roundMag_eq (frac num den : Nat) :
    roundMag frac num den =
      roundExp frac num den * 2 ^ frac + roundHalfEven num (den * 2 ^ roundExp frac num den) := rfl

/-- In units of its grid a value has at most `frac + 1` bits. -/
theorem div_grid_lt (frac num den : Nat) : num / (den * 2 ^ roundExp frac num den) < 2 ^ (frac + 1) := by
  rw [← Nat.div_div_eq_div_mul, Nat.div_lt_iff_lt_mul (Nat.two_pow_pos _), ← Nat.pow_add]
  exact Nat.lt_of_lt_of_le Nat.lt_log2_self (Nat.pow_le_pow_right (by decide) (by unfold roundExp; omega))

/-- In units of its grid a value has at least `frac + 1` bits, but on the least grid. -/
theorem le_div_grid (frac num den : Nat) :
    roundExp frac num den = 0 ∨ 2 ^ frac ≤ num / (den * 2 ^ roundExp frac num den) := by
  by_cases h : roundExp frac num den = 0
  · exact .inl h
  · have hlog : frac + roundExp frac num den = Nat.log2 (num / den) := by unfold roundExp at h ⊢; omega
    have hne : num / den ≠ 0 := by
      intro h0
      rw [roundExp, h0] at h
      simp at h
    rw [← Nat.div_div_eq_div_mul, Nat.le_div_iff_mul_le (Nat.two_pow_pos _), ← Nat.pow_add, hlog]
    exact .inr (Nat.log2_self_le hne)

/-! ## Rounding to a binary64 -/

/-- The grid's point a value is rounded to, in units of the grid. -/
def rounded (num den : Nat) : Nat := roundHalfEven num (den * 2 ^ roundExp 52 num den)

theorem roundMag_eq_rounded (num den : Nat) :
    roundMag 52 num den = roundExp 52 num den * 2 ^ 52 + rounded num den := rfl

theorem rounded_le (num den : Nat) : rounded num den ≤ 2 ^ 53 := by
  have := div_grid_lt 52 num den
  have := (roundHalfEven_bounds num (den * 2 ^ roundExp 52 num den)).2
  unfold rounded
  omega

theorem le_rounded (num den : Nat) : roundExp 52 num den = 0 ∨ 2 ^ 52 ≤ rounded num den :=
  (le_div_grid 52 num den).imp_right fun h => Nat.le_trans h (roundHalfEven_bounds _ _).1

/-- What a finite rounded value reads as. -/
theorem mag_pack_roundMag (s : Bool) {num den : Nat} (h : roundMag 52 num den < infMag) :
    mag (pack s (roundMag 52 num den)) = rounded num den * 2 ^ roundExp 52 num den :=
  mag_pack_le s _ _ h (rounded_le num den) (le_rounded num den)

theorem fracField_pack_roundMag (s : Bool) {num den : Nat} (h : roundMag 52 num den < infMag) :
    fracField (pack s (roundMag 52 num den)) % 2 = rounded num den % 2 := by
  rw [fracField_pack s (Nat.le_of_lt h), roundMag_eq_rounded]
  omega

/-- A point below the least of the normal points of a value's grid is farther from the value than that point. -/
theorem error_lt_of_below_grid {num den m : Nat} (hd : 0 < den) (he : 0 < roundExp 52 num den)
    (hm : m < 2 ^ 52 * 2 ^ roundExp 52 num den) :
    error num den (2 ^ 52 * 2 ^ roundExp 52 num den) < error num den m := by
  have hgrid : 2 ^ 52 ≤ num / (den * 2 ^ roundExp 52 num den) :=
    (le_div_grid 52 num den).resolve_left (Nat.pos_iff_ne_zero.1 he)
  rw [Nat.le_div_iff_mul_le (Nat.mul_pos hd (Nat.two_pow_pos _)), Nat.mul_left_comm, Nat.mul_comm den] at hgrid
  have hlt := Nat.mul_lt_mul_of_pos_right hm hd
  unfold error
  omega

/-- No pattern's magnitude is nearer than the rounded value, and if another is as near the rounded one is even. -/
theorem rounded_nearest (w : F64) (num : Nat) {den : Nat} (hd : 0 < den) :
    error num den (rounded num den * 2 ^ roundExp 52 num den) ≤ error num den (mag w) ∧
      (error num den (rounded num den * 2 ^ roundExp 52 num den) = error num den (mag w) →
        mag w ≠ rounded num den * 2 ^ roundExp 52 num den → rounded num den % 2 = 0) := by
  have hgrid (k : Nat) := roundHalfEven_nearest num k (Nat.mul_pos hd (Nat.two_pow_pos (roundExp 52 num den)))
  simp only [error_mul] at hgrid
  rcases mag_eq_mul_or_lt w (roundExp 52 num den) with ⟨k, hk⟩ | ⟨he, hlt⟩
  · rw [hk]
    exact ⟨(hgrid k).1, fun heq hne => (hgrid k).2 heq fun h => hne (congrArg (· * _) h)⟩
  · have hfar : error num den (rounded num den * 2 ^ roundExp 52 num den) < error num den (mag w) :=
      Nat.lt_of_le_of_lt (hgrid (2 ^ 52)).1 (error_lt_of_below_grid hd he hlt)
    exact ⟨Nat.le_of_lt hfar, fun heq => absurd heq (Nat.ne_of_lt hfar)⟩

/-- A value rounds past the last point of the grid of spacing 2^(t+1) exactly from the midpoint above that point on. -/
theorem past_grid_le_roundMag (t num : Nat) {den : Nat} (hd : 0 < den) :
    (t + 1) * 2 ^ 52 + 2 ^ 53 ≤ roundMag 52 num den ↔ (2 ^ 54 - 1) * 2 ^ t * den ≤ num := by
  have hlow := le_rounded num den
  have hhigh := rounded_le num den
  have hpos (e : Nat) : 0 < den * 2 ^ e := Nat.mul_pos hd (Nat.two_pow_pos e)
  have hmono {e e' : Nat} (h : e ≤ e') : den * 2 ^ e ≤ den * 2 ^ e' :=
    Nat.mul_le_mul_left den (Nat.pow_le_pow_right (by decide) h)
  have hdouble (e : Nat) : den * 2 ^ (e + 1) = 2 * (den * 2 ^ e) := by rw [Nat.pow_succ']; ac_rfl
  have hmid : (2 ^ 54 - 1) * 2 ^ t * den = (2 ^ 54 - 1) * (den * 2 ^ t) := by ac_rfl
  rw [hmid, roundMag_eq_rounded]
  rcases Nat.lt_trichotomy (roundExp 52 num den) (t + 1) with he | he | he
  · have hnum := (Nat.div_lt_iff_lt_mul (hpos _)).1 (div_grid_lt 52 num den)
    have := hmono (Nat.le_of_lt_succ he)
    have := hpos t
    omega
  · have hodd := lt_roundHalfEven_of_odd (k := 2 ^ 53 - 1) (by decide) num (hpos (t + 1))
    rw [← he, ← rounded, he, hdouble] at hodd
    omega
  · have hnum := (Nat.le_div_iff_mul_le (hpos _)).1 ((le_div_grid 52 num den).resolve_left (by omega))
    have := hmono (e := t + 1 + 1) he
    have := hdouble (t + 1)
    have := hdouble t
    omega

/-- A value rounds past the greatest finite magnitude exactly from the midpoint above it on. -/
theorem infMag_le_roundMag (num : Nat) {den : Nat} (hd : 0 < den) :
    infMag ≤ roundMag 52 num den ↔ (2 ^ 54 - 1) * 2 ^ 2044 * den ≤ num :=
  past_grid_le_roundMag 2044 num hd

end Sys2Proof.Machine.Fp

namespace Sys2Proof
open Machine

/-- Settles O59: a finite result is the nearest point of the value's grid, off which no pattern is nearer, and the
overflow bound is the midpoint above the last point of the last grid. -/
theorem roundingIsToNearestEven : Obligations.RoundingIsToNearestEven := by
  intro num den s hd
  refine ⟨fun hz w _ => ?_, (Fp.isInf_pack s _).trans (Fp.infMag_le_roundMag num hd), Fp.isNaN_pack s _,
    Fp.neg_pack s _⟩
  have hfin := (Fp.isFinite_pack_iff s _).1 hz
  rw [Fp.mag_pack_roundMag s hfin, Fp.fracField_pack_roundMag s hfin]
  exact Fp.rounded_nearest w num hd

end Sys2Proof
end

section
/-! The invariant every step keeps, from reset on (O29, O30). -/

namespace Sys2Proof
open Machine

/-! ## Updates that keep the invariant -/

namespace Inv

variable {s : State}

theorem memory (h : Inv s) : Memory.wf s.mem := h.1

theorem legalCore (h : Inv s) : LegalCore s.core := by
  obtain ⟨-, -, -, hcore, -⟩ := h
  exact hcore

theorem setMem (h : Inv s) {m : List Host.Cell} (hm : Memory.wf m) : Inv (s.setMem m) := ⟨hm, h.2⟩

theorem setCore (h : Inv s) {c : CoreState} (hc : LegalCore c) : Inv (s.setCore c) := by
  obtain ⟨hmem, hwf, hcur, -, hothers, hlock⟩ := h
  exact ⟨hmem, hwf, hcur, hc, hothers, hlock⟩

/-- Every instance is legal, listed or not. -/
theorem legalCore_coreOf (h : Inv s) (n : Nat) : LegalCore (s.coreOf n) := by
  obtain ⟨-, -, -, hcore, hothers, -⟩ := h
  rw [State.coreOf]
  split
  · exact hcore
  · rcases Sparse.get_mem CoreState.reset n s.others with hreset | hlisted
    · rw [hreset]
      exact legalCore_reset
    · exact hothers _ hlisted

theorem focus (h : Inv s) (n : Nat) : Inv (s.focus n) := by
  have hcoreOf := h.legalCore_coreOf n
  obtain ⟨hmem, hwf, hcur, hcore, hothers, hlock⟩ := h
  refine ⟨by rwa [focus_mem], focus_others_wf n s hwf, fun e he => ?_, by rwa [focus_core], fun e he => ?_,
    by rwa [focus_tableLock]⟩
  · rw [focus_cur]
    rcases mem_focus_others he with ⟨rfl, hlisted⟩ | ⟨hn, rfl⟩ | ⟨-, -, hne⟩
    · exact hcur e hlisted
    · exact Ne.symm hn
    · exact hne
  · rcases mem_focus_others he with ⟨-, hlisted⟩ | ⟨-, rfl⟩ | ⟨-, hlisted, -⟩
    · exact hothers e hlisted
    · exact hcore
    · exact hothers e hlisted

/-- The atomic step of a COMPUTE keeps the invariant. -/
theorem computed {F : Format} {t : State} (h : Inv s) (hc : Computed F s t) : Inv t := by
  have hlegal := hc.legalCore h.legalCore
  obtain ⟨hmem, hwf, hcur, -, hothers, hlock⟩ := h
  have hcur' : t.cur = s.cur := hc.frame.cur
  have hothers' : t.others = s.others := hc.frame.others
  have hlock' : t.tableLock = s.tableLock ∨ t.tableLock = none := hc.frame.lock
  refine ⟨hc.frame.wf hmem, by rwa [hothers'], by rwa [hothers', hcur'], hlegal, by rwa [hothers'], ?_⟩
  rcases hlock' with e | e
  · rw [e, hlock]
  · exact e

/-- A reset of the addressed instance keeps the invariant, whether or not a COMPUTE is in flight. -/
theorem resetInstance (h : Inv s) (P : Params) : Inv (resetInstance P s) := by
  have hscribble (l : List Addr) : Inv (scribble P l s) := by
    obtain ⟨hcore, hcur, hothers, -, hlock, -, -, -, hwf, -⟩ := scribble_spec P l s
    unfold Inv
    rw [hcore, hcur, hothers, hlock]
    exact ⟨hwf h.1, h.2⟩
  have hfree {u : State} (hu : Inv u) : Inv (if u.tableLock = some u.cur then u.setTableLock none else u) := by
    obtain ⟨hmem, hwf, hcur, hcore, hothers, hlock⟩ := hu
    rw [hlock, if_neg nofun]
    exact ⟨hmem, hwf, hcur, hcore, hothers, hlock⟩
  refine (hfree ?_).setCore legalCore_reset
  split
  · exact hscribble _
  · exact h

end Inv

/-! ## Operations that keep the invariant -/

/-- Every next state the operation answers from a state that meets the invariant meets it. -/
def KeepsInv (k : State → Host.Outcome State Fault Refusal) : Prop := ∀ s t, Inv s → k s = .next t → Inv t

/-- An operation that answers one next state keeps the invariant where that state meets it. -/
theorem Inv.of_next {u t : State} (h : Inv u)
    (ht : (.next u : Host.Outcome State Fault Refusal) = .next t) : Inv t := Host.Outcome.next.inj ht ▸ h

theorem keepsInv_runCompute (P : Params) (F : Format) : KeepsInv (runCompute P F) :=
  fun _ _ h ht => h.computed (runCompute_next ht)

/-- A command keeps the invariant where its effect does while nothing is in flight. -/
theorem Inv.of_command {s t : State} {o : Host.Outcome State Fault Refusal} (ht : command s o = .next t)
    (ho : s.core.busy = false → o = .next t → Inv t) : Inv t := by
  cases hb : s.core.busy with
  | true =>
    rw [command_of_busy hb] at ht
    cases ht
  | false => exact ho hb (command_of_idle hb o ▸ ht)

theorem keepsInv_exec (i : Instr) : KeepsInv (exec i) := by
  intro s t h ht
  cases hF : i.computeFormat with
  | none =>
    rw [exec_of_no_format hF] at ht
    exact Inv.of_command ht fun _ => h.of_next
  | some F =>
    rw [exec_of_format hF] at ht
    exact Inv.of_command ht fun _ => keepsInv_runCompute _ F s t h

/-- A COMPUTE that starts has a buffer. -/
theorem keepsInv_startCompute (F : Format) : KeepsInv (startCompute F) := by
  intro s t h ht
  refine Inv.of_command ht fun hb _ => ?_
  rcases startCompute_cases F s hb with ⟨-, e⟩ | ⟨-, f, -, e⟩ | ⟨hbase, -, e⟩ <;> rw [e] at ht
  · exact h.of_next ht
  · cases ht
  · refine Inv.of_next (h.setCore ?_) ht
    obtain ⟨hregs, hwork, -⟩ := h.legalCore
    exact ⟨hregs, hwork, fun _ => hbase⟩

theorem keepsInv_issue (data : Data) (ov : Bool) : KeepsInv (issue data ov) := by
  intro s t h ht
  rcases issue_cases data ov s with e | ⟨-, F, -, e⟩ <;> rw [e] at ht
  · exact keepsInv_exec _ s t h ht
  · exact keepsInv_startCompute F s t h ht

/-- A write of a parameter register while nothing is in flight leaves a legal instance. -/
theorem legalCore_writeReg (reg : Reg) (d : Data) {c : CoreState} (h : LegalCore c) (hb : c.busy = false) :
    LegalCore (writeReg Config.params reg d c) := by
  obtain ⟨hregs, hwork, -⟩ := h
  refine ⟨legalRegs_storeReg reg d hregs, legalWork_workAfterStore reg hwork, fun hbusy => ?_⟩
  exact absurd (hb.symm.trans hbusy) Bool.false_ne_true

theorem keepsInv_hostWrite (off : BitVec 10) (bytes : Nat) (data : Data) (ov : Bool) :
    KeepsInv (hostWrite off bytes data ov) := by
  intro s t h ht
  unfold hostWrite at ht
  split at ht
  · split at ht
    · exact h.of_next ht
    · exact keepsInv_issue data ov s t h ht
    · exact Inv.of_command ht fun hb => (h.setCore (legalCore_writeReg _ data h.legalCore hb)).of_next
  · exact h.of_next ht

theorem keepsInv_proceed (P : Params) : KeepsInv (proceed P) := by
  intro s t h ht
  unfold proceed at ht
  split at ht
  · exact keepsInv_runCompute P _ s t h ht
  · exact h.of_next ht

theorem KeepsInv.atInstance {k : State → Host.Outcome State Fault Refusal} (hk : KeepsInv k) (n : Nat) :
    KeepsInv fun s => atInstance n s k := by
  intro s t h ht
  rcases atInstance_cases n s k with ⟨-, e⟩ | e <;> simp only [e] at ht
  · exact hk _ t (h.focus n) ht
  · cases ht

/-- An access that is no register access keeps the invariant where its effect meets it. -/
theorem Inv.of_agentAccess {store : Bool} {a : Addr} {n : Nat} {s effect t : State}
    (ht : agentAccess store a n s effect = .next t) (h : Inv effect) : Inv t := by
  rcases agentAccess_cases store a n s effect with e | e | e | e <;> rw [e] at ht
  · cases ht
  · cases ht
  · cases ht
  · exact h.of_next ht

theorem keepsInv_memWrite (a : Addr) (data : List Byte) (ov : Bool) : KeepsInv (memWrite a data ov) := by
  intro s t h ht
  unfold memWrite at ht
  split at ht
  · exact (keepsInv_hostWrite _ _ _ ov).atInstance _ s t h ht
  · exact Inv.of_agentAccess ht (h.setMem (writeBytes_wf _ data a h.memory))

/-- Recording what a read returned keeps the invariant. -/
theorem keepsInv_reply (r : State → Reply) : KeepsInv fun s => .next (s.reply (r s)) :=
  fun s _ h ht => Inv.of_next (u := s.reply (r s)) h ht

theorem keepsInv_hostRead (off : BitVec 10) (bytes : Nat) : KeepsInv (hostRead off bytes) := keepsInv_reply _

theorem keepsInv_memRead (a : Addr) (n : Nat) : KeepsInv (memRead a n) := by
  intro s t h ht
  unfold memRead at ht
  split at ht
  · exact (keepsInv_reply _).atInstance _ s t h ht
  · exact Inv.of_agentAccess ht h

theorem keepsInv_constructTable : KeepsInv constructTable := by
  intro s t h ht
  unfold constructTable at ht
  split at ht
  · cases ht
  · exact Inv.of_next (u := s.setTableBuilt true) h ht

theorem keepsInv_handle (e : Event) : KeepsInv (handle e) := by
  cases e with
  | regWrite n off bytes data ov => exact (keepsInv_hostWrite off bytes data ov).atInstance n
  | regRead n off bytes => exact (keepsInv_hostRead off bytes).atInstance n
  | memWrite a data ov => exact keepsInv_memWrite a data ov
  | memRead a n => exact keepsInv_memRead a n
  | proceed n => exact (keepsInv_proceed _).atInstance n
  | reset n => exact KeepsInv.atInstance (fun _ _ h => (h.resetInstance _).of_next) n
  | constructTable => exact keepsInv_constructTable

theorem keepsInv_idle : KeepsInv idle := by
  intro s t h ht
  unfold idle at ht
  split at ht
  · exact keepsInv_proceed _ s t h ht
  · split at ht
    · exact keepsInv_proceed _ _ t (h.focus _) ht
    · exact h.of_next ht

/-- Settles O29: the step is an event's or, with none left, the completion of a COMPUTE in flight, and each keeps the
invariant. -/
theorem stepKeepsInv : Obligations.StepKeepsInv := by
  intro s t h ht
  cases hbus : s.bus with
  | nil =>
    rw [step_nil hbus] at ht
    exact keepsInv_idle s t h ht
  | cons e rest =>
    rw [step_cons hbus] at ht
    exact keepsInv_handle e (s.setBus rest) t h ht

/-- Settles O30: nothing is listed, and the addressed instance is at reset. -/
theorem resetMeetsInv : Obligations.ResetMeetsInv := by
  have hnone {α : Type} {p : α → Prop} : ∀ e ∈ ([] : List α), p e := nofun
  exact ⟨⟨⟨.nil, hnone⟩, hnone⟩, ⟨.nil, hnone⟩, hnone, legalCore_reset, hnone, rfl⟩

end Sys2Proof
end

section
/-! The register file as the host sees it: what a write stores, and what a read returns after it (O9). -/

namespace Sys2Proof.Machine

/-! ## The enumerated fields -/

theorem format_code_ofCode (c : BitVec 3) : (Format.ofCode c).code = c := by
  revert c
  decide

theorem kind_code_ofCode_toNat (c : BitVec 3) :
    (Kind.ofCode c).code.toNat = if c.toNat ≤ 4 then c.toNat else 0 := by
  revert c
  decide

theorem kind_ofCode_reserved {c : BitVec 3} (h : 4 < c.toNat) : Kind.ofCode c = .sine := by
  revert c
  decide

theorem legalTag_toNat (t : BitVec 4) : (legalTag t).toNat = if t.toNat ≤ 8 then t.toNat else 0 := by
  unfold legalTag
  split <;> rfl

/-! ## A read after a write -/

/-- The data word that a register of the given word format holds after a write of `d`; `before` is the word it held
(R81). -/
def storedWord (P : Params) (fmt : WordFormat) (before d : Data) : Data :=
  match fmt with
  | .word64 => d
  | .u32 => (fieldU32 d).setWidth 64
  | .length => (fieldLength P d).setWidth 64
  | .enumFormat => (fieldFormat d).code.setWidth 64
  | .enumKind => (fieldKind d).code.setWidth 64
  | .route => (fieldRoute d).setWidth 64
  | .cmdw => 0
  | .stat => before
  | .ro64 => P.noiseModeFixed

/-- A read after a write: the written register reads the stored word, every other as before (R24). -/
theorem readReg_writeReg (P : Params) (reg other : Reg) (d : Data) (c : CoreState) :
    readReg P other (writeReg P reg d c) =
      if other = reg then storedWord P (wordFormat reg) (readReg P reg c) d else readReg P other c := by
  cases reg <;> cases other <;> rfl

theorem dataSlot_setWidth (r : BitVec 32) (i : Nat) : dataSlot (r.setWidth 64) i = (routeSlot r i).toNat := by
  rw [dataSlot, routeSlot_toNat, BitVec.toNat_setWidth_of_le (by decide)]

theorem toNat_extract_slot (d : Data) (i : Nat) : (d.extractLsb' (4 * i) 4).toNat = dataSlot d i := by
  rw [BitVec.extractLsb'_toNat, Nat.shiftRight_eq_div_pow, Nat.pow_mul]
  rfl

/-- A slot of a stored ROUTE word, as a number (R25). -/
theorem routeSlot_fieldRoute_toNat (d : Data) {i : Nat} (h : i < 8) :
    (routeSlot (fieldRoute d) i).toNat = if dataSlot d i ≤ 8 then dataSlot d i else 0 := by
  rw [routeSlot_fieldRoute d i h, legalTag_toNat, toNat_extract_slot]

/-- The stored word is what the register's format says it reads back (R24, R25, R26, R81). -/
theorem readsBack_storedWord (P : Params) (fmt : WordFormat) (before d : Data) :
    ReadsBack P fmt before d (storedWord P fmt before d) := by
  have hcode (c : BitVec 3) : (c.setWidth 64).toNat = c.toNat := BitVec.toNat_setWidth_of_le (by decide)
  have hthree : (d.setWidth 3).toNat = d.toNat % 8 := BitVec.toNat_setWidth 3 d
  have hword (r : BitVec 32) : (r.setWidth 64).toNat = r.toNat := BitVec.toNat_setWidth_of_le (by decide)
  cases fmt with
  | word64 => rfl
  | u32 => exact (hword _).trans (BitVec.toNat_setWidth 32 d)
  | length => exact (hword _).trans (fieldLength_toNat P d)
  | enumFormat =>
    show ((Format.ofCode (d.setWidth 3)).code.setWidth 64).toNat = d.toNat % 8
    rw [format_code_ofCode, hcode, hthree]
  | enumKind =>
    show ((Kind.ofCode (d.setWidth 3)).code.setWidth 64).toNat = _
    rw [hcode, kind_code_ofCode_toNat, hthree]
  | route =>
    refine ⟨(hword _).trans_lt (fieldRoute d).isLt, fun i hi => ?_⟩
    exact (dataSlot_setWidth _ i).trans (routeSlot_fieldRoute_toNat d hi)
  | cmdw => rfl
  | stat => rfl
  | ro64 => rfl

theorem readsBack_writeReg (P : Params) (reg : Reg) (d : Data) (c : CoreState) :
    ReadsBack P (wordFormat reg) (readReg P reg c) d (readReg P reg (writeReg P reg d c)) := by
  rw [readReg_writeReg, if_pos rfl]
  exact readsBack_storedWord P _ _ d

/-! ## Reserved field values -/

theorem fieldKind_reserved {d : Data} (h : 4 < d.toNat % 8) : fieldKind d = .sine :=
  kind_ofCode_reserved (by rwa [BitVec.toNat_setWidth])

theorem wordFormat_routeReg (src : Source) : wordFormat (routeReg src) = .route := by cases src <;> rfl

theorem route_writeReg (P : Params) (src : Source) (d : Data) (c : CoreState) :
    (writeReg P (routeReg src) d c).regs.route src = fieldRoute d := by cases src <;> rfl

/-- NONE is no destination (R120). -/
theorem dest_code_toNat_ne_zero (dst : Dest) : dst.code.toNat ≠ 0 := by cases dst <;> decide

end Sys2Proof.Machine

namespace Sys2Proof
open Machine

/-- Settles O9: each clause reads back what the register's word format stores. -/
theorem reservedFieldValuesStoreZero : Obligations.ReservedFieldValuesStoreZero := by
  intro P c d
  refine ⟨readsBack_writeReg P .format d c, fun reg hreg => ?_, fun h => ?_, fun src i hi => ⟨?_, fun h dst he => ?_⟩⟩
  · have hkind : wordFormat reg = .enumKind := by
      simp only [List.mem_cons, List.not_mem_nil, or_false] at hreg
      rcases hreg with rfl | rfl | rfl | rfl <;> rfl
    have hback := readsBack_writeReg P reg d c
    rw [hkind] at hback
    exact hback
  · have hsine := fieldKind_reserved h
    exact ⟨hsine, hsine, hsine, hsine⟩
  · have hback := readsBack_writeReg P (routeReg src) d c
    rw [wordFormat_routeReg] at hback
    exact hback.2 i hi
  · have hslot := routeSlot_fieldRoute_toNat d hi
    rw [route_writeReg] at he
    rw [he, if_neg (Nat.not_le.2 h)] at hslot
    exact dest_code_toNat_ne_zero dst hslot

end Sys2Proof
end

section
/-! Host accesses of a register window (O8, O10, O11), by offset and by byte address. -/

namespace Sys2Proof.Machine

/-! ## The addressed instance after an event -/

theorem coreOf_focus_setCore (n : Nat) (c : CoreState) (s : State) : ((s.focus n).setCore c).coreOf n = c := by
  rw [State.coreOf, State.setCore_cur, focus_cur, if_pos rfl, State.setCore_core]

/-- Replacing the addressed instance changes no other. -/
theorem coreOf_focus_setCore_ne {n m : Nat} (hm : m ≠ n) (c : CoreState) (s : State) :
    ((s.focus n).setCore c).coreOf m = s.coreOf m :=
  (coreOf_congr (s := s.focus n) (t := (s.focus n).setCore c) rfl rfl (by rwa [focus_cur])).trans (coreOf_focus n m s)

theorem atInstance_of_hasInstance {s : State} {n : Nat} (h : HasInstance s n)
    (k : State → Host.Outcome State Fault Refusal) : atInstance n s k = k (s.focus n) := if_pos h

section Step

variable {s : State} {n : Nat} {rest : List Event} (h : HasInstance s n)
include h

theorem step_regWrite {off : BitVec 10} {bytes : Nat} {data : Data} {ov : Bool}
    (hb : s.bus = .regWrite n off bytes data ov :: rest) :
    step s = hostWrite off bytes data ov ((s.setBus rest).focus n) := by
  rw [step_cons hb]
  exact atInstance_of_hasInstance (s := s.setBus rest) h _

theorem step_regRead {off : BitVec 10} {bytes : Nat} (hb : s.bus = .regRead n off bytes :: rest) :
    step s = .next (((s.setBus rest).focus n).reply (.reg (readWord Config.params off bytes (s.coreOf n)))) := by
  rw [step_cons hb]
  refine (atInstance_of_hasInstance (s := s.setBus rest) h _).trans ?_
  rw [hostRead, focus_core]
  rfl

end Step

/-! ## Accesses by offset -/

theorem alignedAccess_eq_false {off : BitVec 10} {bytes : Nat} (h : bytes ≠ 8 ∨ off.toNat % 8 ≠ 0) :
    alignedAccess off bytes = false := by
  rw [alignedAccess, Bool.and_eq_false_iff, beq_eq_false_iff_ne, beq_eq_false_iff_ne]
  exact h

theorem alignedAccess_eight {off : BitVec 10} (h : off.toNat % 8 = 0) : alignedAccess off 8 = true := by
  rw [alignedAccess, h]
  rfl

theorem regAt_unnamed {off : BitVec 10} (h : ∀ reg, regOffset reg ≠ off) : regAt off = none :=
  List.find?_eq_none.2 fun reg _ => by simpa using h reg

/-- A host write to a parameter register stores it and changes nothing else (R81). -/
theorem hostWrite_parameter {reg : Reg} (hreg : reg ≠ .cmd) {s : State} (hb : s.core.busy = false) (data : Data)
    (ov : Bool) :
    hostWrite (regOffset reg) 8 data ov s = .next (s.setCore (writeReg Config.params reg data s.core)) := by
  rw [hostWrite, if_pos (regOffset_aligned reg), regAt_regOffset]
  split
  · next h => cases h
  · next h => exact absurd (Option.some.inj h) hreg
  · next h =>
    obtain rfl := Option.some.inj h
    exact command_of_idle hb _

theorem hostWrite_unaligned {off : BitVec 10} {bytes : Nat} (h : bytes ≠ 8 ∨ off.toNat % 8 ≠ 0) (data : Data)
    (ov : Bool) (s : State) : hostWrite off bytes data ov s = .next s := by
  rw [hostWrite, alignedAccess_eq_false h, if_neg Bool.false_ne_true]

theorem hostWrite_unnamed {off : BitVec 10} (h : ∀ reg, regOffset reg ≠ off) (bytes : Nat) (data : Data) (ov : Bool)
    (s : State) : hostWrite off bytes data ov s = .next s := by
  rw [hostWrite, regAt_unnamed h]
  exact ite_self _

theorem readWord_register (P : Params) (reg : Reg) (c : CoreState) :
    readWord P (regOffset reg) 8 c = readReg P reg c := by
  rw [readWord, if_pos (regOffset_aligned reg), regAt_regOffset]

theorem readWord_unaligned (P : Params) {off : BitVec 10} {bytes : Nat} (h : bytes ≠ 8 ∨ off.toNat % 8 ≠ 0)
    (c : CoreState) : readWord P off bytes c = 0 := by
  rw [readWord, alignedAccess_eq_false h, if_neg Bool.false_ne_true]

theorem readWord_unnamed (P : Params) {off : BitVec 10} (h : ∀ reg, regOffset reg ≠ off) (bytes : Nat)
    (c : CoreState) : readWord P off bytes c = 0 := by
  rw [readWord, regAt_unnamed h]
  exact ite_self _

/-- A write leaves every working buffer unspecified exactly for FORMAT and BUFFER_LENGTH (R26). -/
theorem workAfterStore_eq (reg : Reg) (w : Work) :
    workAfterStore reg w = if reg = .format ∨ reg = .bufferLength then Work.unspecified else w := by
  cases reg <;> rfl

/-! ## Accesses by byte address -/

/-- The little-endian bytes of a data word stand for it (R11, R80). -/
theorem valueLE_wordBytes (d : Data) :
    BitVec.ofNat 64 (valueLE ((List.range 8).map fun j => BitVec.ofNat 8 (d.toNat / 256 ^ j))) = d := by
  have hlt : d.toNat < 256 ^ 8 := d.isLt
  rw [← bytesLE_eq_map, valueLE_bytesLE, Nat.mod_eq_of_lt hlt, BitVec.ofNat_toNat, BitVec.setWidth_eq]

/-- Storing bytes that are all skipped changes nothing. -/
theorem writeBytes_skipped (skip : Addr → Bool) (bs : List Byte) (a : Addr) (m : List Host.Cell)
    (h : ∀ j < bs.length, skip (a + BitVec.ofNat 64 j) = true) : writeBytes skip a bs m = m := by
  induction bs generalizing a with
  | nil => rfl
  | cons b bs ih =>
    have hfirst : skip a = true := by simpa using h 0 (Nat.succ_pos _)
    rw [writeBytes, if_pos hfirst]
    refine ih (a + 1) fun j hj => ?_
    rw [add_one_add_ofNat]
    exact h (j + 1) (Nat.succ_lt_succ hj)

/-- A read inside the windows that is no register read returns zeros (R80). -/
theorem memBytes_in_windows {s : State} {a : Addr} {n : Nat}
    (h : ∀ j < n, InRegisterWindow s (a + BitVec.ofNat 64 j)) : memBytes s a n = List.replicate n 0 := by
  rw [List.eq_replicate_iff]
  refine ⟨by simp [memBytes, runAddrs], fun b hb => ?_⟩
  obtain ⟨x, hx, rfl⟩ := List.mem_map.1 hb
  obtain ⟨j, hj, rfl⟩ := mem_runAddrs.1 hx
  exact if_pos ((inRegisterWindow_iff s _).2 (h j hj))

section ByAddress

variable {s : State} {n : Nat} {a : Addr} {off : BitVec 10} (hw : WindowAt s a n off)
include hw

/-- An aligned 8-byte store in a window is the host write at that offset (R23, R80). -/
theorem memWrite_aligned {data : List Byte} (hlen : data.length = 8) (hoff : off.toNat % 8 = 0) (ov : Bool) :
    memWrite a data ov s = atInstance n s (hostWrite off 8 (BitVec.ofNat 64 (valueLE data)) ov) := by
  rw [memWrite, registerAccess_of_first hw, hlen, if_pos (alignedAccess_eight hoff)]

/-- An aligned 8-byte read in a window is the host read at that offset (R23, R80). -/
theorem memRead_aligned (hoff : off.toNat % 8 = 0) :
    memRead a 8 s = atInstance n s fun t =>
      .next (t.reply (.mem (bytesLE 8 (readWord Config.params off 8 t.core).toNat))) := by
  rw [memRead, registerAccess_of_first hw, if_pos (alignedAccess_eight hoff)]

theorem memWrite_unaligned {data : List Byte} (h : data.length ≠ 8 ∨ off.toNat % 8 ≠ 0)
    (hin : ∀ j < data.length, InRegisterWindow s (a + BitVec.ofNat 64 j)) (ov : Bool) :
    memWrite a data ov s = .next s := by
  rw [memWrite, registerAccess_of_first hw, alignedAccess_eq_false h, if_neg Bool.false_ne_true,
    writeBytes_skipped _ _ _ _ fun j hj => (inRegisterWindow_iff s _).2 (hin j hj)]
  exact agentAccess_of_no_memory hin s

theorem memRead_unaligned {bytes : Nat} (h : bytes ≠ 8 ∨ off.toNat % 8 ≠ 0)
    (hin : ∀ j < bytes, InRegisterWindow s (a + BitVec.ofNat 64 j)) :
    memRead a bytes s = .next (s.reply (.mem (List.replicate bytes 0))) := by
  rw [memRead, registerAccess_of_first hw, alignedAccess_eq_false h, if_neg Bool.false_ne_true,
    memBytes_in_windows hin]
  exact agentAccess_of_no_memory hin _

end ByAddress

end Sys2Proof.Machine

namespace Sys2Proof
open Machine

/-- Settles O8: the step stores the register of the instance made the addressed one, and what each register then reads
is the law of a read after a write. -/
theorem hostWriteStoresItsRegister : Obligations.HostWriteStoresItsRegister := by
  intro s n reg data ov rest hn hreg hidle hbus
  have hcore : ((s.setBus rest).focus n).core = s.coreOf n := focus_core n _
  let c := writeReg Config.params reg data (s.coreOf n)
  let t := ((s.setBus rest).focus n).setCore c
  have hstep : step s = .next t := by
    rw [step_regWrite hn hbus, hostWrite_parameter hreg (by rwa [hcore]), hcore]
  have ht : t.coreOf n = c := coreOf_focus_setCore n c _
  refine ⟨t, hstep, focus_cur n _, ?_, fun other hother => ?_, ?_, ?_, ?_, ?_,
    fun m hm => coreOf_focus_setCore_ne hm c _, focus_mem n _, focus_bus n _, focus_replies n _, focus_tableBuilt n _,
    focus_tableLock n _, focus_platform n _⟩ <;> rw [ht]
  · exact readsBack_writeReg Config.params reg data (s.coreOf n)
  · rw [readReg_writeReg, if_neg hother]
  · exact workAfterStore_eq reg _
  all_goals rfl

/-- Settles O10: each clause is the law of its access, at the state in which the instance is the addressed one. -/
theorem onlyAlignedAccessesReachRegisters : Obligations.OnlyAlignedAccessesReachRegisters := by
  intro s n rest hn u
  have hcore : u.core = s.coreOf n := focus_core n _
  have hat (k : State → Host.Outcome State Fault Refusal) : atInstance n (s.setBus rest) k = k u :=
    atInstance_of_hasInstance (s := s.setBus rest) hn k
  refine ⟨fun reg hbus => ?_, fun reg data ov hreg hidle hbus => ?_, fun off bytes data ov hoff hbus => ?_,
    fun off bytes hoff hbus => ?_, fun a off d ov hw hoff hbus => ?_, fun a reg hw hbus => ?_,
    fun a off data ov hw hoff hin hbus => ?_, fun a off bytes hw hoff hin hbus => ?_⟩
  · rw [step_regRead hn hbus, readWord_register]
  · rw [step_regWrite hn hbus, hostWrite_parameter hreg (by rwa [hcore]), hcore]
  · rw [step_regWrite hn hbus, hostWrite_unaligned hoff]
  · rw [step_regRead hn hbus, readWord_unaligned _ hoff]
  · have hstore : step s = hostWrite off 8 d ov u := by
      rw [step_cons hbus, handle, memWrite_aligned (s := s.setBus rest) hw (by simp) hoff, valueLE_wordBytes, hat]
    exact hstore.trans (step_regWrite (s := s.setBus (.regWrite n off 8 d ov :: rest)) hn rfl).symm
  · have hoff : (regOffset reg).toNat % 8 = 0 := by cases reg <;> rfl
    rw [step_cons hbus, handle, memRead_aligned (s := s.setBus rest) hw hoff, hat, readWord_register, hcore,
      bytesLE_eq_map]
  · rw [step_cons hbus]
    exact memWrite_unaligned (s := s.setBus rest) hw hoff hin ov
  · rw [step_cons hbus]
    exact memRead_unaligned (s := s.setBus rest) hw hoff hin

/-- Settles O11: the register map finds nothing at the offset, so a write has no effect and a read returns 0. -/
theorem unnamedOffsetsReadZero : Obligations.UnnamedOffsetsReadZero := by
  intro s n off bytes data ov rest hn hoff
  refine ⟨fun hbus => ?_, fun hbus => ?_⟩
  · rw [step_regWrite hn hbus, hostWrite_unnamed hoff]
  · rw [step_regRead hn hbus, readWord_unnamed _ hoff]

end Sys2Proof
end

section
/-! What a reset leaves (O13, O15). -/

namespace Sys2Proof.Machine

/-- What every register of an instance at reset reads (R24, R39). -/
theorem readReg_reset (reg : Reg) :
    readReg Config.params reg CoreState.reset = if reg = .noiseMode then Config.noiseModeFixed else 0 := by
  cases reg <;> rfl

/-- The machine's reset state has every instance at reset (R50, R247). -/
theorem coreOf_reset (n : Nat) : State.reset.coreOf n = CoreState.reset := ite_self _

/-- Everything a reset of the addressed instance leaves alone, and the lock it frees (R260, R261, R262). -/
theorem resetInstance_spec (P : Params) (s : State) :
    (resetInstance P s).core = CoreState.reset ∧ (resetInstance P s).cur = s.cur ∧
    (resetInstance P s).others = s.others ∧ (resetInstance P s).tableBuilt = s.tableBuilt ∧
    (resetInstance P s).bus = s.bus ∧
    (s.tableLock = none ∨ s.tableLock = some s.cur → (resetInstance P s).tableLock = none) ∧
    (s.core.inFlight = none → (resetInstance P s).mem = s.mem) := by
  unfold resetInstance
  extract_lets cut free
  obtain ⟨hcur, hothers, hbuilt, hbus, hlock, hmem⟩ : cut.cur = s.cur ∧ cut.others = s.others ∧
      cut.tableBuilt = s.tableBuilt ∧ cut.bus = s.bus ∧ cut.tableLock = s.tableLock ∧
      (s.core.inFlight = none → cut.mem = s.mem) := by
    cases hflight : s.core.inFlight with
    | none =>
      have hcut : cut = s := by simp only [cut, hflight]
      rw [hcut]
      exact ⟨rfl, rfl, rfl, rfl, rfl, fun _ => rfl⟩
    | some F =>
      have hcut : cut = scribble P (windowBytes F s.core) s := by simp only [cut, hflight]
      obtain ⟨-, hcur, hothers, hbuilt, hlock, -, hbus, -⟩ := scribble_spec P (windowBytes F s.core) s
      rw [hcut]
      exact ⟨hcur, hothers, hbuilt, hbus, hlock, nofun⟩
  by_cases hheld : cut.tableLock = some cut.cur
  · rw [show free = cut.setTableLock none from if_pos hheld]
    exact ⟨rfl, hcur, hothers, hbuilt, hbus, fun _ => rfl, hmem⟩
  · rw [show free = cut from if_neg hheld]
    refine ⟨rfl, hcur, hothers, hbuilt, hbus, fun h => ?_, hmem⟩
    rw [← hcur, ← hlock] at h
    exact h.resolve_right hheld

end Sys2Proof.Machine

namespace Sys2Proof
open Machine

/-- Settles O13: the step resets the instance made the addressed one. -/
theorem resetSetsEveryRegister : Obligations.ResetSetsEveryRegister := by
  intro s n rest hn hbus
  let u := (s.setBus rest).focus n
  have hstep : step s = .next (resetInstance Config.params u) := by
    rw [step_cons hbus, handle]
    exact atInstance_of_hasInstance (s := s.setBus rest) hn _
  obtain ⟨hcore, hcur, hothers, hbuilt, hb, hlock, hmem⟩ := resetInstance_spec Config.params u
  have hcur' : (resetInstance Config.params u).cur = n := hcur.trans (focus_cur n _)
  have hat : (resetInstance Config.params u).coreOf n = CoreState.reset := by
    rw [State.coreOf, if_pos hcur'.symm, hcore]
  refine ⟨_, hstep, hcur', fun reg => ?_, by rw [hat]; rfl, by rw [hat]; rfl, by rw [hat]; rfl, by rw [hat]; rfl,
    fun h => hlock ?_, fun m hm => ?_, hbuilt.trans (focus_tableBuilt n _), hb.trans (focus_bus n _), fun hidle => ?_⟩
  · rw [hat]
    exact readReg_reset reg
  · rwa [focus_tableLock, focus_cur]
  · exact (coreOf_congr hcur hothers (by rwa [focus_cur])).trans (coreOf_focus n m _)
  · refine (hmem ?_).trans (focus_mem n _)
    rw [focus_core]
    exact (CoreState.busy_eq_false _).1 hidle

/-- Settles O15: every instance is at reset, and nothing is listed. -/
theorem resetStateReads : Obligations.ResetStateReads := by
  refine ⟨fun n => ?_, rfl, resetMeetsInv.memory⟩
  rw [coreOf_reset]
  exact ⟨readReg_reset, rfl, rfl, rfl⟩

end Sys2Proof
end

section
/-! What a COMPUTE leaves alone (O20), and that one over no frames does nothing (O23). -/

namespace Sys2Proof.Machine

/-! ## The stages over sample memory leave the instance -/

/-- What every frame's pass keeps, the pass over the frames keeps. -/
theorem foldl_keeps {β : Type} (π : State → β) {f : State → Nat → State} (hf : ∀ u i, π (f u i) = π u) (l : List Nat)
    (s : State) : π (l.foldl f s) = π s := by
  induction l generalizing s with
  | nil => rfl
  | cons i l ih => exact (ih _).trans (hf s i)

section SampleStages

variable (P : Params) (F : Format)

/-- Accumulate leaves the instance's registers and hidden state (R222). -/
theorem accumulate_core (i : Nat) (a : F64) (s : State) : (accumulate P F i a s).core = s.core := by
  cases F
  iterate 5 exact (convInt_onlyDraws P _ a s).core
  · exact (settle32_onlyDraws P _ s).core
  · exact (settle_onlyDraws P _ s).core
  · exact (settle_onlyDraws P _ s).core

theorem oscFrame_core (k : OscId) (s : State) (i : Nat) : (oscFrame P k F s i).core = s.core :=
  (accumulate_core P F i _ _).trans (wave_onlyDraws P _ _ _ _ s).core

theorem volumeFrame_core (s : State) (i : Nat) : (volumeFrame P F s i).core = s.core :=
  (storeFromDouble_core P F i _ _).trans (settle_onlyDraws P _ s).core

theorem copyBack_core (s : State) (i : Nat) : (copyBack P F s i).core = s.core := storeFromDouble_core P F i _ s

theorem oscRender_core (k : OscId) (s : State) : (oscRender P k F s).core = s.core :=
  foldl_keeps State.core (oscFrame_core P F k) _ s

theorem volumeStage_core (s : State) : (volumeStage P F s).core = s.core :=
  foldl_keeps State.core (volumeFrame_core P F) _ s

/-- The pitch stage writes no source's buffer: of the working buffers it writes W_PITCH alone (R190). -/
theorem pitchStage_work_of (s : State) (src : Source) :
    (pitchStage P F s).core.work.of src = s.core.work.of src := by
  unfold pitchStage
  split
  · rfl
  · extract_lets X root start done
    have hframe (u : State) (i : Nat) : (pitchFrame P root.1 X u i).core.work.of src = u.core.work.of src := by
      obtain ⟨-, -, hwork, -⟩ := pitchFrame_keeps P root.1 X u i
      exact hwork src
    calc _ = done.core.work.of src :=
          congrArg (·.work.of src) (foldl_keeps State.core (copyBack_core P F) _ done)
      _ = start.core.work.of src := foldl_keeps (·.core.work.of src) hframe _ start
      _ = s.core.work.of src := congrArg (·.work.of src) (keyPitch_onlyDraws P _ s).core

end SampleStages

/-! ## A driver writes the buffer of its own source, and only where that is routed (R139, R156) -/

section Drivers

variable (P : Params) {src : Source}

theorem setSource_work_of_ne {src' : Source} (h : src ≠ src') (b : List F64) (s : State) :
    (s.setSource src' b).core.work.of src = s.core.work.of src := Work.setOf_of_ne _ h b

theorem envPass_work_of_ne {e : EnvId} (h : src ≠ e.source) (c : Nat) (s : State) :
    (envPass P e c s).core.work.of src = s.core.work.of src := by
  unfold envPass
  extract_lets r len t q v0 slope
  exact (setSource_work_of_ne h _ _).trans
    (congrArg (·.work.of src) ((settle_onlyDraws P _ s).trans (settle_onlyDraws P _ v0.2)).core)

theorem envLoop_work_of_ne {e : EnvId} (h : src ≠ e.source) (fuel c : Nat) (s : State) :
    (envLoop P e fuel c s).core.work.of src = s.core.work.of src := by
  induction fuel generalizing c s with
  | zero => rfl
  | succ fuel ih =>
    unfold envLoop
    split
    · exact (ih _ _).trans (envPass_work_of_ne P h c s)
    · rfl

/-- A routed source is none that has no routing. -/
theorem ne_of_hasRouting {r : Regs} {src' : Source} (h : hasRouting r src = false) (h' : hasRouting r src' = true) :
    src ≠ src' := fun he => Bool.false_ne_true (h.symm.trans (he ▸ h'))

/-- From `s` to `t` the registers stay, and with them the routing, and so does every buffer of a source without
routing. -/
structure KeepsUnrouted (s t : State) : Prop where
  regs : t.core.regs = s.core.regs
  work : ∀ src, hasRouting s.core.regs src = false → t.core.work.of src = s.core.work.of src

theorem KeepsUnrouted.trans {s t u : State} (h : KeepsUnrouted s t) (g : KeepsUnrouted t u) : KeepsUnrouted s u :=
  ⟨g.regs.trans h.regs, fun src hr => (g.work src (h.regs ▸ hr)).trans (h.work src hr)⟩

theorem KeepsUnrouted.of_core {s t : State} (h : t.core = s.core) : KeepsUnrouted s t :=
  ⟨congrArg (·.regs) h, fun src _ => congrArg (·.work.of src) h⟩

theorem setInFlight_keepsUnrouted (f : Option Format) (s : State) :
    KeepsUnrouted s (s.setCore (s.core.setInFlight f)) := ⟨rfl, fun _ _ => rfl⟩

theorem envDrive_keepsUnrouted (e : EnvId) (s : State) : KeepsUnrouted s (envDrive P e s) := by
  refine ⟨(envDrive_frame P .s8 e s).regs, fun src h => ?_⟩
  unfold envDrive
  split
  · next hr =>
    have hne := ne_of_hasRouting h hr
    exact (envLoop_work_of_ne P hne _ _ _).trans (setSource_work_of_ne hne _ s)
  · rfl

theorem lfoDrive_keepsUnrouted (l : LfoId) (s : State) : KeepsUnrouted s (lfoDrive P l s) := by
  refine ⟨(lfoDrive_frame P .s8 l s).regs, fun src h => ?_⟩
  unfold lfoDrive
  split
  · next hr => exact setSource_work_of_ne (ne_of_hasRouting h hr) _ s
  · rfl

theorem noiseDrive_keepsUnrouted (s : State) : KeepsUnrouted s (noiseDrive P s) := by
  refine ⟨(noiseDrive_frame P .s8 s).regs, fun src h => ?_⟩
  unfold noiseDrive
  split
  · next hr =>
    extract_lets r v
    exact (setSource_work_of_ne (ne_of_hasRouting h hr) _ _).trans
      (congrArg (·.work.of src) (noiseValues_onlyDraws P _ _ _ _ _ _ s).core)
  · rfl

/-- The stages leave the buffer of a source without routing. -/
theorem stages_keepsUnrouted (F : Format) (s : State) : KeepsUnrouted s (stages P F s) :=
  (envDrive_keepsUnrouted P .env0 s).trans <| (envDrive_keepsUnrouted P .env1 _).trans <|
    (lfoDrive_keepsUnrouted P .lfo0 _).trans <| (lfoDrive_keepsUnrouted P .lfo1 _).trans <|
      (noiseDrive_keepsUnrouted P _).trans <| (KeepsUnrouted.of_core (oscRender_core P F .osc0 _)).trans <|
        (KeepsUnrouted.of_core (oscRender_core P F .osc1 _)).trans <|
          (KeepsUnrouted.mk (pitchStage_frame P F _).regs fun src _ => pitchStage_work_of P F _ src).trans <|
            .of_core (volumeStage_core P F _)

theorem runCompute_keepsUnrouted {F : Format} {s t : State} (ht : runCompute P F s = .next t) : KeepsUnrouted s t := by
  rcases runCompute_cases P F s with ⟨-, e⟩ | ⟨-, f, -, e⟩ | ⟨-, -, e⟩ <;> rw [e] at ht
  · obtain rfl := Host.Outcome.next.inj ht
    exact setInFlight_keepsUnrouted none s
  · cases ht
  · obtain rfl := Host.Outcome.next.inj ht
    exact (setInFlight_keepsUnrouted (some F) s).trans
      ((stages_keepsUnrouted P F _).trans (setInFlight_keepsUnrouted none _))

end Drivers

/-- An address that is no byte of a sample access of the call window, as the frame of the stages says it (R65). -/
theorem accessHas_eq_false {F : Format} {c : CoreState} {a : Addr}
    (h : ∀ i < c.frames, ∀ j < F.accessBytes, a ≠ elementAddr F c i + BitVec.ofNat 64 j) :
    accessHas F c a = false := by
  have hb : F.accessBytes ≤ 2 ^ 64 := by cases F <;> decide
  refine List.any_eq_false.2 fun i hi => ?_
  rw [inRun_eq_false hb (h i (List.mem_range.1 hi))]
  exact Bool.false_ne_true

/-! ## No frames -/

section NoFrames

/-- Writing a source's buffer as it is changes nothing. -/
theorem setSource_self (src : Source) (s : State) : s.setSource src (s.core.work.of src) = s := by cases src <;> rfl

theorem fillEntries_nil (old : List F64) : fillEntries [] old = old := rfl

variable (P : Params) {s : State} (h : s.core.frames = 0)
include h

theorem envDrive_no_frames (e : EnvId) : envDrive P e s = s := by
  simp only [envDrive, h, List.replicate_zero, fillEntries_nil, setSource_self]
  exact ite_self s

theorem lfoDrive_no_frames (l : LfoId) : lfoDrive P l s = s := by
  have hnil : lfoValues P l s.core.regs = [] := List.length_eq_zero_iff.1 ((lfoValues_length P l _).trans h)
  rw [lfoDrive, hnil, fillEntries_nil, setSource_self]
  exact ite_self s

theorem noiseDrive_no_frames : noiseDrive P s = s := by
  simp only [noiseDrive, h, noiseValues, fillEntries_nil, setSource_self]
  exact ite_self s

theorem oscRender_no_frames (k : OscId) (F : Format) : oscRender P k F s = s := by
  rw [oscRender, h]
  rfl

theorem pitchStage_no_frames (F : Format) : pitchStage P F s = s := if_pos h

theorem volumeStage_no_frames (F : Format) : volumeStage P F s = s := by
  rw [volumeStage, h]
  rfl

/-- With no frame no stage does anything (R108). -/
theorem stages_no_frames (F : Format) : stages P F s = s := by
  simp only [stages, envDrive_no_frames P h, lfoDrive_no_frames P h, noiseDrive_no_frames P h,
    oscRender_no_frames P h, pitchStage_no_frames P h, volumeStage_no_frames P h]

/-- With no frame the one duty is the table's. -/
theorem dutiesMet_no_frames (F : Format) (hb : s.tableBuilt = true) : DutiesMet F s := by
  refine ⟨fun i hi => ?_, fun i hi => ?_, hb⟩ <;>
  · rw [h] at hi
    exact absurd hi (Nat.not_lt_zero i)

end NoFrames

end Sys2Proof.Machine

namespace Sys2Proof
open Machine

/-- Settles O20: the frame of the atomic step, and with it that each driver writes the buffer of its own source alone. -/
theorem computeFrame : Obligations.ComputeFrame := by
  intro i F s t hF ht
  rw [exec_of_format hF] at ht
  cases hb : s.core.busy with
  | true =>
    rw [command_of_busy hb] at ht
    cases ht
  | false =>
    rw [command_of_idle hb] at ht
    obtain ⟨frame, idle⟩ := runCompute_next ht
    refine ⟨frame.regs, (CoreState.busy_eq_false _).2 idle, frame.cur, frame.others, frame.bus, frame.replies,
      frame.platform, frame.tableBuilt, frame.lock, fun src hr => (runCompute_keepsUnrouted _ ht).work src hr,
      fun a ha => frame.bytes a (accessHas_eq_false ha), fun hnull => ?_⟩
    rw [runCompute, if_pos hnull, State.complete_eq_self s ((CoreState.busy_eq_false _).1 hb)] at ht
    exact (Host.Outcome.next.inj ht).symm

/-- Settles O23: with no frame the duties but the table's are met and no stage does anything. -/
theorem zeroLengthComputeChangesNothing : Obligations.ZeroLengthComputeChangesNothing := by
  intro i F s hF hb hlen hbuilt
  have hframes : s.core.frames = 0 := congrArg BitVec.toNat hlen
  have hself : s.complete = s := State.complete_eq_self s ((CoreState.busy_eq_false _).1 hb)
  rw [exec_of_format hF, command_of_idle hb]
  rcases runCompute_cases Config.params F s with ⟨-, e⟩ | ⟨-, f, hf, -⟩ | ⟨-, -, e⟩
  · rw [e, hself]
  · rw [computeFault_eq_none.2 (dutiesMet_no_frames hframes F hbuilt)] at hf
    cases hf
  · rw [e, stages_no_frames (s := s.begin F) _ hframes, complete_of_begin, hself]

end Sys2Proof
end

section
/-! No command's outcome depends on the hidden state (O31). The five drivers fill the working buffers of the routed
sources from the registers alone; the stages after them read no other buffer, and of W_PITCH, PHASE_ACC and INCR only
what the pitch pass itself has written. So two runs from states that differ in hidden contents alone stay related by
`Agree`, which says which buffers have come to hold the same. -/

namespace Sys2Proof.Machine

/-! ## Operations that read registers and memory alone: they do not see the hidden state -/

section Commute

variable (P : Params) (s : State) (d : CoreState)

theorem settle_setCore (x : F64) : settle P x (s.setCore d) = ((settle P x s).1, (settle P x s).2.setCore d) := by
  unfold settle
  split <;> rfl

theorem settle32_setCore (x : F32) :
    settle32 P x (s.setCore d) = ((settle32 P x s).1, (settle32 P x s).2.setCore d) := by
  unfold settle32
  split <;> rfl

theorem convInt_setCore (n : Nat) (x : F64) :
    convInt P n x (s.setCore d) = ((convInt P n x s).1, (convInt P n x s).2.setCore d) := by
  unfold convInt
  split <;> rfl

theorem toFixed_setCore (x : F64) : toFixed P x (s.setCore d) = ((toFixed P x s).1, (toFixed P x s).2.setCore d) := by
  unfold toFixed
  split <;> rfl

theorem sinOf_setCore (x : F64) : sinOf P x (s.setCore d) = ((sinOf P x s).1, (sinOf P x s).2.setCore d) := by
  simp only [sinOf, settle_setCore]

theorem keyPitch_setCore (x : F64) :
    keyPitch P x (s.setCore d) = ((keyPitch P x s).1, (keyPitch P x s).2.setCore d) := by
  simp only [keyPitch, pow2Of, settle_setCore]

theorem wave_setCore (kind : Kind) (f tp sr : F64) :
    wave P kind f tp sr (s.setCore d) = ((wave P kind f tp sr s).1, (wave P kind f tp sr s).2.setCore d) := by
  cases kind <;> simp only [wave, sinOf_setCore]

theorem noiseValues_setCore (mode : BitVec 64) (fr g : F64) (sr : BitVec 32) (o : BitVec 64) (n : Nat) :
    noiseValues P mode fr g sr o n (s.setCore d) =
      ((noiseValues P mode fr g sr o n s).1, (noiseValues P mode fr g sr o n s).2.setCore d) := by
  induction n generalizing s with
  | zero => rfl
  | succ n ih =>
    have hdraw : draw P (s.setCore d) = ((draw P s).1, (draw P s).2.setCore d) := rfl
    simp only [noiseValues, hdraw, ih]

variable {s d} (hr : d.regs = s.core.regs)
include hr

theorem storeBits_setCore {n : Nat} (F : Format) (i : Nat) (v : BitVec n) :
    storeBits F i v (s.setCore d) = (storeBits F i v s).setCore d := by
  unfold storeBits
  rw [State.setCore_core, elementAddr_congr F hr]
  rfl

theorem storeFromDouble_setCore (F : Format) (i : Nat) (v : F64) :
    storeFromDouble P F i v (s.setCore d) = (storeFromDouble P F i v s).setCore d := by
  have hint (n : Nat) : storeInt P n F i v (s.setCore d) = (storeInt P n F i v s).setCore d := by
    rw [storeInt, convInt_setCore]
    exact storeBits_setCore (by rw [(convInt_onlyDraws P n v s).core, hr]) F i _
  cases F
  iterate 5 exact hint _
  · simp only [storeFromDouble, settle32_setCore]
    exact storeBits_setCore (by rw [(settle32_onlyDraws P _ s).core, hr]) _ i _
  · exact storeBits_setCore hr _ i v
  · exact storeBits_setCore hr _ i v

theorem accumulate_setCore (F : Format) (i : Nat) (a : F64) :
    accumulate P F i a (s.setCore d) = (accumulate P F i a s).setCore d := by
  have hload (n : Nat) : loadBits n F i (s.setCore d) = loadBits n F i s := loadBits_congr n F i hr rfl
  have hint (n : Nat) : accumulateInt P n F i a (s.setCore d) = (accumulateInt P n F i a s).setCore d := by
    simp only [accumulateInt, convInt_setCore, hload]
    exact storeBits_setCore (by rw [(convInt_onlyDraws P n a s).core, hr]) F i _
  have hreal : accumulateReal P F i a (s.setCore d) = (accumulateReal P F i a s).setCore d := by
    simp only [accumulateReal, settle_setCore, hload]
    exact storeBits_setCore (by rw [(settle_onlyDraws P _ s).core, hr]) F i _
  cases F
  iterate 5 exact hint _
  · simp only [accumulate, settle32_setCore, hload]
    exact storeBits_setCore (by rw [(settle32_onlyDraws P _ s).core, hr]) _ i _
  · exact hreal
  · exact hreal

end Commute

/-- A pass over the frames that leaves the instance alone, and sees nothing of it in which `d` differs. -/
theorem foldl_setCore {f : State → Nat → State} (hcore : ∀ u i, (f u i).core = u.core) {s : State} {d : CoreState}
    (l : List Nat) (hf : ∀ u, u.core = s.core → ∀ i ∈ l, f (u.setCore d) i = (f u i).setCore d) :
    l.foldl f (s.setCore d) = (l.foldl f s).setCore d := by
  induction l generalizing s with
  | nil => rfl
  | cons i l ih =>
    rw [List.foldl_cons, List.foldl_cons, hf s rfl i (by simp)]
    exact ih fun u hu j hj => hf u (hu.trans (hcore s i)) j (by simp [hj])

/-! ## Agreement of two instances, and of two states -/

/-- `d` is `c` but for hidden state, and the working buffers of the routed sources in `S` hold the same L entries. -/
structure CoreAgree (S : Set Source) (c d : CoreState) : Prop where
  regs : d.regs = c.regs
  inFlight : d.inFlight = c.inFlight
  work : ∀ src ∈ S, hasRouting c.regs src = true →
    (d.work.of src).take c.frames = (c.work.of src).take c.frames

/-- `t` is `s` but for an addressed instance that agrees. -/
def Agree (S : Set Source) (s t : State) : Prop := ∃ d, CoreAgree S s.core d ∧ t = s.setCore d

theorem sameButHidden_iff {s t : State} : SameButHidden s t ↔ Agree ∅ s t := by
  constructor
  · intro h
    have hregs : t.core.regs = s.core.regs := congrArg (·.core.regs) h
    have hflight : t.core.inFlight = s.core.inFlight := congrArg (·.core.inFlight) h
    exact ⟨t.core, ⟨hregs, hflight, nofun⟩,
      h.trans (congrArg s.setCore (CoreState.ext_fields hregs.symm rfl rfl rfl hflight.symm))⟩
  · rintro ⟨d, ⟨hregs, hflight, -⟩, rfl⟩
    exact congrArg s.setCore (CoreState.ext_fields hregs rfl rfl rfl hflight)

theorem Agree.regs {S : Set Source} {s t : State} (h : Agree S s t) : t.core.regs = s.core.regs := by
  obtain ⟨d, hd, rfl⟩ := h
  exact hd.regs

theorem Agree.mono {S T : Set Source} {s t : State} (h : Agree T s t) (hST : S ⊆ T) : Agree S s t := by
  obtain ⟨d, ⟨hregs, hflight, hwork⟩, rfl⟩ := h
  exact ⟨d, ⟨hregs, hflight, fun src hsrc => hwork src (hST hsrc)⟩, rfl⟩

/-- Changing the COMPUTE in flight of both states keeps their agreement. -/
theorem Agree.setInFlight {S : Set Source} {s t : State} (h : Agree S s t) (f : Option Format) :
    Agree S (s.setCore (s.core.setInFlight f)) (t.setCore (t.core.setInFlight f)) := by
  obtain ⟨d, ⟨hregs, -, hwork⟩, rfl⟩ := h
  exact ⟨d.setInFlight f, ⟨hregs, rfl, hwork⟩, rfl⟩

/-- An unrouted source's buffer need not agree. -/
theorem Agree.insert_unrouted {S : Set Source} {s t : State} (h : Agree S s t) {src : Source}
    (hr : hasRouting s.core.regs src = false) : Agree (insert src S) s t := by
  obtain ⟨d, ⟨hregs, hflight, hwork⟩, rfl⟩ := h
  refine ⟨d, ⟨hregs, hflight, fun src' hsrc' hr' => ?_⟩, rfl⟩
  rcases hsrc' with rfl | hsrc'
  · exact absurd (hr.symm.trans hr') Bool.false_ne_true
  · exact hwork src' hsrc' hr'

/-- A buffer whose first L entries are written alike comes to agree. -/
theorem Agree.setSource {S : Set Source} {s t : State} (h : Agree S s t) (src : Source) {b b' : List F64}
    (hb : b'.take s.core.frames = b.take s.core.frames) :
    Agree (insert src S) (s.setSource src b) (t.setSource src b') := by
  obtain ⟨d, ⟨hregs, hflight, hwork⟩, rfl⟩ := h
  refine ⟨d.setWork (d.work.setOf src b'), ⟨hregs, hflight, fun src' hsrc' hr' => ?_⟩, rfl⟩
  by_cases he : src' = src
  · subst he
    rw [CoreState.setWork_work, State.setSource_core, CoreState.setWork_work, Work.setOf_of_same, Work.setOf_of_same]
    exact hb
  · rw [CoreState.setWork_work, State.setSource_core, CoreState.setWork_work, Work.setOf_of_ne _ he,
      Work.setOf_of_ne _ he]
    exact hwork src' (hsrc'.resolve_left he) hr'

/-! ## The drivers make the buffers of the routed sources agree -/

theorem fillEntries_take {new : List F64} {L : Nat} (h : new.length = L) (old : List F64) :
    (fillEntries new old).take L = new := by
  rw [fillEntries, ← h, List.take_left]

/-- The envelope kernel's pass inside the window sees and changes the window's entries alone. -/
theorem applyEnvKernel_take (P : Params) (w : List F64) {c n L : Nat} (h : c + n ≤ L) (v0 slope : F64) :
    (applyEnvKernel P w c n v0 slope).take L = applyEnvKernel P (w.take L) c n v0 slope := by
  have hslice : ((w.take L).drop c).take n = (w.drop c).take n := by
    rw [List.drop_take, List.take_take, Nat.min_eq_left (by omega)]
  have hhead : (w.take L).take c = w.take c := by rw [List.take_take, Nat.min_eq_left (by omega)]
  have htail : (w.drop (c + n)).take (L - (min c w.length + n)) = (w.take L).drop (c + n) := by
    rw [List.drop_take]
    rcases Nat.le_total c w.length with hc | hc
    · rw [Nat.min_eq_left hc]
    · rw [List.drop_eq_nil_of_le (by omega), List.take_nil, List.take_nil]
  unfold applyEnvKernel
  rw [hslice, hhead, List.take_append, List.take_of_length_le (by simp; omega)]
  simp only [List.length_append, List.length_take, List.length_map, List.length_range, htail]

section Drivers

variable (P : Params) {S : Set Source} {s t : State}

theorem envPass_regs (e : EnvId) (c : Nat) (s : State) : (envPass P e c s).core.regs = s.core.regs := by
  simp only [envPass, State.setSource_core, CoreState.setWork_regs]
  rw [(settle_onlyDraws P _ _).core, (settle_onlyDraws P _ _).core]

theorem Agree.envPass {e : EnvId} {c : Nat} (h : Agree S s t) (he : e.source ∈ S)
    (hr : hasRouting s.core.regs e.source = true) (hc : c < s.core.frames) :
    Agree S (envPass P e c s) (envPass P e c t) := by
  obtain ⟨d, hd, rfl⟩ := h
  rw [← Set.insert_eq_of_mem he]
  unfold Machine.envPass
  extract_lets r len τ q v0 slope r' len' τ' q' v0' slope'
  have hregs : r' = r := hd.regs
  have hv0 : v0' = (v0.1, v0.2.setCore d) := by simp only [v0', v0, len', τ', q', hregs, settle_setCore]; rfl
  have hslope : slope' = (slope.1, slope.2.setCore d) := by
    simp only [slope', slope, len', q', τ', hregs, hv0, settle_setCore]; rfl
  have hcore : slope.2.core = s.core := ((settle_onlyDraws P _ s).trans (settle_onlyDraws P _ _)).core
  have hn := subRange_le P e r c
  have hin : c + subRange P e r c ≤ s.core.frames := by
    have : r.bufferLength.toNat = s.core.frames := rfl
    omega
  rw [hslope, hregs]
  refine Agree.setSource ⟨d, hcore ▸ hd, rfl⟩ _ ?_
  rw [hcore, applyEnvKernel_take P _ hin, applyEnvKernel_take P _ hin, hv0, State.setCore_core, hd.work _ he hr]

theorem Agree.envLoop {e : EnvId} (h : Agree S s t) (he : e.source ∈ S)
    (hr : hasRouting s.core.regs e.source = true) (fuel c : Nat) :
    Agree S (envLoop P e fuel c s) (envLoop P e fuel c t) := by
  induction fuel generalizing s t c with
  | zero => exact h
  | succ fuel ih =>
    rw [Machine.envLoop, Machine.envLoop, frames_congr h.regs, CoreState.time, CoreState.time, h.regs]
    split
    · next hin => exact ih (h.envPass P he hr hin.1) (by rwa [envPass_regs]) _
    · exact h

theorem Agree.envDrive (h : Agree S s t) (e : EnvId) :
    Agree (insert e.source S) (envDrive P e s) (envDrive P e t) := by
  rw [Machine.envDrive, Machine.envDrive, h.regs, frames_congr h.regs]
  split
  · next hr =>
    refine Agree.envLoop P (h.setSource e.source ?_) (Set.mem_insert _ _) hr _ _
    rw [fillEntries_take List.length_replicate, fillEntries_take List.length_replicate]
  · next hr => exact h.insert_unrouted (Bool.eq_false_iff.2 hr)

theorem Agree.lfoDrive (h : Agree S s t) (l : LfoId) :
    Agree (insert l.source S) (lfoDrive P l s) (lfoDrive P l t) := by
  rw [Machine.lfoDrive, Machine.lfoDrive, h.regs]
  split
  · refine h.setSource l.source ?_
    have hlen : (lfoValues P l s.core.regs).length = s.core.frames := lfoValues_length P l _
    rw [fillEntries_take hlen, fillEntries_take hlen]
  · next hr => exact h.insert_unrouted (Bool.eq_false_iff.2 hr)

theorem Agree.noiseDrive (h : Agree S s t) : Agree (insert .noise S) (noiseDrive P s) (noiseDrive P t) := by
  obtain ⟨d, hd, rfl⟩ := h
  unfold Machine.noiseDrive
  rw [State.setCore_core, hd.regs, frames_congr hd.regs]
  split
  · extract_lets r v v'
    have hv : v' = (v.1, v.2.setCore d) := noiseValues_setCore P s d _ _ _ _ _ _
    have hcore : v.2.core = s.core := (noiseValues_onlyDraws P _ _ _ _ _ _ s).core
    have hlen : v.1.length = s.core.frames := by simp [v, noiseValues_fst]
    rw [hv]
    refine Agree.setSource ⟨d, hcore ▸ hd, rfl⟩ _ ?_
    rw [hcore, fillEntries_take hlen, fillEntries_take hlen]
  · next hr => exact Agree.insert_unrouted ⟨d, hd, rfl⟩ (Bool.eq_false_iff.2 hr)

end Drivers

/-! ## What the later stages read of the working buffers -/

/-- A source that is routed to some destination has routing (R120, R121). -/
theorem hasRouting_of_routes {r : Regs} {src : Source} {dst : Dest} (h : routes r src dst = true) :
    hasRouting r src = true := by
  obtain ⟨i, hi, hslot⟩ := List.any_eq_true.1 h
  refine List.any_eq_true.2 ⟨i, hi, ?_⟩
  rw [eq_of_beq hslot]
  cases dst <;> rfl

theorem entry_of_take {P : Params} {b b' : List F64} {L i : Nat} (h : b'.take L = b.take L) (hi : i < L) :
    entry P b' i = entry P b i := by
  rw [entry, entry, List.getD_eq_getElem?_getD, List.getD_eq_getElem?_getD, ← List.getElem?_take_of_lt hi, h,
    List.getElem?_take_of_lt hi]

section Reads

variable (P : Params) {c d : CoreState} (h : CoreAgree Set.univ c d) {i : Nat} (hi : i < c.frames)
include h hi

/-- A routed sample is read the same of instances that agree. -/
theorem CoreAgree.sourceAt {src : Source} {dst : Dest} (hr : routes c.regs src dst = true) :
    d.sourceAt P src i = c.sourceAt P src i :=
  entry_of_take (h.work src (Set.mem_univ _) (hasRouting_of_routes hr)) hi

theorem CoreAgree.bend (k : OscId) : Machine.bend P k i d = Machine.bend P k i c := by
  funext b src
  unfold Machine.bend
  rw [h.regs]
  congr 1 <;> exact ite_congr rfl (fun hr => by rw [h.sourceAt P hi hr]) fun _ => rfl

theorem CoreAgree.bendAll (k : OscId) : Machine.bendAll P k i d = Machine.bendAll P k i c := by
  unfold Machine.bendAll
  rw [h.bend P hi, h.regs]

theorem CoreAgree.gain : Machine.gain P i d = Machine.gain P i c := by
  unfold Machine.gain
  rw [h.regs]
  congr 1
  funext g src
  exact ite_congr rfl (fun hr => by rw [h.sourceAt P hi hr]) fun _ => rfl

theorem CoreAgree.tuning : Machine.tuning P i d = Machine.tuning P i c := by
  unfold Machine.tuning
  rw [h.regs]
  congr 1
  funext g src
  exact ite_congr rfl (fun hr => by rw [h.sourceAt P hi hr]) fun _ => rfl

end Reads

/-! ## The stages over sample memory -/

section Stages

variable (P : Params) {s : State} {d : CoreState}

theorem oscFrame_setCore (k : OscId) (F : Format) (h : CoreAgree Set.univ s.core d) {i : Nat}
    (hi : i < s.core.frames) : oscFrame P k F (s.setCore d) i = (oscFrame P k F s i).setCore d := by
  unfold oscFrame
  simp only [State.setCore_core, CoreState.sampleRate, CoreState.time, h.regs, h.bendAll P hi, wave_setCore]
  exact accumulate_setCore P (by rw [(wave_onlyDraws P _ _ _ _ s).core, h.regs]) F i _

theorem volumeFrame_setCore (F : Format) (h : CoreAgree Set.univ s.core d) {i : Nat} (hi : i < s.core.frames) :
    volumeFrame P F (s.setCore d) i = (volumeFrame P F s i).setCore d := by
  have hload : loadAsDouble F i (s.setCore d) = loadAsDouble F i s := loadAsDouble_congr F i h.regs rfl
  unfold volumeFrame
  simp only [State.setCore_core, h.gain P hi, settle_setCore, hload]
  exact storeFromDouble_setCore P (by rw [(settle_onlyDraws P _ s).core, h.regs]) F i _

theorem copyBack_setCore (F : Format) (hr : d.regs = s.core.regs) {i : Nat}
    (he : entry P d.work.pitch i = entry P s.core.work.pitch i) :
    copyBack P F (s.setCore d) i = (copyBack P F s i).setCore d := by
  rw [copyBack, State.setCore_core, he]
  exact storeFromDouble_setCore P hr F i _

theorem Agree.oscRender {t : State} (k : OscId) (F : Format) (h : Agree Set.univ s t) :
    Agree Set.univ (oscRender P k F s) (oscRender P k F t) := by
  obtain ⟨d, hd, rfl⟩ := h
  refine ⟨d, by rwa [oscRender_core], ?_⟩
  rw [Machine.oscRender, State.setCore_core, frames_congr hd.regs]
  exact foldl_setCore (oscFrame_core P F k) _ fun u hu i hi =>
    oscFrame_setCore P k F (hu ▸ hd) (hu ▸ List.mem_range.1 hi)

theorem Agree.volumeStage {t : State} (F : Format) (h : Agree Set.univ s t) :
    Agree Set.univ (volumeStage P F s) (volumeStage P F t) := by
  obtain ⟨d, hd, rfl⟩ := h
  refine ⟨d, by rwa [volumeStage_core], ?_⟩
  rw [Machine.volumeStage, State.setCore_core, frames_congr hd.regs]
  exact foldl_setCore (volumeFrame_core P F) _ fun u hu i hi =>
    volumeFrame_setCore P F (hu ▸ hd) (hu ▸ List.mem_range.1 hi)

/-! ## The pitch stage -/

theorem frameIncr_setCore (root : F64) (h : CoreAgree Set.univ s.core d) {i : Nat} (hi : i < s.core.frames) :
    frameIncr P root i (s.setCore d) = ((frameIncr P root i s).1, (frameIncr P root i s).2.setCore d) := by
  unfold frameIncr
  simp only [State.setCore_core, h.regs, h.tuning P hi, keyPitch_setCore, toFixed_setCore]

theorem putEntry_take (b : List F64) (i : Nat) (v : F64) : (putEntry b i v).take (i + 1) = b.take i ++ [v] := by
  unfold putEntry
  rcases Nat.le_total i b.length with hi | hi
  · have hlen : (b.take i).length = i := by simpa using hi
    rw [List.take_append, hlen, List.take_of_length_le (by omega), Nat.add_sub_cancel_left]
    rfl
  · rw [List.drop_eq_nil_of_le (by omega), List.take_of_length_le (by simp [hi])]

/-- Agreement inside the pitch pass after `n` output frames: PHASE_ACC and the `n` written entries of W_PITCH too. -/
def PitchAgree (n : Nat) (s t : State) : Prop :=
  ∃ d, CoreAgree Set.univ s.core d ∧ d.phaseAcc = s.core.phaseAcc ∧
    d.work.pitch.take n = s.core.work.pitch.take n ∧ t = s.setCore d

/-- An instance after one output frame with the increment `inc` and the value `v` (R190). -/
def afterPitchFrame (i : Nat) (inc : BitVec 64) (v : F64) (c : CoreState) : CoreState :=
  { c with
    work := c.work.setPitch (putEntry c.work.pitch i v)
    phaseAcc := c.phaseAcc + inc
    incr := inc }

/-- One output frame changes the instance by an increment and a value, which are the same where the instance agrees. -/
theorem pitchFrame_setCore (root : F64) (X : List F64) (h : CoreAgree Set.univ s.core d)
    (hp : d.phaseAcc = s.core.phaseAcc) {i : Nat} (hi : i < s.core.frames) :
    ∃ inc v, (pitchFrame P root X s i).core = afterPitchFrame i inc v s.core ∧
      pitchFrame P root X (s.setCore d) i = (pitchFrame P root X s i).setCore (afterPitchFrame i inc v d) := by
  unfold pitchFrame
  rw [frameIncr_setCore P root h hi]
  extract_lets inc s1 p row v s2 inc' s1' p' row' v' s2'
  have hinc : inc.2.core = s.core := (frameIncr_onlyDraws P root i s).core
  have hp' : p' = p := by
    show d.phaseAcc = inc.2.core.phaseAcc
    rw [hinc, hp]
  have hv : v' = (v.1, v.2.setCore (d.setIncr inc.1)) := by
    simp only [v', row', hp']
    exact settle_setCore P row.2 (d.setIncr inc.1) _
  have hvcore : v.2.core = s.core.setIncr inc.1 := by
    rw [← hinc]
    exact (settle_onlyDraws P _ _).core
  have hpcore : p = s.core.phaseAcc := congrArg (·.phaseAcc) hinc
  refine ⟨inc.1, v.1, ?_, ?_⟩
  · simp only [s2, State.setCore_core, State.setPitch_core, hvcore, hpcore]
    rfl
  · simp only [s2', s2, hv, hp', hpcore, ← hp]
    rfl

theorem PitchAgree.pitchFrame {t : State} (root : F64) (X : List F64) {i : Nat} (h : PitchAgree i s t)
    (hi : i < s.core.frames) : PitchAgree (i + 1) (pitchFrame P root X s i) (pitchFrame P root X t i) := by
  obtain ⟨d, hd, hphase, hpitch, rfl⟩ := h
  obtain ⟨inc, v, hcore, hset⟩ := pitchFrame_setCore P root X hd hphase hi
  refine ⟨afterPitchFrame i inc v d, ?_, ?_, ?_, hset⟩ <;> rw [hcore]
  · refine ⟨hd.regs, hd.inFlight, fun src hsrc hr => ?_⟩
    rw [afterPitchFrame, afterPitchFrame, Work.setPitch_of, Work.setPitch_of]
    exact hd.work src hsrc hr
  · exact congrArg (· + inc) hphase
  · simp only [afterPitchFrame, Work.setPitch_pitch, putEntry_take, hpitch]

theorem PitchAgree.foldl {t : State} (root : F64) (X : List F64) (h : PitchAgree 0 s t) {n : Nat}
    (hn : n ≤ s.core.frames) :
    PitchAgree n ((List.range n).foldl (Machine.pitchFrame P root X) s)
      ((List.range n).foldl (Machine.pitchFrame P root X) t) := by
  induction n with
  | zero => exact h
  | succ n ih =>
    rw [List.range_succ, List.foldl_append, List.foldl_append]
    refine (ih (by omega)).pitchFrame P root X ?_
    rw [frames_congr (pitchFrames_length P root X s n).2]
    omega

theorem Agree.pitchStage {t : State} (F : Format) (h : Agree Set.univ s t) :
    Agree Set.univ (pitchStage P F s) (pitchStage P F t) := by
  obtain ⟨d, hd, rfl⟩ := h
  have hX : snapshot F (s.setCore d) = snapshot F s := by
    unfold snapshot
    rw [State.setCore_core, frames_congr hd.regs]
    exact List.map_congr_left fun j _ => loadAsDouble_congr F j hd.regs rfl
  unfold Machine.pitchStage
  rw [hX, State.setCore_core, frames_congr hd.regs, hd.regs, keyPitch_setCore]
  split
  · exact ⟨d, hd, rfl⟩
  · extract_lets X root start done root' start' done'
    have hroot : root.2.core = s.core := (keyPitch_onlyDraws P _ s).core
    have hstart : PitchAgree 0 start start' := by
      refine ⟨d.setPhaseAcc 0, ?_, rfl, rfl, rfl⟩
      rw [State.setCore_core, hroot]
      exact ⟨hd.regs, hd.inFlight, hd.work⟩
    have hframes : start.core.frames = s.core.frames := frames_congr (congrArg (·.regs) hroot)
    obtain ⟨d', hd', -, hpitch, hdone⟩ := hstart.foldl P root.1 X (Nat.le_of_eq hframes.symm)
    refine ⟨d', by rwa [foldl_keeps State.core (copyBack_core P F)], ?_⟩
    rw [show done' = done.setCore d' from hdone]
    exact foldl_setCore (copyBack_core P F) _ fun u hu i hi =>
      copyBack_setCore P F (hu ▸ hd'.regs) (hu ▸ entry_of_take hpitch (List.mem_range.1 hi))

/-- After the five drivers every routed buffer agrees, so the stages end alike but for hidden state. -/
theorem Agree.stages {t : State} (F : Format) (h : Agree ∅ s t) : Agree ∅ (stages P F s) (stages P F t) := by
  have hdriven := ((((h.envDrive P .env0).envDrive P .env1).lfoDrive P .lfo0).lfoDrive P .lfo1).noiseDrive P
  refine Agree.mono (((((hdriven.mono ?_).oscRender P .osc0 F).oscRender P .osc1 F).pitchStage P F).volumeStage P F)
    (Set.empty_subset _)
  intro src _
  cases src <;> simp [EnvId.source, LfoId.source]

end Stages

/-! ## Commands -/

theorem sameOutcome_runCompute (P : Params) (F : Format) {s t : State} (h : Agree ∅ s t) :
    SameOutcome SameButHidden (runCompute P F s) (runCompute P F t) := by
  have hnull : Agree ∅ s.complete t.complete := h.setInFlight none
  have hrun : Agree ∅ (stages P F (s.begin F)).complete (stages P F (t.begin F)).complete :=
    ((h.setInFlight (some F)).stages P F).setInFlight none
  obtain ⟨d, hd, rfl⟩ := h
  unfold runCompute
  rw [State.setCore_core, hd.regs, computeFault_congr F (s := s) (t := s.setCore d) hd.regs rfl rfl rfl]
  split
  · exact sameButHidden_iff.2 hnull
  · split
    · rfl
    · exact sameButHidden_iff.2 hrun

/-- A command answers alike where its effects do. -/
theorem sameOutcome_command {s t : State} (h : Agree ∅ s t) {o o' : Host.Outcome State Fault Refusal}
    (ho : SameOutcome SameButHidden o o') : SameOutcome SameButHidden (command s o) (command t o') := by
  obtain ⟨d, hd, rfl⟩ := h
  have hbusy : d.busy = s.core.busy := congrArg Option.isSome hd.inFlight
  unfold command
  rw [State.setCore_core, hbusy]
  split
  · rfl
  · exact ho

end Sys2Proof.Machine

namespace Sys2Proof
open Machine

/-- Settles O31: agreement in all but hidden state is kept by every stage of a COMPUTE, and the duties do not see the
hidden state. -/
theorem hiddenContentsReachNoResult : Obligations.HiddenContentsReachNoResult := by
  intro i s t hst
  have h := sameButHidden_iff.1 hst
  cases hF : i.computeFormat with
  | none =>
    rw [exec_of_no_format hF, exec_of_no_format hF]
    exact sameOutcome_command h hst
  | some F =>
    rw [exec_of_format hF, exec_of_format hF]
    exact sameOutcome_command h (sameOutcome_runCompute _ F h)

end Sys2Proof
end

section
/-! System memory as CORE and other agents access it: the addresses of the elements (O49, O51), accesses of ordinary
memory by the host and other agents (O52), and the shared coefficient table (O53). -/

namespace Sys2Proof.Machine

/-! ## Element addresses -/

theorem elementAddr_toNat (F : Format) (c : CoreState) (i : Nat) :
    (elementAddr F c i).toNat = (c.regs.bufferBase.toNat + i * c.regs.stride.toNat * F.esize) % 2 ^ 64 := by
  rw [elementAddr, BitVec.toNat_add, BitVec.toNat_ofNat, Nat.add_mod_mod]

/-- With STRIDE 0 every frame has the element at BUFFER_BASE (R61). -/
theorem elementAddr_of_stride_zero (F : Format) {c : CoreState} (h : c.regs.stride = 0) (i : Nat) :
    elementAddr F c i = c.regs.bufferBase := by
  rw [elementAddr, h]
  simp

/-- The element sizes are powers of two, so the address space is a whole number of elements (R86). -/
theorem esize_dvd (F : Format) : F.esize ∣ 2 ^ 64 := by cases F <;> decide

/-- A byte that two elements share stands at one place of both: the elements' offsets from BUFFER_BASE are multiples of
ESIZE, also after they wrap. -/
theorem index_eq_of_shared_byte {F : Format} {c : CoreState} {i j x y : Nat} (hx : x < F.esize) (hy : y < F.esize)
    (h : elementAddr F c i + BitVec.ofNat 64 x = elementAddr F c j + BitVec.ofNat 64 y) : x = y := by
  rw [elementAddr, elementAddr, BitVec.add_assoc, BitVec.add_assoc, BitVec.add_right_inj, ← BitVec.ofNat_add,
    ← BitVec.ofNat_add] at h
  have hwrap : i * c.regs.stride.toNat * F.esize + x ≡ j * c.regs.stride.toNat * F.esize + y [MOD 2 ^ 64] := by
    simpa only [Nat.ModEq, BitVec.toNat_ofNat] using congrArg BitVec.toNat h
  have hmod : x % F.esize = y % F.esize := by
    simpa only [Nat.ModEq, Nat.mul_add_mod_self_right] using hwrap.of_dvd (esize_dvd F)
  rwa [Nat.mod_eq_of_lt hx, Nat.mod_eq_of_lt hy] at hmod

/-! ## Which accesses are register accesses -/

/-- The window a byte address lies in holds the address (R23). -/
theorem window_of_windowAt {pl : Platform} {a : Addr} {k : Nat} (h : windowAt pl a = some k) :
    ∃ w, pl.windows[k]? = some w ∧ (a - w).toNat < 0x400 := by
  obtain ⟨hk, hin, -⟩ := List.findIdx?_eq_some_iff_getElem.1 h
  exact ⟨_, List.getElem?_eq_getElem hk, of_decide_eq_true hin⟩

/-- A register access is one of eight bytes, all of them in the window (R80). -/
theorem registerAccess_inside {s : State} {a : Addr} {n k : Nat} {off : BitVec 10}
    (h : registerAccess s.platform a n = some (k, off)) :
    n = 8 ∧ ∀ j < n, InRegisterWindow s (a + BitVec.ofNat 64 j) := by
  obtain ⟨hk, -, rfl, haligned⟩ := registerAccess_window h
  obtain ⟨w, hw, hlt⟩ := window_of_windowAt hk
  have hoff : (a - w).setWidth 10 = off := by
    simp only [registerAccess, hk, List.getD_eq_getElem?_getD, hw, Option.getD_some,
      Option.ite_none_right_eq_some] at h
    exact (Prod.mk.inj (Option.some.inj h.2)).2
  have hmod : (a - w).toNat % 8 = 0 := by
    rwa [← hoff, BitVec.toNat_setWidth, Nat.mod_eq_of_lt hlt] at haligned
  refine ⟨rfl, fun j hj => ⟨w, List.mem_of_getElem? hw, ?_⟩⟩
  have hsub : (a + BitVec.ofNat 64 j - w).toNat = (a - w).toNat + j := by bv_omega
  omega

/-- An access of which some byte lies in no window is no register access. -/
theorem registerAccess_eq_none {s : State} {a : Addr} {n j : Nat} (hj : j < n)
    (h : ¬InRegisterWindow s (a + BitVec.ofNat 64 j)) : registerAccess s.platform a n = none :=
  Option.eq_none_iff_forall_ne_some.2 fun _ he => h ((registerAccess_inside he).2 j hj)

theorem registerAccess_of_ordinary {s : State} {a : Addr} {n : Nat} (h : ∀ j < n, OrdinaryAt s a j) :
    registerAccess s.platform a n = none := by
  refine Option.eq_none_iff_forall_ne_some.2 fun _ he => ?_
  obtain ⟨rfl, hin⟩ := registerAccess_inside he
  exact (h 0 (by decide)).1 (hin 0 (by decide))

/-! ## Accesses of the host and other agents -/

theorem anyBusy_iff (s : State) : anyBusy s = true ↔ SomeBusy s := by
  simp [anyBusy, SomeBusy]

theorem heldByAny_iff (s : State) (a : Addr) : heldByAny s a = true ↔ HeldByAny s a := by
  rw [heldByAny, HeldByAny, Bool.or_eq_true, heldByOther_iff]
  refine or_congr_left ?_
  cases s.core.inFlight with
  | none => simp
  | some F => simp [elementHas, inRun]

/-- Some byte of an access outside the windows has the property. -/
theorem any_memoryAddrs {s : State} {a : Addr} {n : Nat} {p : Addr → Bool} :
    (memoryAddrs s.platform a n).any p = true ↔
      ∃ j < n, ¬InRegisterWindow s (a + BitVec.ofNat 64 j) ∧ p (a + BitVec.ofNat 64 j) = true := by
  rw [List.any_eq_true]
  constructor
  · rintro ⟨x, hx, hp⟩
    obtain ⟨⟨j, hj, rfl⟩, hw⟩ := mem_memoryAddrs.1 hx
    exact ⟨j, hj, hw, hp⟩
  · rintro ⟨j, hj, hw, hp⟩
    exact ⟨_, mem_memoryAddrs.2 ⟨⟨j, hj, rfl⟩, hw⟩, hp⟩

section AgentAccess

variable {s : State} {a : Addr} {n : Nat}

theorem any_memoryAddrs_eq_false {p : Addr → Bool} (h : ∀ j < n, ¬p (a + BitVec.ofNat 64 j) = true) :
    (memoryAddrs s.platform a n).any p = false := by
  refine Bool.eq_false_iff.2 fun hany => ?_
  obtain ⟨j, hj, -, hp⟩ := any_memoryAddrs.1 hany
  exact h j hj hp

theorem any_heldByAny_eq_false (h : ∀ j < n, ¬HeldByAny s (a + BitVec.ofNat 64 j)) :
    (memoryAddrs s.platform a n).any (heldByAny s) = false :=
  any_memoryAddrs_eq_false fun j hj => mt (heldByAny_iff s _).1 (h j hj)

/-- An access of a byte that a BUSY instance holds breaks R75. -/
theorem agentAccess_of_held {j : Nat} (hj : j < n) (hw : ¬InRegisterWindow s (a + BitVec.ofNat 64 j))
    (h : HeldByAny s (a + BitVec.ofNat 64 j)) (store : Bool) (effect : State) :
    agentAccess store a n s effect = .fault .bufferShared :=
  if_pos (any_memoryAddrs.2 ⟨j, hj, hw, (heldByAny_iff s _).2 h⟩)

/-- A store into the table device while an instance is BUSY is a table write (R72, log 30). -/
theorem agentAccess_of_table_store {j : Nat} (hj : j < n) (hw : ¬InRegisterWindow s (a + BitVec.ofNat 64 j))
    (ht : IsTable s (a + BitVec.ofNat 64 j)) (hb : SomeBusy s)
    (hfree : ∀ j < n, ¬HeldByAny s (a + BitVec.ofNat 64 j)) (effect : State) :
    agentAccess true a n s effect = .fault .tableWrite := by
  have htable : (memoryAddrs s.platform a n).any (inRegions s.platform.table) = true :=
    any_memoryAddrs.2 ⟨j, hj, hw, (inTable_iff s _).2 ht⟩
  simp [agentAccess, any_heldByAny_eq_false hfree, htable, (anyBusy_iff s).2 hb]

/-- An access of ordinary memory that no BUSY instance holds has its effect. -/
theorem agentAccess_of_ordinary (h : ∀ j < n, OrdinaryAt s a j)
    (hfree : ∀ j < n, ¬HeldByAny s (a + BitVec.ofNat 64 j)) (store : Bool) (effect : State) :
    agentAccess store a n s effect = .next effect := by
  have htable : (memoryAddrs s.platform a n).any (inRegions s.platform.table) = false :=
    any_memoryAddrs_eq_false fun j hj => mt (inTable_iff s _).1 (h j hj).2.1
  have hdevice : (memoryAddrs s.platform a n).any
      (fun x => inRegions s.platform.device x || inRegions s.platform.table x) = false := by
    refine any_memoryAddrs_eq_false fun j hj hin => ?_
    obtain ⟨-, hnoTable, hnoDevice⟩ := h j hj
    rcases Bool.or_eq_true_iff.1 hin with hd | ht
    · exact hnoDevice ((inDevice_iff s _).1 hd)
    · exact hnoTable ((inTable_iff s _).1 ht)
  simp [agentAccess, any_heldByAny_eq_false hfree, htable, hdevice]

/-- What a store that is no register access comes to. -/
theorem memWrite_of_no_register {data : List Byte} (h : registerAccess s.platform a data.length = none) (ov : Bool) :
    memWrite a data ov s = agentAccess true a data.length s
      (s.setMem (writeBytes (inRegisterWindow s.platform) a data s.mem)) := by
  rw [memWrite, h]

/-- What a read that is no register access comes to. -/
theorem memRead_of_no_register (h : registerAccess s.platform a n = none) :
    memRead a n s = agentAccess false a n s (s.reply (.mem (memBytes s a n))) := by
  rw [memRead, h]

/-- Outside the windows a read returns the bytes of memory. -/
theorem memBytes_outside_windows (h : ∀ j < n, ¬InRegisterWindow s (a + BitVec.ofNat 64 j)) :
    memBytes s a n = (List.range n).map fun j => readByte s.mem (a + BitVec.ofNat 64 j) := by
  rw [memBytes, runAddrs, List.map_map]
  refine List.map_congr_left fun j hj => if_neg fun hin => ?_
  exact h j (List.mem_range.1 hj) ((inRegisterWindow_iff s _).1 hin)

end AgentAccess

/-! ## The shared table -/

/-- A row is read under the lock, and the lock is freed again (R71). -/
theorem tableRead_eq (P : Params) (r : BitVec 8) (s : State) : tableRead P r s = (P.coeff r, s.setTableLock none) := rfl

theorem constructTable_of_busy {s : State} (h : SomeBusy s) : constructTable s = .fault .tableWrite :=
  if_pos ((anyBusy_iff s).2 h)

theorem constructTable_of_idle {s : State} (h : ¬SomeBusy s) : constructTable s = .next (s.setTableBuilt true) :=
  if_neg fun hb => h ((anyBusy_iff s).1 hb)

end Sys2Proof.Machine

namespace Sys2Proof
open Machine

/-- Settles O51: a byte of both elements stands at one place of both, so that the elements begin at one address. -/
theorem elementsCoincideOrAreDisjoint : Obligations.ElementsCoincideOrAreDisjoint := by
  intro F c i j
  refine or_iff_not_imp_left.2 fun hne x hx y hy he => hne ?_
  obtain rfl := index_eq_of_shared_byte hx hy he
  exact (BitVec.add_left_inj _).1 he

/-- Settles O52: an access of ordinary memory is no register access, and which duty it breaks, or what it stores or
returns, is the law of an agent's access. -/
theorem agentAccessesOutsideBusyBuffers : Obligations.AgentAccessesOutsideBusyBuffers := by
  intro s a rest
  refine ⟨fun data ov hlen hord hbus => ?_, fun n hord hbus => ?_⟩
  · have hstep : step s = agentAccess true a data.length (s.setBus rest)
        ((s.setBus rest).setMem (writeBytes (inRegisterWindow s.platform) a data s.mem)) := by
      rw [step_cons hbus]
      exact memWrite_of_no_register (s := s.setBus rest) (registerAccess_of_ordinary hord) ov
    rw [hstep]
    refine ⟨fun ⟨j, hj, hheld⟩ => agentAccess_of_held (s := s.setBus rest) hj (hord j hj).1 hheld _ _, fun hfree =>
      ⟨_, agentAccess_of_ordinary (s := s.setBus rest) hord hfree _ _, rfl, fun j hj => ?_, fun b hb => ?_⟩⟩
    · refine readByte_writeBytes_inside _ data hlen a s.mem j hj (Bool.eq_false_iff.2 fun hin => ?_)
      exact (hord j hj).1 ((inRegisterWindow_iff s _).1 hin)
    · exact readByte_writeBytes_outside _ data hlen a b s.mem (.inr (inRun_eq_false hlen hb))
  · have hstep : step s = agentAccess false a n (s.setBus rest) ((s.setBus rest).reply
        (.mem ((List.range n).map fun j => readByte s.mem (a + BitVec.ofNat 64 j)))) := by
      rw [step_cons hbus, handle, memRead_of_no_register (s := s.setBus rest) (registerAccess_of_ordinary hord),
        memBytes_outside_windows (s := s.setBus rest) fun j hj => (hord j hj).1, State.setBus_mem]
    rw [hstep]
    exact ⟨fun ⟨j, hj, hheld⟩ => agentAccess_of_held (s := s.setBus rest) hj (hord j hj).1 hheld _ _, fun hfree =>
      agentAccess_of_ordinary (s := s.setBus rest) hord hfree _ _⟩

/-- Settles O49: the sum modulo 2^64, with the sizes of the eight formats. -/
theorem elementAddresses : Obligations.ElementAddresses := by
  intro c i
  have hsizes : ∀ FE ∈ [(Format.s8, 1), (Format.s16, 2), (Format.s24, 4), (Format.s32, 4), (Format.s64, 8),
      (Format.float, 4), (Format.double, 8), (Format.complex, 16)], FE.1.esize = FE.2 := by decide
  refine ⟨fun FE hFE => ⟨?_, hsizes FE hFE⟩, fun F h => elementAddr_of_stride_zero F h i⟩
  rw [elementAddr_toNat, hsizes FE hFE]

/-- Settles O53: the laws of a row read and of the table's construction; a store that reaches the table device is no
register access, since a byte of it lies in no window. -/
theorem tableReadGivesTheRowAndLeavesTheLockFree : Obligations.TableReadGivesTheRowAndLeavesTheLockFree := by
  refine ⟨tableRead_eq, fun s rest hbus => ⟨fun hb => ?_, fun hb => ?_⟩, fun s a data ov rest hbus hb hfree htable => ?_⟩
  · rw [step_cons hbus]
    exact constructTable_of_busy (s := s.setBus rest) hb
  · rw [step_cons hbus]
    exact constructTable_of_idle (s := s.setBus rest) hb
  · obtain ⟨j, hj, ht, hw⟩ := htable
    rw [step_cons hbus, handle, memWrite_of_no_register (s := s.setBus rest) (registerAccess_eq_none hj hw)]
    exact agentAccess_of_table_store (s := s.setBus rest) hj hw ht hb hfree _

end Sys2Proof
end

section
/-! The encodings of the instructions (O1 to O5). A key is a FORMAT code and an OP laid side by side (R84), so the
decoder has one equation for each class of OP (R85), and every key is the key of a well-formed instruction. -/

namespace Sys2Proof

/-! ## The fields of a key -/

theorem format_ofCode_code (fmt : Format) : Format.ofCode fmt.code = fmt := by cases fmt <;> rfl

theorem keyOp_append (c : BitVec 3) (op : BitVec 4) : keyOp (c ++ op) = op := BitVec.extractLsb'_append_eq_right

theorem keyFormat_append (fmt : Format) (op : BitVec 4) : keyFormat (fmt.code ++ op) = fmt := by
  rw [keyFormat, BitVec.extractLsb'_append_eq_left, format_ofCode_code]

theorem keyFormat_append_keyOp (k : Key) : (keyFormat k).code ++ keyOp k = k := by
  rw [keyFormat, Machine.format_code_ofCode]
  exact BitVec.extractLsb'_append_extractLsb'

/-! ## The classes of OP -/

/-- Every OP is NOP's, COMPUTE's or that of one RESERVED row (R85, R107). -/
theorem op_cases (fmt : Format) (op : BitVec 4) :
    op = 0 ∨ op = 1 ∨ (Instr.reserved2 fmt op).WellFormed ∨ (Instr.reserved4 fmt op).WellFormed ∨
      (Instr.reserved8 fmt op).WellFormed := by
  simp only [Instr.WellFormed, Instr.wellFormed]
  revert op
  decide

theorem reserved2_wellFormed_iff {fmt : Format} {op : BitVec 4} :
    (Instr.reserved2 fmt op).WellFormed ↔ 2 ≤ op.toNat ∧ op.toNat < 4 := by
  simp only [Instr.WellFormed, Instr.wellFormed]
  revert op
  decide

theorem reserved4_wellFormed_iff {fmt : Format} {op : BitVec 4} :
    (Instr.reserved4 fmt op).WellFormed ↔ 4 ≤ op.toNat ∧ op.toNat < 8 := by
  simp only [Instr.WellFormed, Instr.wellFormed]
  revert op
  decide

theorem reserved8_wellFormed_iff {fmt : Format} {op : BitVec 4} :
    (Instr.reserved8 fmt op).WellFormed ↔ 8 ≤ op.toNat := by
  simp only [Instr.WellFormed, Instr.wellFormed]
  revert op
  decide

/-! ## The decoder, for each class of OP (R85) -/

section DecodeKey

variable (fmt : Format) {op : BitVec 4}

theorem decodeKey_nop : decodeKey (fmt.code ++ 0#4) = .nop fmt := by
  simp [decodeKey, keyOp_append, keyFormat_append]

theorem decodeKey_compute : decodeKey (fmt.code ++ 1#4) = Instr.compute fmt := by
  simp [decodeKey, keyOp_append, keyFormat_append]

/-- An OP from 2 on is told apart by its table row. -/
theorem decodeKey_reserved (h : 2 ≤ op.toNat) :
    decodeKey (fmt.code ++ op) =
      if op.toNat < 4 then .reserved2 fmt op else if op.toNat < 8 then .reserved4 fmt op else .reserved8 fmt op := by
  rw [decodeKey, keyOp_append, keyFormat_append]
  split
  · omega
  · omega
  · rfl

theorem decodeKey_reserved2 (h : (Instr.reserved2 fmt op).WellFormed) :
    decodeKey (fmt.code ++ op) = .reserved2 fmt op := by
  obtain ⟨hlow, hhigh⟩ := reserved2_wellFormed_iff.1 h
  rw [decodeKey_reserved fmt hlow, if_pos hhigh]

theorem decodeKey_reserved4 (h : (Instr.reserved4 fmt op).WellFormed) :
    decodeKey (fmt.code ++ op) = .reserved4 fmt op := by
  obtain ⟨hlow, hhigh⟩ := reserved4_wellFormed_iff.1 h
  rw [decodeKey_reserved fmt (by omega), if_neg (by omega), if_pos hhigh]

theorem decodeKey_reserved8 (h : (Instr.reserved8 fmt op).WellFormed) :
    decodeKey (fmt.code ++ op) = .reserved8 fmt op := by
  have hlow := reserved8_wellFormed_iff.1 h
  rw [decodeKey_reserved fmt (by omega), if_neg (by omega), if_neg (by omega)]

end DecodeKey

/-! ## Keys and well-formed instructions -/

theorem encodeKey_compute (fmt : Format) : encodeKey (Instr.compute fmt) = fmt.code ++ 1#4 := by cases fmt <;> rfl

theorem compute_wellFormed (fmt : Format) : (Instr.compute fmt).WellFormed := by cases fmt <;> rfl

theorem decodeKey_encodeKey : ∀ {i : Instr}, i.WellFormed → decodeKey (encodeKey i) = i
  | .nop fmt, _ => decodeKey_nop fmt
  | .computeS8, _ => decodeKey_compute .s8
  | .computeS16, _ => decodeKey_compute .s16
  | .computeS24, _ => decodeKey_compute .s24
  | .computeS32, _ => decodeKey_compute .s32
  | .computeS64, _ => decodeKey_compute .s64
  | .computeFloat, _ => decodeKey_compute .float
  | .computeDouble, _ => decodeKey_compute .double
  | .computeComplex, _ => decodeKey_compute .complex
  | .reserved2 fmt _, h => decodeKey_reserved2 fmt h
  | .reserved4 fmt _, h => decodeKey_reserved4 fmt h
  | .reserved8 fmt _, h => decodeKey_reserved8 fmt h

/-- No key is illegal (R90): each is the key of a well-formed instruction. -/
theorem exists_encodeKey_eq (k : Key) : ∃ i : Instr, i.WellFormed ∧ encodeKey i = k := by
  rw [← keyFormat_append_keyOp k]
  generalize keyFormat k = fmt, keyOp k = op
  obtain rfl | rfl | h | h | h := op_cases fmt op
  · exact ⟨.nop fmt, rfl, rfl⟩
  · exact ⟨Instr.compute fmt, compute_wellFormed fmt, encodeKey_compute fmt⟩
  · exact ⟨_, h, rfl⟩
  · exact ⟨_, h, rfl⟩
  · exact ⟨_, h, rfl⟩

/-- A key laid out as a byte is that key again, whatever follows it. -/
theorem decode_encode_append (i : Instr) (rest : List Byte) :
    decode (encode i ++ rest) = .instr (decodeKey (encodeKey i)) rest := by
  obtain ⟨b, hb, hlt⟩ := Laws.Encoded.one_byte i
  obtain rfl : (encodeKey i).setWidth 8 = b := List.singleton_inj.1 hb
  rw [hb, List.singleton_append, decode, if_pos hlt, BitVec.setWidth_setWidth_of_le _ (by decide), BitVec.setWidth_eq]

/-! ## The rows of the opcode table -/

/-- The table's rows, one by one, admit the keys of their own instructions (R84). -/
theorem encoded : ∀ i : Instr, Laws.Encoded.Statement i
  | .nop fmt => Laws.Encoded.nop fmt
  | .computeS8 => Laws.Encoded.computeS8
  | .computeS16 => Laws.Encoded.computeS16
  | .computeS24 => Laws.Encoded.computeS24
  | .computeS32 => Laws.Encoded.computeS32
  | .computeS64 => Laws.Encoded.computeS64
  | .computeFloat => Laws.Encoded.computeFloat
  | .computeDouble => Laws.Encoded.computeDouble
  | .computeComplex => Laws.Encoded.computeComplex
  | .reserved2 fmt op => Laws.Encoded.reserved2 fmt op
  | .reserved4 fmt op => Laws.Encoded.reserved4 fmt op
  | .reserved8 fmt op => Laws.Encoded.reserved8 fmt op

theorem mem_matchingRows {k : Key} {r : Nat} :
    r ∈ matchingRows k ↔ ∃ row, opcodeTable[r]? = some row ∧ k &&& row.mask = row.bits := by
  rw [matchingRows, List.mem_filter, List.mem_range]
  constructor
  · rintro ⟨hr, h⟩
    rw [List.getElem?_eq_getElem hr] at h
    exact ⟨_, List.getElem?_eq_getElem hr, eq_of_beq h⟩
  · rintro ⟨row, hrow, h⟩
    refine ⟨(List.getElem?_eq_some_iff.1 hrow).1, ?_⟩
    rw [hrow]
    exact beq_iff_eq.2 h

/-- Two rows of the table differ in a bit that both of them fix. -/
theorem opcodeTable_exclusive :
    ∀ r r' : Fin opcodeTable.length,
      opcodeTable[r].bits &&& opcodeTable[r'].mask = opcodeTable[r'].bits &&& opcodeTable[r].mask → r = r' := by
  decide

/-- A key matches no two rows (R84). -/
theorem matchingRows_unique {k : Key} {r r' : Nat} (h : r ∈ matchingRows k) (h' : r' ∈ matchingRows k) :
    r = r' := by
  obtain ⟨row, hrow, hk⟩ := mem_matchingRows.1 h
  obtain ⟨row', hrow', hk'⟩ := mem_matchingRows.1 h'
  obtain ⟨hr, rfl⟩ := List.getElem?_eq_some_iff.1 hrow
  obtain ⟨hr', rfl⟩ := List.getElem?_eq_some_iff.1 hrow'
  refine congrArg Fin.val (opcodeTable_exclusive ⟨r, hr⟩ ⟨r', hr'⟩ ?_)
  calc opcodeTable[r].bits &&& opcodeTable[r'].mask
      = k &&& opcodeTable[r].mask &&& opcodeTable[r'].mask := by rw [hk]
    _ = k &&& opcodeTable[r'].mask &&& opcodeTable[r].mask := by ac_rfl
    _ = opcodeTable[r'].bits &&& opcodeTable[r].mask := by rw [hk']

theorem matchingRows_encodeKey {i : Instr} (h : i.WellFormed) : matchingRows (encodeKey i) = [i.row] := by
  have hmem : i.row ∈ matchingRows (encodeKey i) := mem_matchingRows.2 (encoded i h).2
  refine List.perm_singleton.1 ((List.perm_ext_iff_of_nodup (List.nodup_range.filter _) (List.nodup_singleton _)).2
    fun r => ⟨fun hr => ?_, fun hr => ?_⟩)
  · exact List.mem_singleton.2 (matchingRows_unique hr hmem)
  · exact List.mem_singleton.1 hr ▸ hmem

/-- Settles O1: a byte of a key is read as that key, and decoding the key of a well-formed instruction, class by class
of its OP, gives it back. -/
theorem decodeAfterEncode : Obligations.DecodeAfterEncode := by
  intro i h rest
  rw [decode_encode_append, decodeKey_encodeKey h]

/-- Settles O2: each key is a well-formed instruction's, which decoding gives back. -/
theorem encodeAfterDecode : Obligations.EncodeAfterDecode := by
  intro k
  obtain ⟨i, h, rfl⟩ := exists_encodeKey_eq k
  rw [decodeKey_encodeKey h]
  exact ⟨h, rfl⟩

/-- Settles O3: the row of the instruction matches its key, and no two rows of the table share a key. -/
theorem exactlyOneRowMatchesEachKey : Obligations.ExactlyOneRowMatchesEachKey := by
  intro k
  obtain ⟨i, h, rfl⟩ := exists_encodeKey_eq k
  rw [decodeKey_encodeKey h, matchingRows_encodeKey h]

/-- Settles O4: the decoder's equations, one for each class of OP. -/
theorem decoderSelectsByOpThenFormat : Obligations.DecoderSelectsByOpThenFormat := by
  intro fmt op
  refine ⟨?_, ?_, fun h => ?_⟩
  · rintro rfl
    exact decodeKey_nop fmt
  · rintro rfl
    exact (congrArg some (decodeKey_compute fmt)).trans (by cases fmt <;> rfl)
  · obtain rfl | rfl | hop | hop | hop := op_cases fmt op
    · exact absurd h (by decide)
    · exact absurd h (by decide)
    · exact .inl (decodeKey_reserved2 fmt hop)
    · exact .inr (.inl (decodeKey_reserved4 fmt hop))
    · exact .inr (.inr (decodeKey_reserved8 fmt hop))

/-- Settles O5: each sample is the encoding of a well-formed instruction. -/
theorem sampleKeysDecode : Obligations.SampleKeysDecode :=
  ⟨decodeAfterEncode .computeS32 rfl [], decodeAfterEncode .computeS8 rfl [],
    decodeAfterEncode .computeComplex rfl [], decodeAfterEncode (.nop .float) rfl [],
    decodeAfterEncode (.reserved4 .s8 7) rfl [], decodeAfterEncode (.reserved8 .double 15) rfl [],
    decodeKey_compute .s32, decodeKey_compute .double, decodeKey_nop .s8⟩

end Sys2Proof
end

section
/-! A write of CMD as the next event (O6). -/

namespace Sys2Proof.Machine

/-- A host write of CMD issues a command (R82). -/
theorem hostWrite_cmd (data : Data) (ov : Bool) (s : State) :
    hostWrite (regOffset .cmd) 8 data ov s = issue data ov s := by
  rw [hostWrite, if_pos (regOffset_aligned .cmd), regAt_regOffset]

theorem issue_not_overlapped (data : Data) (s : State) :
    issue data false s = exec (decodeKey (dispatchKey s.core.regs.format data)) s := rfl

section Issue

variable {data : Data} {s : State}

theorem issue_of_no_format (h : (decodeKey (dispatchKey s.core.regs.format data)).computeFormat = none) (ov : Bool) :
    issue data ov s = exec (decodeKey (dispatchKey s.core.regs.format data)) s := by
  obtain e | ⟨-, F, hF, -⟩ := issue_cases data ov s
  · exact e
  · exact absurd (h.symm.trans hF) (by simp)

theorem issue_overlapped_of_format {F : Format}
    (h : (decodeKey (dispatchKey s.core.regs.format data)).computeFormat = some F) :
    issue data true s = startCompute F s := by
  simp only [issue, h]

end Issue

end Sys2Proof.Machine

namespace Sys2Proof
open Machine

/-- Settles O6: the write issues a command at the instance, whose FORMAT is its own. -/
theorem stepRunsDecodedInstruction : Obligations.StepRunsDecodedInstruction := by
  intro s n data rest hn i u
  have hcore : u.core = s.coreOf n := focus_core n (s.setBus rest)
  have hi : decodeKey (dispatchKey u.core.regs.format data) = i := by rw [hcore]
  have hstep {ov : Bool} (hbus : s.bus = .regWrite n 0x000 8 data ov :: rest) : step s = issue data ov u :=
    (step_regWrite hn hbus).trans (hostWrite_cmd data ov u)
  refine ⟨fun hbus => ?_, fun hbus => ⟨fun h => ?_, fun F h => ?_⟩⟩
  · rw [hstep hbus, issue_not_overlapped, hi]
  · rw [hstep hbus, issue_of_no_format (hi.symm ▸ h), hi]
  · rw [hstep hbus, issue_overlapped_of_format (hi.symm ▸ h)]

end Sys2Proof
end

section
/-! The lines of a host script that write a ROUTE register (O60). -/

namespace Sys2Proof.Machine

/-! ## The values last written -/

theorem noteRoute_routeReg (src : Source) (d : Data) (last : LastRoutes) :
    noteRoute (routeReg src) d last = (src, d) :: last := by cases src <;> rfl

theorem oldRoute_cons_self (src : Source) (d : Data) (last : LastRoutes) : oldRoute ((src, d) :: last) src = d := by
  rw [oldRoute, List.lookup_cons_self, Option.getD_some]

theorem oldRoute_cons_ne {src other : Source} (h : other ≠ src) (d : Data) (last : LastRoutes) :
    oldRoute ((src, d) :: last) other = oldRoute last other := by
  rw [oldRoute, List.lookup_cons, beq_false_of_ne h, oldRoute]

/-- After a write of a ROUTE register the value last written is that write's (R93). -/
theorem oldRoute_writeLine (n : Nat) (last : LastRoutes) (src : Source) (d : Data) (ov : Bool) :
    oldRoute (writeLine n last (routeReg src) d ov).2 src = d := by
  rw [writeLine, noteRoute_routeReg, oldRoute_cons_self]

theorem oldRoute_writeLine_ne {src other : Source} (h : other ≠ src) (n : Nat) (last : LastRoutes) (d : Data)
    (ov : Bool) : oldRoute (writeLine n last (routeReg src) d ov).2 other = oldRoute last other := by
  rw [writeLine, noteRoute_routeReg, oldRoute_cons_ne h]

/-! ## The slots of a ROUTE line's word -/

theorem getLsbD_fifteen (k : Nat) : (0xF#64).getLsbD k = decide (k < 4) := by
  rw [show (0xF#64) = (BitVec.allOnes 4).setWidth 64 from rfl, BitVec.getLsbD_setWidth, BitVec.getLsbD_allOnes,
    Bool.and_eq_right_iff_imp.2]
  simp only [decide_eq_true_eq]
  omega

/-- A bit of a ROUTE line's word: of the tag in the four bits of the slot, of the old word elsewhere. -/
theorem getLsbD_routeWord (old : Data) (slot : Nat) (dst : Option Dest) {k : Nat} (hk : k < 64) :
    (routeWord old slot dst).getLsbD k =
      if 4 * slot ≤ k ∧ k < 4 * slot + 4 then (tagCode dst).getLsbD (k - 4 * slot) else old.getLsbD k := by
  simp only [routeWord, BitVec.getLsbD_or, BitVec.getLsbD_and, BitVec.getLsbD_not, BitVec.getLsbD_shiftLeft,
    BitVec.getLsbD_setWidth, getLsbD_fifteen]
  by_cases hbelow : k < 4 * slot
  · simp [hk, hbelow]
  by_cases hoffset : k - 4 * slot < 4
  · have hsmall : k - 4 * slot < 64 := by omega
    rw [if_pos (by omega)]
    simp [hk, hbelow, hoffset, hsmall]
  · rw [if_neg (by omega), BitVec.getLsbD_of_ge (tagCode dst) _ (by omega)]
    simp [hk, hoffset]

/-- The slots of a ROUTE line's word (R93). -/
theorem extractLsb'_routeWord (old : Data) {slot i : Nat} (hi : i < 16) (dst : Option Dest) :
    (routeWord old slot dst).extractLsb' (4 * i) 4 = if i = slot then tagCode dst else old.extractLsb' (4 * i) 4 := by
  ext j hj
  rw [BitVec.getElem_extractLsb', getLsbD_routeWord old slot dst (by omega)]
  by_cases hs : i = slot
  · subst hs
    rw [if_pos (by omega), if_pos rfl, Nat.add_sub_cancel_left, BitVec.getLsbD_eq_getElem]
  · rw [if_neg (by omega), if_neg hs, BitVec.getElem_extractLsb']

theorem dataSlot_routeWord (old : Data) {slot i : Nat} (hi : i < 16) (dst : Option Dest) :
    dataSlot (routeWord old slot dst) i = if i = slot then (tagCode dst).toNat else dataSlot old i := by
  rw [← toNat_extract_slot, extractLsb'_routeWord old hi, apply_ite BitVec.toNat, toNat_extract_slot]

end Sys2Proof.Machine

namespace Sys2Proof
open Machine

/-- Settles O60: the line writes the source's register and is noted for that source alone, and its word differs from the
old one in the named slot only. -/
theorem routeLineSetsOneSlot : Obligations.RouteLineSetsOneSlot := by
  intro n last src slot dst hslot
  refine ⟨⟨routeWord (oldRoute last src) slot dst, rfl, oldRoute_writeLine .., ?_, fun i hne hi => ?_,
    fun other hne => oldRoute_writeLine_ne hne ..⟩, rfl, fun _ _ _ => rfl, fun v ov => oldRoute_writeLine ..⟩
  · rw [dataSlot_routeWord _ (by omega), if_pos rfl]
  · rw [dataSlot_routeWord _ hi, if_neg hne]

end Sys2Proof
end

section
/-! What a command does to BUSY and to the state, atomically or overlapped by later events (O17, O18, O19, O25, O26), and
the completion of a COMPUTE in flight when nothing is pending (O27). -/

namespace Sys2Proof.Machine

/-! ## The atomic step of a COMPUTE, outcome by outcome -/

section Compute

variable (P : Params) {F : Format} {s : State}

theorem complete_of_idle (h : s.core.busy = false) : s.complete = s :=
  State.complete_eq_self s ((CoreState.busy_eq_false _).1 h)

theorem runCompute_of_null (h : s.core.regs.bufferBase = 0) : runCompute P F s = .next s.complete := if_pos h

theorem runCompute_of_placementFault (hbase : s.core.regs.bufferBase ≠ 0) {f : Fault}
    (hf : placementFault F s = some f) : runCompute P F s = .fault f := by
  simp only [runCompute, if_neg hbase, computeFault, hf]

theorem runCompute_of_dutiesMet (hbase : s.core.regs.bufferBase ≠ 0) (hd : DutiesMet F s) :
    runCompute P F s = .next (stages P F (s.begin F)).complete := by
  simp only [runCompute, if_neg hbase, computeFault_eq_none.2 hd]

/-- The atomic step sets BUSY itself, so what it was before does not matter (R102, R105). -/
theorem runCompute_setInFlight (F : Format) (f : Option Format) (s : State) :
    runCompute P F (s.setCore (s.core.setInFlight f)) = runCompute P F s := by
  rw [runCompute, computeFault_congr F (s := s) (t := s.setCore (s.core.setInFlight f)) rfl rfl rfl rfl]
  rfl

/-- A COMPUTE in flight is one begun. -/
theorem begin_of_inFlight (h : s.core.inFlight = some F) : s.begin F = s := complete_begin F s h

end Compute

/-! ## An instruction while nothing is in flight -/

section Exec

variable {i : Instr} {s : State} (h : s.core.busy = false)
include h

theorem exec_of_no_format_of_idle (hF : i.computeFormat = none) : exec i s = .next s :=
  (exec_of_no_format hF s).trans (command_of_idle h _)

theorem exec_of_format_of_idle {F : Format} (hF : i.computeFormat = some F) :
    exec i s = runCompute Config.params F s :=
  (exec_of_format hF s).trans (command_of_idle h _)

/-- A COMPUTE without a buffer is over at once (R101). -/
theorem exec_of_null_of_idle {F : Format} (hF : i.computeFormat = some F) (hnull : s.core.regs.bufferBase = 0) :
    exec i s = .next s := by
  rw [exec_of_format_of_idle h hF, runCompute_of_null _ hnull, complete_of_idle h]

end Exec

/-! ## The start of a COMPUTE that later events overlap (R102) -/

section Start

variable {F : Format} {s : State} (h : s.core.busy = false)
include h

theorem startCompute_of_null (hnull : s.core.regs.bufferBase = 0) : startCompute F s = .next s := by
  rw [startCompute, command_of_idle h, if_pos hnull]

theorem startCompute_of_placementMet (hbase : s.core.regs.bufferBase ≠ 0) (hp : PlacementMet F s) :
    startCompute F s = .next (s.begin F) := by
  simp only [startCompute, command_of_idle h, if_neg hbase, placementFault_eq_none.2 hp]

end Start

theorem readReg_status_of_idle (P : Params) {c : CoreState} (h : c.busy = false) : readReg P .status c = 0 := by
  rw [readReg, statusWord, h]
  rfl

/-! ## The completion of a COMPUTE in flight (R105, R106) -/

section Proceed

variable (P : Params) {F : Format} {s : State}

theorem proceed_of_idle (h : s.core.busy = false) : proceed P s = .next s := by
  simp only [proceed, (CoreState.busy_eq_false _).1 h]

theorem proceed_of_inFlight (h : s.core.inFlight = some F) : proceed P s = runCompute P F s := by
  simp only [proceed, h]

/-- The COMPUTE in flight does what its command does as one atomic step. -/
theorem proceed_eq_exec_complete (h : s.core.inFlight = some F) :
    proceed Config.params s = exec (Instr.compute F) s.complete := by
  rw [exec_compute, command_of_idle rfl, proceed_of_inFlight _ h]
  exact (runCompute_setInFlight _ F none s).symm

theorem proceed_of_dutiesMet (h : s.core.inFlight = some F) (hbase : s.core.regs.bufferBase ≠ 0)
    (hd : DutiesMet F s) : proceed P s = .next (stages P F s).complete := by
  rw [proceed_of_inFlight P h, runCompute_of_dutiesMet P hbase hd, begin_of_inFlight h]

end Proceed

/-! ## Which COMPUTE in flight completes when nothing is pending (R106, R246, R247) -/

theorem Sparse.get_of_mem {α : Type} [DecidableEq α] {d : α} {m : List (Nat × α)} (h : Sparse.Wf d m)
    {e : Nat × α} (he : e ∈ m) : Sparse.get d m e.1 = e.2 := by
  induction m with
  | nil => cases he
  | cons x m ih =>
    obtain ⟨hlt, hsorted⟩ := List.pairwise_cons.1 h.1
    rcases List.mem_cons.1 he with rfl | hm
    · exact if_pos rfl
    · exact (if_neg (hlt e hm).ne').trans (ih ⟨hsorted, fun y hy => h.2 y (List.mem_cons_of_mem x hy)⟩ hm)

section Idle

variable {s : State}

theorem coreOf_of_mem_others (h : Inv s) {e : Nat × CoreState} (he : e ∈ s.others) : s.coreOf e.1 = e.2 := by
  obtain ⟨-, hwf, hcur, -⟩ := h
  rw [State.coreOf, if_neg (hcur e he), Sparse.get_of_mem hwf he]

/-- A BUSY instance other than the addressed one is listed. -/
theorem mem_others_of_busy {n : Nat} (hn : n ≠ s.cur) (hb : (s.coreOf n).busy = true) :
    (n, s.coreOf n) ∈ s.others := by
  rw [State.coreOf, if_neg hn] at hb ⊢
  rcases Sparse.get_mem CoreState.reset n s.others with hreset | hlisted
  · rw [hreset] at hb
    cases hb
  · exact hlisted

/-- In a list in order of number the first BUSY instance is that of the lowest number. -/
theorem find?_busy_eq {n : Nat} (h : Inv s) (hn : n ≠ s.cur) (hb : (s.coreOf n).busy = true)
    (hlow : ∀ m < n, (s.coreOf m).busy = false) :
    s.others.find? (fun e => e.2.busy) = some (n, s.coreOf n) := by
  obtain ⟨before, after, hsplit⟩ := List.append_of_mem (mem_others_of_busy hn hb)
  refine List.find?_eq_some_iff_append.2 ⟨hb, before, after, hsplit, fun e he => ?_⟩
  have hmem : e ∈ s.others := hsplit ▸ List.mem_append_left _ he
  have hlt : e.1 < n := by
    obtain ⟨-, ⟨hsorted, -⟩, -⟩ := h
    rw [hsplit] at hsorted
    exact (List.pairwise_append.1 hsorted).2.2 e he _ List.mem_cons_self
  rw [← coreOf_of_mem_others h hmem, hlow _ hlt]
  rfl

theorem idle_of_busy (h : s.core.busy = true) : idle s = proceed Config.params s := if_pos h

theorem idle_of_lowest_busy {n : Nat} (h : Inv s) (hidle : s.core.busy = false) (hb : (s.coreOf n).busy = true)
    (hlow : ∀ m < n, (s.coreOf m).busy = false) : idle s = proceed Config.params (s.focus n) := by
  have hn : n ≠ s.cur := by
    rintro rfl
    rw [coreOf_cur, hidle] at hb
    cases hb
  simp only [idle, hidle, find?_busy_eq h hn hb hlow, Bool.false_eq_true, if_false]

theorem idle_of_none_busy (h : ¬SomeBusy s) : idle s = .next s := by
  obtain ⟨hcore, hothers⟩ := not_or.1 h
  have hnone : s.others.find? (fun e => e.2.busy) = none :=
    List.find?_eq_none.2 fun e he hb => hothers ⟨e, he, hb⟩
  simp only [idle, if_neg hcore, hnone]

end Idle

/-! ## Runs and steps at the addressed instance -/

section Run

variable {s t : State} {rest : List Event}

theorem run_one (s : State) : core.run 1 s = step s := by
  cases h : core.step s <;> simp only [Host.Core.run, h] <;> exact h.symm

theorem run_succ_of_next (h : step s = .next t) (k : Nat) : core.run (k + 1) s = core.run k t := by
  have h' : core.step s = .next t := h
  simp only [Host.Core.run, h']

theorem run_succ_of_fault {f : Fault} (h : step s = .fault f) (k : Nat) : core.run (k + 1) s = .fault f := by
  have h' : core.step s = .fault f := h
  simp only [Host.Core.run, h']

theorem step_cmdWrite_cur {data : Data} {ov : Bool} (hbus : s.bus = .regWrite s.cur 0x000 8 data ov :: rest) :
    step s = issue data ov (s.setBus rest) :=
  (step_cons hbus).trans ((atInstance_cur (s.setBus rest) _).trans (hostWrite_cmd data ov _))

theorem step_proceed_cur (hbus : s.bus = .proceed s.cur :: rest) :
    step s = proceed Config.params (s.setBus rest) :=
  (step_cons hbus).trans (atInstance_cur (s.setBus rest) _)

end Run

end Sys2Proof.Machine

namespace Sys2Proof
open Machine

/-- Settles O17: an instruction that is no COMPUTE leaves the state as it was, but for the duty of R270. -/
theorem nopAndReservedCommandsChangeNothing : Obligations.NopAndReservedCommandsChangeNothing := by
  intro s fmt op i hi
  have hF : i.computeFormat = none := by
    simp only [List.mem_cons, List.not_mem_nil, or_false] at hi
    obtain rfl | rfl | rfl | rfl := hi <;> rfl
  exact ⟨fun hb => exec_of_no_format_of_idle hb hF, fun hb => (exec_of_no_format hF s).trans (command_of_busy hb _)⟩

/-- Settles O18: the atomic step clears BUSY alone, which is clear, and nothing starts. -/
theorem nullBufferComputeDoesNothing : Obligations.NullBufferComputeDoesNothing :=
  fun _ F hb hnull => ⟨exec_of_null_of_idle hb (computeFormat_compute F) hnull, startCompute_of_null hb hnull⟩

/-- Settles O19: with every duty met the atomic step is the stages in their order. -/
theorem computeRunsTheStagesInOrder : Obligations.ComputeRunsTheStagesInOrder :=
  fun _ _ _ hF hb => ⟨exec_of_null_of_idle hb hF, fun hbase hd =>
    (exec_of_format_of_idle hb hF).trans (runCompute_of_dutiesMet _ hbase hd)⟩

/-- Settles O25: a command with nothing to complete is over at its write, and the event finds nothing in flight; a broken
duty of the start is the first the atomic step breaks; and a COMPUTE that has started takes the atomic step. -/
theorem overlappedCommandEqualsAtomic : Obligations.OverlappedCommandEqualsAtomic := by
  intro s data rest hb
  let u := s.setBus (.proceed s.cur :: rest)
  let v := s.setBus rest
  let i := decodeKey (dispatchKey s.core.regs.format data)
  have hwrite : step (s.setBus (.regWrite s.cur 0x000 8 data true :: .proceed s.cur :: rest)) = issue data true u :=
    step_cmdWrite_cur rfl
  have hatomic : step (s.setBus (.regWrite s.cur 0x000 8 data false :: rest)) = exec i v :=
    (step_cmdWrite_cur rfl).trans (issue_not_overlapped data v)
  have hproceed : step u = .next v := (step_proceed_cur rfl).trans (proceed_of_idle _ hb)
  rw [run_one, hatomic]
  cases hF : i.computeFormat with
  | none =>
    have hover : issue data true u = .next u :=
      (issue_of_no_format (s := u) hF true).trans (exec_of_no_format_of_idle hb hF)
    rw [run_succ_of_next (hwrite.trans hover), run_one, hproceed, exec_of_no_format_of_idle (s := v) hb hF]
  | some F =>
    have hstart : issue data true u = startCompute F u := issue_overlapped_of_format hF
    have hrun : exec i v = runCompute Config.params F v := exec_of_format_of_idle (s := v) hb hF
    rcases startCompute_cases F u hb with ⟨hnull, e⟩ | ⟨hbase, f, hf, e⟩ | ⟨-, -, e⟩ <;>
      replace hwrite := hwrite.trans (hstart.trans e)
    · rw [run_succ_of_next hwrite, run_one, hproceed, exec_of_null_of_idle (s := v) hb hF hnull]
    · have hfault : runCompute Config.params F v = .fault f := runCompute_of_placementFault (s := v) _ hbase hf
      exact (run_succ_of_fault hwrite 1).trans (hrun.trans hfault).symm
    · rw [run_succ_of_next hwrite, run_one, hrun]
      calc step (u.begin F) = proceed Config.params (v.begin F) := step_proceed_cur rfl
        _ = runCompute Config.params F (v.begin F) := proceed_of_inFlight _ rfl
        _ = runCompute Config.params F v := runCompute_setInFlight _ F (some F) v

/-- Settles O26: the write starts the COMPUTE at the instance, and a completed one has left BUSY clear by its frame. -/
theorem busyLifecycle : Obligations.BusyLifecycle := by
  refine ⟨fun s n F data rest hn hb hF hbus => ?_, fun i F s t hF ht => ?_⟩
  · intro u
    have hcore : u.core = s.coreOf n := focus_core n (s.setBus rest)
    obtain ⟨-, hoverlapped⟩ := stepRunsDecodedInstruction s n data rest hn
    obtain ⟨-, hstart⟩ := hoverlapped hbus
    rw [hstart F hF]
    rw [← hcore] at hb ⊢
    exact ⟨fun hnull => ⟨startCompute_of_null hb hnull, readReg_status_of_idle _ hb⟩,
      fun hbase hp => ⟨startCompute_of_placementMet hb hbase hp, rfl⟩⟩
  · obtain ⟨-, hidle, -⟩ := computeFrame i F s t hF ht
    exact readReg_status_of_idle _ hidle

/-- Settles O27: the machine by itself lets the COMPUTE in flight of the addressed instance, or of the first BUSY one
listed, take its step. -/
theorem inFlightComputeCompletes : Obligations.InFlightComputeCompletes := by
  intro s hbus
  rw [step_nil hbus]
  refine ⟨fun F hF => ?_, fun hinv hidle n F hF hlow => ?_, idle_of_none_busy⟩
  · rw [idle_of_busy (congrArg Option.isSome hF)]
    exact ⟨proceed_eq_exec_complete hF, proceed_of_dutiesMet _ hF⟩
  · have hb : (s.coreOf n).busy = true := congrArg Option.isSome hF
    obtain ⟨-, -, hbase⟩ := hinv.legalCore_coreOf n
    rw [idle_of_lowest_busy hinv hidle hb hlow]
    rw [← focus_core n s] at hF hb hbase
    exact ⟨proceed_eq_exec_complete hF, proceed_of_dutiesMet _ hF (hbase hb)⟩

end Sys2Proof
end

section
/-! Routing (O37), and that a reset leaves nothing routed (O16). -/

namespace Sys2Proof.Machine

/-! ## Routing, slot by slot -/

variable {r : Regs} {src : Source}

/-- The slots of a ROUTE register as digits of its word (R40, R120). -/
theorem routes_iff {dst : Dest} :
    routes r src dst = true ↔ ∃ i < 8, (r.route src).toNat / 16 ^ i % 16 = dst.code.toNat := by
  simp only [routes, List.any_eq_true, List.mem_range, beq_iff_eq, ← BitVec.toNat_inj, routeSlot_toNat]

theorem hasRouting_iff : hasRouting r src = true ↔ ∃ i < 8, (r.route src).toNat / 16 ^ i % 16 ≠ 0 := by
  simp only [hasRouting, List.any_eq_true, List.mem_range, bne_iff_ne, ne_eq, ← BitVec.toNat_inj, routeSlot_toNat,
    BitVec.ofNat_eq_ofNat, BitVec.toNat_ofNat, Nat.zero_mod]

/-- Every tag from 1 to 8 is some destination's (R88). -/
theorem exists_dest_code {t : Nat} (hpos : 0 < t) (hle : t ≤ 8) : ∃ dst : Dest, t = dst.code.toNat := by
  interval_cases t
  exacts [⟨.osc0Frequency, rfl⟩, ⟨.osc0Phase, rfl⟩, ⟨.osc0Volume, rfl⟩, ⟨.osc1Frequency, rfl⟩, ⟨.osc1Phase, rfl⟩,
    ⟨.osc1Volume, rfl⟩, ⟨.pitchTuning, rfl⟩, ⟨.volume, rfl⟩]

/-- A slot that is not NONE names a destination, unless its tag is reserved (R25, R121). -/
theorem exists_routes_of_hasRouting (hlegal : LegalRoute (r.route src)) (h : hasRouting r src = true) :
    ∃ dst, routes r src dst = true := by
  obtain ⟨i, hi, hslot⟩ := hasRouting_iff.1 h
  have hle : (r.route src).toNat / 16 ^ i % 16 ≤ 8 := routeSlot_toNat _ i ▸ hlegal i hi
  obtain ⟨dst, hdst⟩ := exists_dest_code (Nat.pos_of_ne_zero hslot) hle
  exact ⟨dst, routes_iff.2 ⟨i, hi, hdst⟩⟩

/-! ## A source that is routed to nothing -/

theorem hasRouting_of_route_eq_zero (h : r.route src = 0) : hasRouting r src = false := by
  refine Bool.eq_false_iff.2 fun hr => ?_
  obtain ⟨i, -, hslot⟩ := hasRouting_iff.1 hr
  exact hslot (by simp [h])

theorem routes_of_not_hasRouting (h : hasRouting r src = false) (dst : Dest) : routes r src dst = false :=
  Bool.eq_false_iff.2 fun hr => Bool.eq_false_iff.1 h (hasRouting_of_routes hr)

theorem route_reset (src : Source) : Regs.reset.route src = 0 := by cases src <;> rfl

end Sys2Proof.Machine

namespace Sys2Proof
open Machine

/-- Settles O37: each function is its existence test, and a legal slot that is not NONE names a destination. -/
theorem routingIsAnExistenceTest : Obligations.RoutingIsAnExistenceTest := by
  intro r src
  exact ⟨fun _ => routes_iff, hasRouting_iff, fun hlegal =>
    ⟨exists_routes_of_hasRouting hlegal, fun ⟨_, h⟩ => hasRouting_of_routes h⟩⟩

/-- Settles O16: every instance is at reset, where the ROUTE registers are 0. -/
theorem resetRoutesNothing : Obligations.ResetRoutesNothing := by
  intro n src
  rw [coreOf_reset]
  have hunrouted : hasRouting Regs.reset src = false := hasRouting_of_route_eq_zero (route_reset src)
  exact ⟨route_reset src, hunrouted, routes_of_not_hasRouting hunrouted⟩

end Sys2Proof
end

section
/-! Envelopes without routing (O33). `ReadsAs` says what the commands read of an instance outside the five drivers; a
change of the instance that leaves all of it alone, and that no stage writes over, commutes with every such stage. -/

namespace Sys2Proof.Machine

/-! ## What the stages over sample memory read of an instance -/

/-- `d` reads as `c` to the stages after the drivers and to the duties of a COMPUTE: the call window, the registers of
oscillators, pitch and volume, the routing, the samples of the routed sources, W_PITCH, PHASE_ACC and BUSY. -/
structure ReadsAs (P : Params) (c d : CoreState) : Prop where
  bufferBase : d.regs.bufferBase = c.regs.bufferBase
  frames : d.frames = c.frames
  addr : ∀ F i, elementAddr F d i = elementAddr F c i
  time : ∀ i, d.time i = c.time i
  sampleRate : d.sampleRate = c.sampleRate
  osc : ∀ k, d.regs.osc k = c.regs.osc k
  pitchTuning : d.regs.pitchTuning = c.regs.pitchTuning
  keyDistance : keyDistance d.regs = keyDistance c.regs
  volume : d.regs.volume = c.regs.volume
  routes : routes d.regs = routes c.regs
  sourceAt : ∀ src dst i, Machine.routes c.regs src dst = true → d.sourceAt P src i = c.sourceAt P src i
  pitch : d.work.pitch = c.work.pitch
  phaseAcc : d.phaseAcc = c.phaseAcc
  inFlight : d.inFlight = c.inFlight

namespace ReadsAs

variable {P : Params} {s : State} {d : CoreState} (h : ReadsAs P s.core d)
include h

/-- Drawing free values leaves the instance. -/
theorem of_onlyDraws {u : State} (hu : OnlyDraws s u) : ReadsAs P u.core d := hu.core ▸ h

/-! ## The duties -/

theorem frameBytes (F : Format) (n i : Nat) : frameBytes F d n i = Machine.frameBytes F s.core n i := by
  simp only [Machine.frameBytes, h.addr]

theorem computeFault (F : Format) : computeFault F (s.setCore d) = Machine.computeFault F s := by
  have hwin : windowBytes F d = windowBytes F s.core := by
    simp only [windowBytes, h.frames, funext (h.frameBytes F F.esize)]
  have hacc : accessFault F (s.setCore d) = accessFault F s := by
    funext i
    unfold accessFault
    rw [State.setCore_core, h.frameBytes]
    rfl
  unfold Machine.computeFault placementFault
  rw [State.setCore_core, hwin, hacc, h.frames]
  rfl

/-! ## The sample primitives -/

theorem storeBits {n : Nat} (F : Format) (i : Nat) (v : BitVec n) :
    storeBits F i v (s.setCore d) = (Machine.storeBits F i v s).setCore d := by
  unfold Machine.storeBits
  rw [State.setCore_core, h.addr]
  rfl

theorem loadBits (n : Nat) (F : Format) (i : Nat) : loadBits n F i (s.setCore d) = Machine.loadBits n F i s := by
  unfold Machine.loadBits
  rw [State.setCore_core, h.addr]
  rfl

theorem loadAsDouble (F : Format) (i : Nat) : loadAsDouble F i (s.setCore d) = Machine.loadAsDouble F i s := by
  cases F <;> simp only [Machine.loadAsDouble, h.loadBits]

theorem snapshot (F : Format) : snapshot F (s.setCore d) = Machine.snapshot F s := by
  simp only [Machine.snapshot, State.setCore_core, h.frames, h.loadAsDouble]

theorem storeFromDouble (F : Format) (i : Nat) (v : F64) :
    storeFromDouble P F i v (s.setCore d) = (Machine.storeFromDouble P F i v s).setCore d := by
  have hint (n : Nat) : storeInt P n F i v (s.setCore d) = (storeInt P n F i v s).setCore d := by
    rw [storeInt, convInt_setCore]
    exact (h.of_onlyDraws (convInt_onlyDraws P n v s)).storeBits F i _
  cases F
  iterate 5 exact hint _
  · simp only [Machine.storeFromDouble, settle32_setCore]
    exact (h.of_onlyDraws (settle32_onlyDraws P _ s)).storeBits _ i _
  · exact h.storeBits _ i v
  · exact h.storeBits _ i v

theorem accumulate (F : Format) (i : Nat) (a : F64) :
    accumulate P F i a (s.setCore d) = (Machine.accumulate P F i a s).setCore d := by
  have hint (n : Nat) : accumulateInt P n F i a (s.setCore d) = (accumulateInt P n F i a s).setCore d := by
    simp only [accumulateInt, convInt_setCore, h.loadBits]
    exact (h.of_onlyDraws (convInt_onlyDraws P n a s)).storeBits F i _
  have hreal : accumulateReal P F i a (s.setCore d) = (accumulateReal P F i a s).setCore d := by
    simp only [accumulateReal, settle_setCore, h.loadBits]
    exact (h.of_onlyDraws (settle_onlyDraws P _ s)).storeBits F i _
  cases F
  iterate 5 exact hint _
  · simp only [Machine.accumulate, settle32_setCore, h.loadBits]
    exact (h.of_onlyDraws (settle32_onlyDraws P _ s)).storeBits _ i _
  · exact hreal
  · exact hreal

/-! ## The samples of the routed sources -/

theorem bend (k : OscId) (i : Nat) : bend P k i d = Machine.bend P k i s.core := by
  funext b src
  unfold Machine.bend
  rw [h.routes]
  congr 1 <;> exact ite_congr rfl (fun hr => by rw [h.sourceAt src _ i hr]) fun _ => rfl

theorem bendAll (k : OscId) (i : Nat) : bendAll P k i d = Machine.bendAll P k i s.core := by
  unfold Machine.bendAll
  rw [h.bend, h.osc]

theorem bySource {α : Type} (dst : Dest) (i : Nat) (g : Source → F64 → α → α) :
    (fun a src => if Machine.routes d.regs src dst then g src (d.sourceAt P src i) a else a) =
      fun a src => if Machine.routes s.core.regs src dst then g src (s.core.sourceAt P src i) a else a := by
  funext a src
  rw [h.routes]
  exact ite_congr rfl (fun hr => by rw [h.sourceAt src _ i hr]) fun _ => rfl

theorem gain (i : Nat) : gain P i d = Machine.gain P i s.core := by
  rw [Machine.gain, Machine.gain, h.volume, h.bySource .volume i bendGain]

theorem tuning (i : Nat) : tuning P i d = Machine.tuning P i s.core := by
  rw [Machine.tuning, Machine.tuning, h.pitchTuning, h.bySource .pitchTuning i tuneBy]

/-! ## The stages that leave the instance -/

theorem oscFrame (k : OscId) (F : Format) (i : Nat) :
    oscFrame P k F (s.setCore d) i = (Machine.oscFrame P k F s i).setCore d := by
  unfold Machine.oscFrame
  simp only [State.setCore_core, h.sampleRate, h.time, h.osc, h.bendAll, wave_setCore]
  exact (h.of_onlyDraws (wave_onlyDraws P _ _ _ _ s)).accumulate F i _

theorem volumeFrame (F : Format) (i : Nat) :
    volumeFrame P F (s.setCore d) i = (Machine.volumeFrame P F s i).setCore d := by
  unfold Machine.volumeFrame
  simp only [State.setCore_core, h.gain, settle_setCore, h.loadAsDouble]
  exact (h.of_onlyDraws (settle_onlyDraws P _ s)).storeFromDouble F i _

theorem copyBack (F : Format) (i : Nat) :
    copyBack P F (s.setCore d) i = (Machine.copyBack P F s i).setCore d := by
  rw [Machine.copyBack, State.setCore_core, h.pitch]
  exact h.storeFromDouble F i _

theorem oscRender (k : OscId) (F : Format) :
    oscRender P k F (s.setCore d) = (Machine.oscRender P k F s).setCore d := by
  rw [Machine.oscRender, State.setCore_core, h.frames]
  exact foldl_setCore (oscFrame_core P F k) _ fun u hu i _ => (hu ▸ h : ReadsAs P u.core d).oscFrame k F i

theorem volumeStage (F : Format) : volumeStage P F (s.setCore d) = (Machine.volumeStage P F s).setCore d := by
  rw [Machine.volumeStage, State.setCore_core, h.frames]
  exact foldl_setCore (volumeFrame_core P F) _ fun u hu i _ => (hu ▸ h : ReadsAs P u.core d).volumeFrame F i

theorem copyBackAll (F : Format) (l : List Nat) :
    l.foldl (Machine.copyBack P F) (s.setCore d) = (l.foldl (Machine.copyBack P F) s).setCore d :=
  foldl_setCore (copyBack_core P F) l fun u hu i _ => (hu ▸ h : ReadsAs P u.core d).copyBack F i

/-! ## One output frame of the pitch stage -/

theorem frameIncr (root : F64) (i : Nat) :
    frameIncr P root i (s.setCore d) =
      ((Machine.frameIncr P root i s).1, (Machine.frameIncr P root i s).2.setCore d) := by
  unfold Machine.frameIncr
  simp only [State.setCore_core, h.keyDistance, h.tuning, keyPitch_setCore, toFixed_setCore]

end ReadsAs

/-- An output frame changes the instance by its increment and its value alone (R190). -/
theorem pitchFrame_eq (P : Params) (root : F64) (X : List F64) (s : State) (i : Nat) :
    let inc := frameIncr P root i s
    let v := settle P (interpolate (P.coeff (phaseRow s.core.phaseAcc)) X (phaseIndex s.core.phaseAcc))
      (inc.2.setTableLock none)
    pitchFrame P root X s i = v.2.setCore (afterPitchFrame i inc.1 v.1 s.core) := by
  intro inc v
  unfold pitchFrame
  extract_lets s1 p row v' s2
  have hinc : inc.2.core = s.core := (frameIncr_onlyDraws P root i s).core
  have hp : p = s.core.phaseAcc := congrArg (·.phaseAcc) hinc
  have hv : v' = (v.1, v.2.setCore (inc.2.core.setIncr inc.1)) := by
    simp only [v', row, hp]
    exact settle_setCore P (inc.2.setTableLock none) (inc.2.core.setIncr inc.1) _
  simp only [s2, hv, hp, hinc]
  rfl

/-! ## The five drivers -/

/-- The drivers of a COMPUTE, in the order of R103. -/
def drivers (P : Params) (s : State) : State :=
  noiseDrive P (lfoDrive P .lfo1 (lfoDrive P .lfo0 (envDrive P .env1 (envDrive P .env0 s))))

theorem stages_eq (P : Params) (F : Format) (s : State) :
    stages P F s = volumeStage P F (pitchStage P F (oscRender P .osc1 F (oscRender P .osc0 F (drivers P s)))) := rfl

theorem drivers_regs (P : Params) (s : State) : (drivers P s).core.regs = s.core.regs :=
  ((envDrive_keepsUnrouted P .env0 s).trans <| (envDrive_keepsUnrouted P .env1 _).trans <|
    (lfoDrive_keepsUnrouted P .lfo0 _).trans <| (lfoDrive_keepsUnrouted P .lfo1 _).trans <|
      noiseDrive_keepsUnrouted P _).regs

/-! ## A change of the instance that no stage reads or writes over -/

theorem pitchFrame_regs (P : Params) (root : F64) (X : List F64) (s : State) (i : Nat) :
    (pitchFrame P root X s i).core.regs = s.core.regs := (pitchFrame_keeps P root X s i).2.1

/-- `f` changes an instance whose registers meet `U` in nothing that the stages after the drivers read or write, and
not in BUSY. -/
structure Unread (P : Params) (U : Regs → Prop) (f : CoreState → CoreState) : Prop where
  reads : ∀ c, U c.regs → ReadsAs P c (f c)
  setPhaseAcc : ∀ c p, f (c.setPhaseAcc p) = (f c).setPhaseAcc p
  setInFlight : ∀ c F, f (c.setInFlight F) = (f c).setInFlight F
  afterPitchFrame : ∀ c i inc v, f (afterPitchFrame i inc v c) = Machine.afterPitchFrame i inc v (f c)

/-- The state with its addressed instance changed by `f`. -/
def State.onCore (f : CoreState → CoreState) (s : State) : State := s.setCore (f s.core)

namespace Unread

variable {P : Params} {U : Regs → Prop} {f : CoreState → CoreState} (hf : Unread P U f)
  {s : State} (hs : U s.core.regs)
include hf hs

theorem pitchFrame (root : F64) (X : List F64) (i : Nat) :
    pitchFrame P root X (s.onCore f) i = (Machine.pitchFrame P root X s i).onCore f := by
  have h := hf.reads _ hs
  have hlock (u : State) : (u.setCore (f s.core)).setTableLock none = (u.setTableLock none).setCore (f s.core) := rfl
  rw [pitchFrame_eq, pitchFrame_eq]
  simp only [State.onCore, State.setCore_core, h.phaseAcc, h.frameIncr, hf.afterPitchFrame, hlock, settle_setCore]
  rfl

theorem pitchFrames (root : F64) (X : List F64) (l : List Nat) :
    l.foldl (Machine.pitchFrame P root X) (s.onCore f) = (l.foldl (Machine.pitchFrame P root X) s).onCore f := by
  induction l generalizing s with
  | nil => rfl
  | cons i l ih =>
    rw [List.foldl_cons, List.foldl_cons, hf.pitchFrame hs]
    exact ih (pitchFrame_regs P root X s i ▸ hs)

theorem pitchStage (F : Format) : pitchStage P F (s.onCore f) = (Machine.pitchStage P F s).onCore f := by
  have h := hf.reads _ hs
  have hframes : (s.onCore f).core.frames = s.core.frames := h.frames
  by_cases h0 : s.core.frames = 0
  · rw [pitchStage_no_frames P h0, pitchStage_no_frames P (hframes.trans h0)]
  · unfold Machine.pitchStage
    rw [hframes, if_neg h0, if_neg h0]
    extract_lets X' root' start' done' X root start done
    have hX : X' = X := h.snapshot F
    have hroot : root' = (root.1, root.2.setCore (f s.core)) :=
      (congrArg (keyPitch P · _) h.keyDistance).trans (keyPitch_setCore P s _ _)
    have hrootcore : root.2.core = s.core := (keyPitch_onlyDraws P _ s).core
    have hstart : start' = start.onCore f := by
      simp only [start', start, hroot, State.onCore, State.setCore_core, hf.setPhaseAcc, hrootcore]
      rfl
    have hregs : start.core.regs = s.core.regs := congrArg (·.regs) hrootcore
    have hdone : done' = done.onCore f := by
      simp only [done', done, hX, hroot, hstart]
      exact hf.pitchFrames (hregs ▸ hs) root.1 X _
    have hregs' : done.core.regs = s.core.regs :=
      (foldl_keeps (·.core.regs) (pitchFrame_regs P root.1 X) _ start).trans hregs
    rw [hdone, State.onCore, State.onCore, (hf.reads done.core (hregs' ▸ hs)).copyBackAll,
      foldl_keeps State.core (copyBack_core P F)]

theorem oscRender (k : OscId) (F : Format) :
    oscRender P k F (s.onCore f) = (Machine.oscRender P k F s).onCore f := by
  rw [State.onCore, (hf.reads _ hs).oscRender, State.onCore, oscRender_core]

theorem volumeStage (F : Format) : volumeStage P F (s.onCore f) = (Machine.volumeStage P F s).onCore f := by
  rw [State.onCore, (hf.reads _ hs).volumeStage, State.onCore, volumeStage_core]

/-- Where the drivers commute with the change, the stages do. -/
theorem stages (hdrive : drivers P (s.onCore f) = (drivers P s).onCore f) (F : Format) :
    stages P F (s.onCore f) = (Machine.stages P F s).onCore f := by
  have hdrivers : U (drivers P s).core.regs := (drivers_regs P s).symm ▸ hs
  have hosc0 := (oscRender_core P F .osc0 (drivers P s)).symm ▸ hdrivers
  have hosc1 := (oscRender_core P F .osc1 _).symm ▸ hosc0
  have hpitch := (pitchStage_frame P F _).regs.symm ▸ hosc1
  rw [stages_eq, stages_eq, hdrive, hf.oscRender hdrivers, hf.oscRender hosc0, hf.pitchStage hosc1,
    hf.volumeStage hpitch]

/-- A COMPUTE does too. -/
theorem runCompute (F : Format)
    (hdrive : drivers P ((s.begin F).onCore f) = (drivers P (s.begin F)).onCore f) :
    runCompute P F (s.onCore f) = onNext (State.onCore f) (Machine.runCompute P F s) := by
  have h := hf.reads _ hs
  have hbase : (s.onCore f).core.regs.bufferBase = s.core.regs.bufferBase := h.bufferBase
  have hfault : computeFault F (s.onCore f) = computeFault F s := h.computeFault F
  have hbegin : (s.onCore f).begin F = (s.begin F).onCore f :=
    congrArg s.setCore (hf.setInFlight s.core (some F)).symm
  have hcomplete (u : State) : (u.onCore f).complete = u.complete.onCore f :=
    congrArg u.setCore (hf.setInFlight u.core none).symm
  have hstages := hf.stages (s := s.begin F) hs hdrive F
  unfold Machine.runCompute
  rw [hbase, hfault, hbegin, hstages, hcomplete, hcomplete]
  split
  · rfl
  · split <;> rfl

end Unread

/-- And so does every command. -/
theorem exec_onCore {U : Regs → Prop} {f : CoreState → CoreState} (hf : Unread Config.params U f) (i : Instr)
    {s : State} (hs : U s.core.regs)
    (hdrive : ∀ u, U u.core.regs → drivers Config.params (u.onCore f) = (drivers Config.params u).onCore f) :
    exec i (s.onCore f) = onNext (State.onCore f) (exec i s) := by
  have hbusy : (s.onCore f).core.busy = s.core.busy := congrArg Option.isSome (hf.reads _ hs).inFlight
  have hcommand (o : Host.Outcome State Fault Refusal) :
      command (s.onCore f) (onNext (State.onCore f) o) = onNext (State.onCore f) (command s o) := by
    unfold command
    rw [hbusy]
    split <;> rfl
  cases hF : i.computeFormat with
  | none =>
    rw [exec_of_no_format hF, exec_of_no_format hF]
    exact hcommand (.next s)
  | some F =>
    rw [exec_of_format hF, exec_of_format hF, hf.runCompute hs F (hdrive (s.begin F) hs)]
    exact hcommand _

/-! ## The envelopes -/

/-- The instance of `withEnvelopes` (R139). -/
def swapEnvelopes (e0 e1 : EnvRegs) (n : BitVec 64) (w0 w1 : List F64) (c : CoreState) : CoreState :=
  (c.setRegs { c.regs with
    env0 := { e0 with route := c.regs.env0.route }
    env1 := { e1 with route := c.regs.env1.route }
    frameCount := n }).setWork ((c.work.setOf .env0 w0).setOf .env1 w1)

theorem withEnvelopes_eq (e0 e1 : EnvRegs) (n : BitVec 64) (w0 w1 : List F64) :
    withEnvelopes e0 e1 n w0 w1 = State.onCore (swapEnvelopes e0 e1 n w0 w1) := rfl

/-- Neither envelope has routing. -/
def EnvelopesUnrouted (r : Regs) : Prop := ∀ e : EnvId, hasRouting r e.source = false

theorem envDrive_of_unrouted (P : Params) {e : EnvId} {s : State} (h : hasRouting s.core.regs e.source = false) :
    envDrive P e s = s := if_neg (Bool.eq_false_iff.1 h)

section Swap

variable (P : Params) (e0 e1 : EnvRegs) (n : BitVec 64) (w0 w1 : List F64)

theorem swapEnvelopes_route (c : CoreState) (src : Source) :
    (swapEnvelopes e0 e1 n w0 w1 c).regs.route src = c.regs.route src := by cases src <;> rfl

theorem swapEnvelopes_hasRouting (c : CoreState) (src : Source) :
    hasRouting (swapEnvelopes e0 e1 n w0 w1 c).regs src = hasRouting c.regs src := by
  rw [hasRouting, swapEnvelopes_route, hasRouting]

theorem swapEnvelopes_readsAs (c : CoreState) (h : EnvelopesUnrouted c.regs) :
    ReadsAs P c (swapEnvelopes e0 e1 n w0 w1 c) where
  bufferBase := rfl
  frames := rfl
  addr _ _ := rfl
  time _ := rfl
  sampleRate := rfl
  osc k := by cases k <;> rfl
  pitchTuning := rfl
  keyDistance := rfl
  volume := rfl
  routes := by
    funext src dst
    rw [routes, swapEnvelopes_route, routes]
  sourceAt src dst i hr := by
    have hrouted := hasRouting_of_routes hr
    cases src with
    | env0 => exact absurd (h .env0) (ne_true_of_eq_false · hrouted)
    | env1 => exact absurd (h .env1) (ne_true_of_eq_false · hrouted)
    | lfo0 | lfo1 | noise => rfl
  pitch := rfl
  phaseAcc := rfl
  inFlight := rfl

theorem swapEnvelopes_unread : Unread P EnvelopesUnrouted (swapEnvelopes e0 e1 n w0 w1) where
  reads := swapEnvelopes_readsAs P e0 e1 n w0 w1
  setPhaseAcc _ _ := rfl
  setInFlight _ _ := rfl
  afterPitchFrame _ _ _ _ := rfl

theorem lfoDrive_swapEnvelopes (l : LfoId) (s : State) :
    lfoDrive P l (s.onCore (swapEnvelopes e0 e1 n w0 w1)) = (lfoDrive P l s).onCore (swapEnvelopes e0 e1 n w0 w1) := by
  unfold lfoDrive
  rw [State.onCore, State.setCore_core, swapEnvelopes_hasRouting]
  split
  · cases l <;> rfl
  · rfl

theorem noiseDrive_swapEnvelopes (s : State) :
    noiseDrive P (s.onCore (swapEnvelopes e0 e1 n w0 w1)) = (noiseDrive P s).onCore (swapEnvelopes e0 e1 n w0 w1) := by
  unfold noiseDrive
  rw [State.onCore, State.setCore_core, swapEnvelopes_hasRouting]
  split
  · extract_lets r' v' r v
    have hv : v' = (v.1, v.2.setCore (swapEnvelopes e0 e1 n w0 w1 s.core)) := noiseValues_setCore P s _ _ _ _ _ _ _
    have hcore : v.2.core = s.core := (noiseValues_onlyDraws P _ _ _ _ _ _ s).core
    rw [hv, State.onCore, State.setSource_core, hcore]
    rfl
  · rfl

/-- With neither envelope routed the drivers leave the envelopes alone: EnvDrive does nothing (R139), and the others
read none of their registers. -/
theorem drivers_swapEnvelopes {s : State} (h : EnvelopesUnrouted s.core.regs) :
    drivers P (s.onCore (swapEnvelopes e0 e1 n w0 w1)) = (drivers P s).onCore (swapEnvelopes e0 e1 n w0 w1) := by
  have hswap (e : EnvId) : hasRouting (s.onCore (swapEnvelopes e0 e1 n w0 w1)).core.regs e.source = false :=
    (swapEnvelopes_hasRouting e0 e1 n w0 w1 s.core _).trans (h e)
  unfold drivers
  rw [envDrive_of_unrouted P (hswap .env0), envDrive_of_unrouted P (hswap .env1), envDrive_of_unrouted P (h .env0),
    envDrive_of_unrouted P (h .env1)]
  simp only [lfoDrive_swapEnvelopes, noiseDrive_swapEnvelopes]

end Swap

end Sys2Proof.Machine

namespace Sys2Proof
open Machine

/-- Settles O33: an envelope without routing is not driven, and nothing else reads what `withEnvelopes` changes. -/
theorem unroutedEnvelopesAreBypassed : Obligations.UnroutedEnvelopesAreBypassed := by
  refine ⟨fun P s e h => envDrive_of_unrouted P h, fun i s e0 e1 n w0 w1 h0 h1 => ?_⟩
  have hunrouted : EnvelopesUnrouted s.core.regs
    | .env0 => h0
    | .env1 => h1
  rw [withEnvelopes_eq]
  exact exec_onCore (swapEnvelopes_unread Config.params e0 e1 n w0 w1) i hunrouted
    fun u hu => drivers_swapEnvelopes Config.params e0 e1 n w0 w1 hu

end Sys2Proof
end

section
/-! The envelope driver frame by frame (O34, O35). Each pass of its loop gives the kernel one sub-range of the window, a
run of frames of one quarter; every other frame, and so every frame at or past the note end, keeps what it held. -/

namespace Sys2Proof.Machine

/-! ## Arithmetic on a settled operand -/

theorem Fp.add_of_isNaN {x y : F64} (h : (Fp.isNaN x || Fp.isNaN y) = true) : Fp.add x y = Fp.nan := if_pos h

theorem Fp.mul_of_isNaN {x y : F64} (h : (Fp.isNaN x || Fp.isNaN y) = true) : Fp.mul x y = Fp.nan := if_pos h

/-- An operation does not tell NaNs apart (R15). -/
theorem add_of_settled {x w : F64} (h : Settled x w) (y : F64) : Fp.add w y = Fp.add x y := by
  unfold Settled at h
  split at h
  · next hx => rw [Fp.add_of_isNaN (by simp [h]), Fp.add_of_isNaN (by simp [hx])]
  · rw [h]

theorem mul_of_settled {x w : F64} (h : Settled x w) (y : F64) : Fp.mul w y = Fp.mul x y := by
  unfold Settled at h
  split at h
  · next hx => rw [Fp.mul_of_isNaN (by simp [h]), Fp.mul_of_isNaN (by simp [hx])]
  · rw [h]

theorem settled_one_mul (x : F64) : Settled x (Fp.mul Fp.one x) := by
  unfold Settled
  split
  · next hx =>
    rw [Fp.mul_of_isNaN (by simp [hx])]
    decide
  · next hx => exact Fp.mul_one_left x (by simpa using hx)

/-! ## Quarters of the note -/

section Quarters

variable (len noteEnd : Nat) {t : Nat}

/-- A quarter begins at or before each of its frames. -/
theorem quarterOf_mul_le (t : Nat) : quarterOf len t * len ≤ t := by
  unfold quarterOf
  split
  · next h => simp [h]
  · exact (Nat.mul_le_mul_right len (Nat.min_le_left _ _)).trans (Nat.div_mul_le_self t len)

/-- No quarter ends past the note end. -/
theorem quarterEnd_le (q : Nat) : quarterEnd len noteEnd q ≤ noteEnd := by
  unfold quarterEnd
  split
  · exact Nat.min_le_right _ _
  · exact le_refl _

/-- Before quarter 3 a time's quarter is the plain quotient. -/
theorem quarterOf_lt_three (h : quarterOf len t < 3) : 0 < len ∧ quarterOf len t = t / len := by
  unfold quarterOf at h ⊢
  split at h
  · omega
  · next hlen =>
    rw [if_neg hlen]
    omega

/-- A time of the note lies before the end of its quarter, so every pass covers a frame (R135). -/
theorem lt_quarterEnd (h : t < noteEnd) : t < quarterEnd len noteEnd (quarterOf len t) := by
  unfold quarterEnd
  split
  · next hq =>
    obtain ⟨hpos, hq⟩ := quarterOf_lt_three len hq
    rw [hq]
    exact lt_min ((Nat.div_lt_iff_lt_mul hpos).1 (Nat.lt_succ_self _)) h
  · exact h

/-- From a time to the end of its quarter the quarter stays. -/
theorem quarterOf_eq {t' : Nat} (hle : t ≤ t') (hlt : t' < quarterEnd len noteEnd (quarterOf len t)) :
    quarterOf len t' = quarterOf len t := by
  have hmono : t / len ≤ t' / len := Nat.div_le_div_right hle
  rcases Nat.lt_or_ge (quarterOf len t) 3 with hq | hq
  · rw [quarterEnd, if_pos hq] at hlt
    obtain ⟨hpos, hdiv⟩ := quarterOf_lt_three len hq
    have hdiv' : t' / len < quarterOf len t + 1 :=
      (Nat.div_lt_iff_lt_mul hpos).2 (hlt.trans_le (Nat.min_le_left _ _))
    rw [quarterOf, if_neg hpos.ne']
    omega
  · unfold quarterOf at hq ⊢
    split
    · rfl
    · next hlen =>
      rw [if_neg hlen] at hq
      omega

/-- A quarter that ends before the note does ends where the next one begins. -/
theorem quarterOf_quarterEnd (h : quarterEnd len noteEnd (quarterOf len t) < noteEnd) :
    quarterOf len (quarterEnd len noteEnd (quarterOf len t)) * len = quarterEnd len noteEnd (quarterOf len t) := by
  unfold quarterEnd at h ⊢
  split at h
  · next hq =>
    have hpos := (quarterOf_lt_three len hq).1
    have hend : min ((quarterOf len t + 1) * len) noteEnd = (quarterOf len t + 1) * len := by omega
    have hnext : quarterOf len ((quarterOf len t + 1) * len) = quarterOf len t + 1 := by
      rw [quarterOf, if_neg hpos.ne', Nat.mul_div_cancel _ hpos]
      omega
    rw [if_pos hq, hend, hnext]
  · exact absurd h (lt_irrefl _)

end Quarters

/-! ## One pass -/

/-- A kernel call changes the entries of its sub-range alone, each to the kernel's value (R137). -/
theorem applyEnvKernel_getElem? (P : Params) {w : List F64} {c : Nat} (hc : c ≤ w.length) (n : Nat) (v0 slope : F64)
    (i : Nat) :
    (applyEnvKernel P w c n v0 slope)[i]? =
      if c ≤ i ∧ i < c + n then some (P.envKernel ((w.drop c).take n) c v0 slope (i - c)) else w[i]? := by
  have hlen : (w.take c).length = c := by simp [hc]
  unfold applyEnvKernel
  rcases Nat.lt_or_ge i c with hi | hi
  · rw [if_neg (by omega), List.getElem?_append_left (by simp; omega), List.getElem?_append_left (by omega),
      List.getElem?_take_of_lt hi]
  · rcases Nat.lt_or_ge i (c + n) with hi' | hi'
    · rw [if_pos ⟨hi, hi'⟩, List.getElem?_append_left (by simp; omega), List.getElem?_append_right (by omega),
        hlen, List.getElem?_map, List.getElem?_range (by omega)]
      rfl
    · rw [if_neg (by omega), List.getElem?_append_right (by simp; omega), List.getElem?_drop]
      congr 1
      simp
      omega

/-- Entry `j` of the default kernel's call is `1.0` times the ramp, where the buffer holds 1.0 (R137). -/
theorem defaultEnvKernel_of_one {w : List F64} {c n j : Nat} (hj : j < n) (h : w[c + j]? = some Fp.one)
    (v0 slope : F64) :
    defaultEnvKernel ((w.drop c).take n) c v0 slope j =
      Fp.mul Fp.one (Fp.add v0 (Fp.mul slope (Fp.ofNat j))) := by
  rw [defaultEnvKernel, List.getD_eq_getElem?_getD, List.getElem?_take_of_lt hj, List.getElem?_drop, h,
    Option.getD_some]

theorem time_congr {c d : CoreState} (h : d.regs = c.regs) (i : Nat) : d.time i = c.time i := by
  rw [CoreState.time, CoreState.time, h]

section Driver

variable (P : Params) (e : EnvId)

/-- A pass of the loop is one kernel call, with the quarter's ramp at the cursor (R130, R133, R134). -/
theorem envPass_work (c : Nat) (s : State) :
    let r := s.core.regs
    let len := quarterLength P r (r.env e)
    let t := s.core.time c
    ∃ v0 slope, Settled (quarterStart (r.env e) len (quarterOf len t) t) v0 ∧
      Settled (quarterSlope (r.env e) len (quarterOf len t)) slope ∧
      (envPass P e c s).core.work.of e.source =
        applyEnvKernel P (s.core.work.of e.source) c (subRange P e r c) v0 slope := by
  intro r len t
  unfold envPass
  extract_lets τ q v0 slope
  have hcore : slope.2.core = s.core := ((settle_onlyDraws P _ s).trans (settle_onlyDraws P _ v0.2)).core
  refine ⟨v0.1, slope.1, settled_settle P _ s, settled_settle P _ v0.2, ?_⟩
  rw [State.setSource_core, CoreState.setWork_work, Work.setOf_of_same, hcore]

/-- The end of the quarter that time `t` is in (R130). -/
def segmentEnd (r : Regs) (t : Nat) : Nat :=
  quarterEnd (quarterLength P r (r.env e)) r.frameCount.toNat (quarterOf (quarterLength P r (r.env e)) t)

/-- The sub-range ends with the buffer or with the quarter (R135). -/
theorem subRange_eq (core : CoreState) (c : Nat) :
    subRange P e core.regs c = min (core.frames - c) (segmentEnd P e core.regs (core.time c) - core.time c) := rfl

theorem segmentEnd_le (r : Regs) (t : Nat) : segmentEnd P e r t ≤ r.frameCount.toNat := quarterEnd_le _ _ _

theorem lt_segmentEnd {r : Regs} {t : Nat} (h : t < r.frameCount.toNat) : t < segmentEnd P e r t :=
  lt_quarterEnd _ _ h

variable {c i : Nat} {s : State}

/-- A pass keeps an entry of the buffer for every frame. -/
theorem envPass_frames_le (h : s.core.frames ≤ (s.core.work.of e.source).length) :
    (envPass P e c s).core.frames ≤ ((envPass P e c s).core.work.of e.source).length := by
  obtain ⟨hframe, hlen⟩ := envPass_frame P .s8 e c s h
  rwa [frames_congr hframe.regs, hlen]

theorem envPass_getElem?_of_outside (hc : c ≤ (s.core.work.of e.source).length)
    (hi : i < c ∨ c + subRange P e s.core.regs c ≤ i) :
    ((envPass P e c s).core.work.of e.source)[i]? = (s.core.work.of e.source)[i]? := by
  obtain ⟨v0, slope, -, -, hwork⟩ := envPass_work P e c s
  rw [hwork, applyEnvKernel_getElem? P hc, if_neg (by omega)]

/-! ## The loop -/

/-- The loop leaves the frames before its cursor and those at or past the note end (R135, R136). -/
theorem envLoop_getElem?_of_outside (fuel : Nat) (hlen : s.core.frames ≤ (s.core.work.of e.source).length)
    (hi : i < c ∨ s.core.regs.frameCount.toNat ≤ s.core.time i) :
    ((envLoop P e fuel c s).core.work.of e.source)[i]? = (s.core.work.of e.source)[i]? := by
  induction fuel generalizing c s with
  | zero => rfl
  | succ fuel ih =>
    unfold envLoop
    split
    · next hin =>
      obtain ⟨hcL, hcN⟩ := hin
      have hregs := envPass_regs P e c s
      have houtside : i < c ∨ c + subRange P e s.core.regs c ≤ i := by
        have hend := segmentEnd_le P e s.core.regs (s.core.time c)
        rw [subRange_eq]
        unfold CoreState.time at *
        omega
      rw [ih (envPass_frames_le P e hlen), envPass_getElem?_of_outside P e (by omega) houtside]
      rw [time_congr hregs, hregs]
      omega
    · rfl

/-- The ramp of R130 to R134 at time `t`: that of the quarter `t` is in, begun where the call window or the quarter
begins. -/
def rampAt (r : Regs) (t : Nat) : F64 :=
  let d := r.env e
  let len := quarterLength P r d
  let q := quarterOf len t
  let t0 := max r.offset.toNat (q * len)
  Fp.add (quarterStart d len q t0) (Fp.mul (quarterSlope d len q) (Fp.ofNat (t - t0)))

/-- At time `t` the call window or a quarter begins. -/
def AtStart (r : Regs) (t : Nat) : Prop :=
  max r.offset.toNat (quarterOf (quarterLength P r (r.env e)) t * quarterLength P r (r.env e)) = t

theorem atStart_offset (r : Regs) : AtStart P e r r.offset.toNat := max_eq_left (quarterOf_mul_le _ _)

/-- Where a quarter ends inside the note, the next one begins. -/
theorem atStart_segmentEnd {r : Regs} {t : Nat} (ht : r.offset.toNat ≤ t)
    (hnote : t < r.frameCount.toNat) (hend : segmentEnd P e r t < r.frameCount.toNat) :
    AtStart P e r (segmentEnd P e r t) := by
  rw [AtStart, segmentEnd, quarterOf_quarterEnd _ _ hend]
  exact max_eq_right (ht.trans (lt_segmentEnd P e hnote).le)

/-- Under the default kernel a pass leaves the ramp in the frames of its sub-range. -/
theorem envPass_getElem?_of_inside (hkernel : P.envKernel = defaultEnvKernel)
    (hlen : c ≤ (s.core.work.of e.source).length) (hstart : AtStart P e s.core.regs (s.core.time c))
    (hone : (s.core.work.of e.source)[i]? = some Fp.one) (hci : c ≤ i) (hi : i < c + subRange P e s.core.regs c) :
    ∃ w, ((envPass P e c s).core.work.of e.source)[i]? = some w ∧
      Settled (rampAt P e s.core.regs (s.core.time i)) w := by
  obtain ⟨v0, slope, hv0, hslope, hwork⟩ := envPass_work P e c s
  have hj : s.core.time i - s.core.time c = i - c := by
    unfold CoreState.time
    omega
  have hq : quarterOf (quarterLength P s.core.regs (s.core.regs.env e)) (s.core.time i) =
      quarterOf (quarterLength P s.core.regs (s.core.regs.env e)) (s.core.time c) := by
    rw [subRange_eq] at hi
    refine quarterOf_eq _ s.core.regs.frameCount.toNat (Nat.add_le_add_left hci _) ?_
    show _ < segmentEnd P e s.core.regs (s.core.time c)
    omega
  rw [hwork, applyEnvKernel_getElem? P hlen, if_pos ⟨hci, hi⟩, hkernel,
    defaultEnvKernel_of_one (by omega) (by rwa [Nat.add_sub_cancel' hci])]
  refine ⟨_, rfl, ?_⟩
  rw [mul_of_settled hslope, add_of_settled hv0, rampAt, hq, hstart, hj]
  exact settled_one_mul _

/-- Under the default kernel the loop leaves the ramp in every frame of the note from its cursor on, where they hold
1.0 and the cursor stands at a start. -/
theorem envLoop_getElem?_of_note (hkernel : P.envKernel = defaultEnvKernel) (fuel : Nat)
    (hlen : s.core.frames ≤ (s.core.work.of e.source).length) (hstart : AtStart P e s.core.regs (s.core.time c))
    (hone : (s.core.work.of e.source)[i]? = some Fp.one) (hci : c ≤ i) (hi : i < s.core.frames)
    (hnote : s.core.time i < s.core.regs.frameCount.toNat) (hfuel : s.core.frames ≤ c + fuel) :
    ∃ w, ((envLoop P e fuel c s).core.work.of e.source)[i]? = some w ∧
      Settled (rampAt P e s.core.regs (s.core.time i)) w := by
  induction fuel generalizing c s with
  | zero => omega
  | succ fuel ih =>
    have hcN : s.core.time c < s.core.regs.frameCount.toNat := by
      unfold CoreState.time at *
      omega
    have hregs := envPass_regs P e c s
    have hlen' := envPass_frames_le P e (c := c) hlen
    have hend := lt_segmentEnd P e hcN
    unfold envLoop
    rw [if_pos ⟨by omega, hcN⟩]
    rcases Nat.lt_or_ge i (c + subRange P e s.core.regs c) with hin | hout
    · rw [envLoop_getElem?_of_outside P e fuel hlen' (.inl hin)]
      exact envPass_getElem?_of_inside P e hkernel (by omega) hstart hone hci hin
    · have hnext : s.core.time (c + subRange P e s.core.regs c) = segmentEnd P e s.core.regs (s.core.time c) := by
        rw [subRange_eq] at hout ⊢
        unfold CoreState.time at *
        omega
      have hstart' : AtStart P e s.core.regs (s.core.time (c + subRange P e s.core.regs c)) := by
        have hle : s.core.time (c + subRange P e s.core.regs c) ≤ s.core.time i := Nat.add_le_add_left hout _
        rw [hnext] at hle ⊢
        exact atStart_segmentEnd P e (Nat.le_add_right _ _) hcN (hle.trans_lt hnote)
      have hone' := (envPass_getElem?_of_outside P e (by omega) (.inr hout)).trans hone
      have hfuel' : s.core.frames ≤ c + subRange P e s.core.regs c + fuel := by
        rw [subRange_eq]
        omega
      have hrest := ih (s := envPass P e c s) hlen' (by rwa [time_congr hregs, hregs]) hone' hout
        (by rwa [frames_congr hregs]) (by rwa [time_congr hregs, hregs]) (by rwa [frames_congr hregs])
      rwa [time_congr hregs, hregs] at hrest

/-! ## EnvDrive -/

/-- A routed envelope's buffer at the start of the loop: 1.0 in every frame (R130). -/
def envStart (s : State) : State :=
  s.setSource e.source (fillEntries (List.replicate s.core.frames Fp.one) (s.core.work.of e.source))

theorem envDrive_of_routed (h : hasRouting s.core.regs e.source = true) :
    envDrive P e s = envLoop P e s.core.frames 0 (envStart e s) := if_pos h

theorem envStart_work : (envStart e s).core.work.of e.source =
    fillEntries (List.replicate s.core.frames Fp.one) (s.core.work.of e.source) := Work.setOf_of_same _ _ _

theorem envStart_frames_le : (envStart e s).core.frames ≤ ((envStart e s).core.work.of e.source).length := by
  rw [envStart_work, fillEntries_length, List.length_replicate]
  exact le_max_right _ _

theorem envStart_getElem? (hi : i < s.core.frames) : ((envStart e s).core.work.of e.source)[i]? = some Fp.one := by
  rw [envStart_work, fillEntries, List.getElem?_append_left (by simpa using hi), List.getElem?_replicate, if_pos hi]

end Driver

end Sys2Proof.Machine

namespace Sys2Proof
open Machine

/-- Settles O34: no pass of the loop reaches a frame at or past the note end, which keeps the 1.0 it begins with. -/
theorem envelopeIsOnePastTheNote : Obligations.EnvelopeIsOnePastTheNote := by
  intro P e s i hr hi hpast
  rw [envDrive_of_routed P e hr, envLoop_getElem?_of_outside P e _ (envStart_frames_le e) (.inr hpast)]
  exact envStart_getElem? e hi

/-- Settles O35: the cursor of the loop stands at the start of the call window or of a quarter in every pass. -/
theorem envelopeFollowsTheQuarters : Obligations.EnvelopeFollowsTheQuarters := by
  intro P e s i hbasis hkernel hr hi hnote
  have hlen : quarterLength P s.core.regs (s.core.regs.env e) = s.core.regs.frameCount.toNat / 4 := by
    rw [quarterLength, hbasis]
  have hramp : ∃ w, ((envDrive P e s).core.work.of e.source)[i]? = some w ∧
      Settled (rampAt P e s.core.regs (s.core.time i)) w := by
    rw [envDrive_of_routed P e hr]
    exact envLoop_getElem?_of_note P e hkernel s.core.frames (envStart_frames_le e) (atStart_offset P e s.core.regs)
      (envStart_getElem? e hi) (Nat.zero_le i) hi hnote (Nat.le_add_left _ _)
  rw [rampAt, hlen] at hramp
  exact hramp

end Sys2Proof
end

section
/-! Sources without routing (O32), and what the LFO and noise drivers write (O36). A driver that runs writes the
buffer of a routed source, so that it commutes with a change of the buffer of an unrouted one. -/

namespace Sys2Proof.Machine

/-! ## Two buffers written in either order -/

theorem Work.setOf_comm {src src' : Source} (h : src ≠ src') (b b' : List F64) (w : Work) :
    (w.setOf src b).setOf src' b' = (w.setOf src' b').setOf src b := by
  cases src <;> cases src' <;> simp [Work.setOf] at h ⊢

theorem setSource_comm {src src' : Source} (h : src ≠ src') (b b' : List F64) (s : State) :
    (s.setSource src b).setSource src' b' = (s.setSource src' b').setSource src b :=
  congrArg (fun w => s.setCore (s.core.setWork w)) (Work.setOf_comm h b b' s.core.work)

/-! ## The drivers and the buffer of another source -/

section Drivers

variable (P : Params) (src : Source) (b : List F64)

theorem settle_setSource (x : F64) (s : State) :
    settle P x (s.setSource src b) = ((settle P x s).1, (settle P x s).2.setSource src b) := by
  unfold settle
  split <;> rfl

theorem noiseValues_setSource (mode : BitVec 64) (fr g : F64) (sr : BitVec 32) (o : BitVec 64) (n : Nat) (s : State) :
    noiseValues P mode fr g sr o n (s.setSource src b) =
      ((noiseValues P mode fr g sr o n s).1, (noiseValues P mode fr g sr o n s).2.setSource src b) := by
  rw [State.setSource, noiseValues_setCore, State.setSource, (noiseValues_onlyDraws P mode fr g sr o n s).core]

variable {src}

theorem envPass_setSource {e : EnvId} (h : src ≠ e.source) (c : Nat) (s : State) :
    envPass P e c (s.setSource src b) = (envPass P e c s).setSource src b := by
  simp only [envPass, State.setSource_core, CoreState.setWork_regs, CoreState.setWork_work, settle_setSource,
    Work.setOf_of_ne _ h.symm]
  exact setSource_comm h b _ _

theorem envLoop_setSource {e : EnvId} (h : src ≠ e.source) (fuel c : Nat) (s : State) :
    envLoop P e fuel c (s.setSource src b) = (envLoop P e fuel c s).setSource src b := by
  induction fuel generalizing c s with
  | zero => rfl
  | succ fuel ih =>
    rw [envLoop, envLoop, envPass_setSource P b h, ih]
    exact (apply_ite (State.setSource src b) _ _ _).symm

theorem envStart_setSource {e : EnvId} (h : src ≠ e.source) (s : State) :
    envStart e (s.setSource src b) = (envStart e s).setSource src b := by
  rw [envStart, envStart, setSource_work_of_ne h.symm]
  exact setSource_comm h b _ s

variable {s : State} (hr : hasRouting s.core.regs src = false)
include hr

theorem envDrive_setSource (e : EnvId) : envDrive P e (s.setSource src b) = (envDrive P e s).setSource src b := by
  have hregs : (s.setSource src b).core.regs = s.core.regs := rfl
  cases he : hasRouting s.core.regs e.source with
  | false => rw [envDrive_of_unrouted P he, envDrive_of_unrouted P (hregs ▸ he)]
  | true =>
    have hne := ne_of_hasRouting hr he
    rw [envDrive_of_routed P e he, envDrive_of_routed P e (hregs ▸ he), envStart_setSource b hne]
    exact envLoop_setSource P b hne _ _ _

theorem lfoDrive_setSource (l : LfoId) : lfoDrive P l (s.setSource src b) = (lfoDrive P l s).setSource src b := by
  unfold lfoDrive
  rw [State.setSource_core, CoreState.setWork_regs]
  split
  · next hl =>
    have hne := ne_of_hasRouting hr hl
    rw [CoreState.setWork_work, Work.setOf_of_ne _ hne.symm, setSource_comm hne]
  · rfl

theorem noiseDrive_setSource : noiseDrive P (s.setSource src b) = (noiseDrive P s).setSource src b := by
  unfold noiseDrive
  rw [State.setSource_core, CoreState.setWork_regs]
  split
  · next hn =>
    have hne := ne_of_hasRouting hr hn
    simp only [CoreState.setWork_work, Work.setOf_of_ne _ hne.symm, noiseValues_setSource]
    exact setSource_comm hne b _ _
  · rfl

theorem drivers_setSource : drivers P (s.setSource src b) = (drivers P s).setSource src b := by
  have henv0 := (envDrive_keepsUnrouted P .env0 s).regs.symm ▸ hr
  have henv1 := (envDrive_keepsUnrouted P .env1 _).regs.symm ▸ henv0
  have hlfo0 := (lfoDrive_keepsUnrouted P .lfo0 _).regs.symm ▸ henv1
  have hlfo1 := (lfoDrive_keepsUnrouted P .lfo1 _).regs.symm ▸ hlfo0
  rw [drivers, envDrive_setSource P b hr, envDrive_setSource P b henv0, lfoDrive_setSource P b henv1,
    lfoDrive_setSource P b hlfo0, noiseDrive_setSource P b hlfo1]
  rfl

end Drivers

/-! ## The later stages and the buffer of an unrouted source -/

/-- The instance with other contents of a source's working buffer. -/
def swapBuffer (src : Source) (b : List F64) (c : CoreState) : CoreState := c.setWork (c.work.setOf src b)

theorem setSource_eq_onCore (src : Source) (b : List F64) : State.setSource src b = State.onCore (swapBuffer src b) :=
  rfl

section Swap

variable (P : Params) {src : Source} (b : List F64)

theorem swapBuffer_readsAs (c : CoreState) (h : hasRouting c.regs src = false) :
    ReadsAs P c (swapBuffer src b c) where
  bufferBase := rfl
  frames := rfl
  addr _ _ := rfl
  time _ := rfl
  sampleRate := rfl
  osc _ := rfl
  pitchTuning := rfl
  keyDistance := rfl
  volume := rfl
  routes := rfl
  sourceAt src' dst i hr := by
    have hne : src' ≠ src := (ne_of_hasRouting h (hasRouting_of_routes hr)).symm
    rw [CoreState.sourceAt, swapBuffer, CoreState.setWork_work, Work.setOf_of_ne _ hne, CoreState.sourceAt]
  pitch := Work.setOf_pitch _ src b
  phaseAcc := rfl
  inFlight := rfl

theorem swapBuffer_unread : Unread P (hasRouting · src = false) (swapBuffer src b) where
  reads := swapBuffer_readsAs P b
  setPhaseAcc _ _ := rfl
  setInFlight _ _ := rfl
  afterPitchFrame _ _ _ _ := by cases src <;> rfl

end Swap

/-! ## What a routed driver writes -/

theorem fillEntries_getElem?_of_lt {new : List F64} {i : Nat} (h : i < new.length) (old : List F64) :
    (fillEntries new old)[i]? = new[i]? := List.getElem?_append_left h

section Routed

variable {P : Params} {s : State}

theorem lfoDrive_of_unrouted {l : LfoId} (h : hasRouting s.core.regs l.source = false) : lfoDrive P l s = s :=
  if_neg (Bool.eq_false_iff.1 h)

theorem noiseDrive_of_unrouted (h : hasRouting s.core.regs .noise = false) : noiseDrive P s = s :=
  if_neg (Bool.eq_false_iff.1 h)

theorem lfoDrive_work {l : LfoId} (h : hasRouting s.core.regs l.source = true) :
    (lfoDrive P l s).core.work.of l.source = fillEntries (lfoValues P l s.core.regs) (s.core.work.of l.source) := by
  rw [lfoDrive, if_pos h, State.setSource_core, CoreState.setWork_work, Work.setOf_of_same]

/-- The noise buffer holds the next free values in the order drawn (R154). -/
theorem noiseDrive_work (h : hasRouting s.core.regs .noise = true) :
    (noiseDrive P s).core.work.of .noise =
      fillEntries ((List.range s.core.frames).map fun i => P.free (s.draws + i)) (s.core.work.of .noise) := by
  rw [noiseDrive, if_pos h, State.setSource_core, CoreState.setWork_work, Work.setOf_of_same, noiseValues_fst]

theorem noiseDrive_draws (h : hasRouting s.core.regs .noise = true) :
    (noiseDrive P s).draws = s.draws + s.core.frames := by
  rw [noiseDrive, if_pos h, State.setSource_draws, noiseValues_draws]

end Routed

end Sys2Proof.Machine

namespace Sys2Proof
open Machine

/-- Settles O32: a source without routing is not driven, the drivers of the others write other buffers, and the later
stages read the samples of routed sources alone. -/
theorem unroutedSourcesAreNotDriven : Obligations.UnroutedSourcesAreNotDriven := by
  refine ⟨fun P s l h => lfoDrive_of_unrouted h, fun P s h => noiseDrive_of_unrouted h, fun i s src b hr => ?_⟩
  rw [setSource_eq_onCore]
  exact exec_onCore (swapBuffer_unread Config.params b) i hr fun u hu => drivers_setSource Config.params b hu

/-- Settles O36: frame `i` is the `i`-th entry a driver writes. -/
theorem driversFillTheirBuffers : Obligations.DriversFillTheirBuffers := by
  intro P s i hi
  have hframe : (List.range s.core.frames)[i]? = some i := List.getElem?_range hi
  refine ⟨fun l hr => ?_, fun hr => ⟨?_, noiseDrive_draws hr⟩⟩
  · rw [lfoDrive_work hr, fillEntries_getElem?_of_lt (by rwa [lfoValues_length]), lfoValues, List.getElem?_map]
    exact congrArg (Option.map _) hframe
  · rw [noiseDrive_work hr, fillEntries_getElem?_of_lt (by simpa using hi), List.getElem?_map]
    exact congrArg (Option.map _) hframe

end Sys2Proof
end

section
/-! The oscillators (O38 to O44): the bends, the frequency clamp, the position in the period and the waves of it, and
what Accumulate adds to an element. -/

namespace Sys2Proof.Machine.Fp

/-! ## Comparisons -/

section Compare

variable {x y : F64}

theorem lt_iff : lt x y = true ↔ isNaN x = false ∧ isNaN y = false ∧ units x < units y := by
  simp only [lt, Bool.and_eq_true, Bool.not_eq_true', decide_eq_true_eq, and_assoc]

theorem le_iff : le x y = true ↔ isNaN x = false ∧ isNaN y = false ∧ units x ≤ units y := by
  simp only [le, Bool.and_eq_true, Bool.not_eq_true', decide_eq_true_eq, and_assoc]

theorem lt_of_isNaN_left (h : isNaN x = true) : lt x y = false := by
  rw [lt, h, Bool.not_true, Bool.false_and, Bool.false_and]

theorem le_of_isNaN_right (h : isNaN y = true) : le x y = false := by
  rw [le, h, Bool.not_true, Bool.and_false, Bool.false_and]

/-- Of two numbers one is below the other or the other is not above it. -/
theorem lt_eq_false_iff (hx : isNaN x = false) (hy : isNaN y = false) : lt x y = false ↔ le y x = true := by
  rw [Bool.eq_false_iff, ne_eq, lt_iff, le_iff]
  simp only [hx, hy, true_and, Int.not_lt]

theorem units_nonneg_iff : 0 ≤ units x ↔ neg x = false ∨ mag x = 0 := by
  unfold units
  cases neg x <;> simp

theorem units_of_nonneg (h : 0 ≤ units x) : units x = mag x := by
  rw [← units_natAbs x]; omega

theorem units_zero : units zero = 0 := by decide

/-- The patterns above that of +0.0 up to that of the infinity are those of the positive values. -/
theorem zero_lt_of_toNat (h0 : 0 < x.toNat) (h : x.toNat ≤ infMag) : lt zero x = true := by
  have hself : x = pack false x.toNat := by
    apply BitVec.eq_of_toNat_eq
    rw [toNat_pack, Nat.min_eq_left h, if_neg Bool.false_ne_true, Nat.add_zero]
  have hneg : neg x = false := by rw [hself, neg_pack]
  have hmag : mag x ≠ 0 := by
    unfold infMag at h
    unfold mag
    split
    · next he =>
      unfold expField at he
      unfold fracField
      omega
    · exact Nat.mul_ne_zero (by omega) (Nat.two_pow_pos _).ne'
  have hpos : 0 < units x := by
    have := units_of_nonneg (units_nonneg_iff.2 (.inl hneg))
    omega
  exact lt_iff.2 ⟨by decide, by rw [hself, isNaN_pack], hpos⟩

end Compare

/-! ## Operations on finite operands -/

section Finite

variable {x y : F64} (hx : isFinite x = true) (hy : isFinite y = true)
include hx hy

theorem add_of_finite : add x y = roundUnits (neg x && neg y) (units x + units y) 1 := by
  simp only [add, isNaN_of_finite hx, isNaN_of_finite hy, isInf_of_finite hx, isInf_of_finite hy, Bool.or_false,
    Bool.false_eq_true, if_false]

theorem fmod_of_finite (h0 : mag y ≠ 0) : fmod x y = pack (neg x) (roundMag 52 (mag x % mag y) 1) := by
  simp only [fmod, isNaN_of_finite hx, isNaN_of_finite hy, isInf_of_finite hx, isInf_of_finite hy, Bool.or_false,
    beq_eq_false_iff_ne.2 h0, Bool.false_eq_true, if_false]

theorem div_of_finite (h0 : mag y ≠ 0) :
    div x y = pack (neg x != neg y) (roundMag 52 (mag x * 2 ^ 1074) (mag y)) := by
  simp only [div, isNaN_of_finite hx, isNaN_of_finite hy, isInf_of_finite hx, isInf_of_finite hy, Bool.or_false,
    Bool.false_eq_true, if_false, h0]

end Finite

/-! ## Values between zero and a magnitude -/

/-- `y` is a finite value between a zero and the magnitude of `x`. -/
structure UpTo (x y : F64) : Prop where
  finite : isFinite y = true
  nonneg : 0 ≤ units y
  mag_le : mag y ≤ mag x

section Bounds

variable {x y : F64}

theorem roundMag_lt_infMag_of_le (hx : isFinite x = true) {num den : Nat} (hd : 0 < den) (h : num ≤ mag x * den) :
    roundMag 52 num den < infMag := by
  have hself : roundMag 52 (mag x * den) den < infMag :=
    (isFinite_pack_iff (neg x) _).1 (by rwa [pack_roundMag_mag x hx den hd])
  rw [← Nat.not_le, infMag_le_roundMag _ hd] at hself ⊢
  omega

/-- What is rounded is at most any finite value that the exact value is at most: that value is no farther from it. -/
theorem mag_pack_roundMag_le (s : Bool) (hx : isFinite x = true) {num den : Nat} (hd : 0 < den)
    (h : num ≤ mag x * den) : mag (pack s (roundMag 52 num den)) ≤ mag x := by
  rw [mag_pack_roundMag s (roundMag_lt_infMag_of_le hx hd h)]
  have hnear := (rounded_nearest x num hd).1
  by_contra hgt
  have hlt := Nat.mul_lt_mul_of_pos_right (Nat.not_le.1 hgt) hd
  unfold error at hnear
  omega

theorem isFinite_pack_roundMag (s : Bool) (hx : isFinite x = true) {num den : Nat} (hd : 0 < den)
    (h : num ≤ mag x * den) : isFinite (pack s (roundMag 52 num den)) = true :=
  isFinite_pack s (roundMag_lt_infMag_of_le hx hd h)

theorem roundUnits_upTo (z : Bool) (hx : isFinite x = true) {v : Int} (h0 : 0 ≤ v) (h : v ≤ mag x) :
    UpTo x (roundUnits z v 1) := by
  unfold roundUnits
  split
  · exact ⟨isFinite_pack_zero z, units_nonneg_iff.2 (.inr (mag_pack_zero z)), (mag_pack_zero z).le.trans (Nat.zero_le _)⟩
  · have hle : v.natAbs ≤ mag x * 1 := by omega
    have hneg : neg (pack (v < 0) (roundMag 52 v.natAbs 1)) = false := by
      rw [neg_pack, decide_eq_false_iff_not]; omega
    exact ⟨isFinite_pack_roundMag _ hx Nat.one_pos hle, units_nonneg_iff.2 (.inl hneg),
      mag_pack_roundMag_le _ hx Nat.one_pos hle⟩

/-- `x + y` of a value `x` below zero and no farther from it than a positive `y`. -/
theorem add_upTo (hx : isFinite x = true) (hy : isFinite y = true) (hneg : units x ≤ 0) (hpos : 0 ≤ units y)
    (h : mag x ≤ mag y) : UpTo y (add x y) := by
  have hxu := units_natAbs x
  have hyu := units_of_nonneg hpos
  rw [add_of_finite hx hy]
  exact roundUnits_upTo _ hy (by omega) (by omega)

theorem fmod_finite (hx : isFinite x = true) (hy : isFinite y = true) (h0 : mag y ≠ 0) :
    isFinite (fmod x y) = true ∧ mag (fmod x y) ≤ mag y := by
  have hle : mag x % mag y ≤ mag y * 1 := by
    rw [Nat.mul_one]
    exact Nat.le_of_lt (Nat.mod_lt _ (Nat.pos_of_ne_zero h0))
  rw [fmod_of_finite hx hy h0]
  exact ⟨isFinite_pack_roundMag _ hy Nat.one_pos hle, mag_pack_roundMag_le _ hy Nat.one_pos hle⟩

/-- A quotient of a value between zero and the divisor is between zero and 1.0. -/
theorem div_upTo_one (h : UpTo y x) (hy : isFinite y = true) (hpos : 0 < units y) : UpTo one (div x y) := by
  have hyu := units_of_nonneg (Int.le_of_lt hpos)
  have h0 : 0 < mag y := by omega
  have hyneg : neg y = false := (units_nonneg_iff.1 (Int.le_of_lt hpos)).resolve_right (by omega)
  have hle : mag x * 2 ^ 1074 ≤ mag one * mag y := by
    rw [mag_one, Nat.mul_comm]
    exact Nat.mul_le_mul_left _ h.mag_le
  rw [div_of_finite h.finite hy (Nat.ne_of_gt h0), hyneg, Bool.bne_false]
  refine ⟨isFinite_pack_roundMag _ isFinite_one h0 hle, ?_, mag_pack_roundMag_le _ isFinite_one h0 hle⟩
  rw [units_nonneg_iff, neg_pack]
  refine (units_nonneg_iff.1 h.nonneg).imp_right fun hx => Nat.le_zero.1 ?_
  rw [hx, Nat.zero_mul]
  exact mag_pack_roundMag_le (x := zero) _ (by decide) h0 (Nat.zero_le _)

end Bounds

end Sys2Proof.Machine.Fp

namespace Sys2Proof.Machine

/-! ## The position in the period -/

/-- The time in the period is between zero and the period, though a sum with the period may round up to it (R167). -/
theorem timeInPeriod_upTo {tp period : F64} (ht : Fp.isFinite tp = true) (hp : Fp.isFinite period = true)
    (hpos : 0 < Fp.units period) :
    Fp.UpTo period (if Fp.lt (Fp.fmod tp period) Fp.zero then Fp.add (Fp.fmod tp period) period
      else Fp.fmod tp period) := by
  have hmag := Fp.units_of_nonneg (Int.le_of_lt hpos)
  obtain ⟨hfin, hle⟩ := Fp.fmod_finite ht hp (by omega)
  split
  · next h =>
    have hneg := (Fp.lt_iff.1 h).2.2
    rw [Fp.units_zero] at hneg
    exact Fp.add_upTo hfin hp (Int.le_of_lt hneg) (Int.le_of_lt hpos) hle
  · next h =>
    have hnonneg := (Fp.le_iff.1 ((Fp.lt_eq_false_iff (Fp.isNaN_of_finite hfin) (by decide)).1
      (Bool.eq_false_iff.2 h))).2.2
    rw [Fp.units_zero] at hnonneg
    exact ⟨hfin, hnonneg, hle⟩

theorem periodPosition_upTo_one {f tp sr : F64} (ht : Fp.isFinite tp = true)
    (hp : Fp.isFinite (Fp.div sr f) = true) (hpos : 0 < Fp.units (Fp.div sr f)) :
    Fp.UpTo Fp.one (periodPosition f tp sr) :=
  Fp.div_upTo_one (timeInPeriod_upTo ht hp hpos) hp hpos

/-! ## The frequency clamp -/

section Clamp

variable {P : Params} {f : F64}

theorem clampFreq_of_lt (h : Fp.lt f P.freqEpsilon = true) : clampFreq P f = P.freqEpsilon := if_pos h

theorem clampFreq_of_not_lt (h : Fp.lt f P.freqEpsilon = false) : clampFreq P f = f := if_neg (Bool.eq_false_iff.1 h)

theorem clampFreq_of_le (h : Fp.le P.freqEpsilon f = true) : clampFreq P f = f := by
  obtain ⟨heps, hf, _⟩ := Fp.le_iff.1 h
  exact clampFreq_of_not_lt ((Fp.lt_eq_false_iff hf heps).2 h)

theorem le_clampFreq (heps : Fp.isNaN P.freqEpsilon = false) (hf : Fp.isNaN f = false) :
    Fp.le P.freqEpsilon (clampFreq P f) = true := by
  cases h : Fp.lt f P.freqEpsilon with
  | true => rw [clampFreq_of_lt h]; exact Fp.le_iff.2 ⟨heps, heps, Int.le_refl _⟩
  | false => rw [clampFreq_of_not_lt h]; exact (Fp.lt_eq_false_iff hf heps).1 h

/-- A negative number is raised to FREQ_EPSILON, which is positive (R163). -/
theorem clampFreq_of_neg (hf : Fp.lt f Fp.zero = true) (heps : Fp.lt Fp.zero P.freqEpsilon = true) :
    clampFreq P f = P.freqEpsilon := by
  obtain ⟨hnum, _, hneg⟩ := Fp.lt_iff.1 hf
  obtain ⟨_, hepsNum, hpos⟩ := Fp.lt_iff.1 heps
  exact clampFreq_of_lt (Fp.lt_iff.2 ⟨hnum, hepsNum, Int.lt_trans hneg hpos⟩)

end Clamp

theorem zero_lt_freqEpsilon : Fp.lt Fp.zero Config.freqEpsilon = true := by
  unfold Config.freqEpsilon
  split
  · next h => exact Fp.zero_lt_of_toNat h.1 h.2
  · exact Fp.zero_lt_of_toNat (by decide) (by decide)

/-! ## Accumulate -/

/-- The later of two stores of one run stands. -/
theorem writeLE_writeLE {n : Nat} (hn : n ≤ 2 ^ 64) (a : Addr) (v w : Nat) {m : List Host.Cell} (h : Memory.wf m) :
    writeLE a n v (writeLE a n w m) = writeLE a n v m := by
  refine memory_ext (writeLE_wf n a v (writeLE_wf n a w h)) (writeLE_wf n a v h) fun b => ?_
  by_cases hb : ∃ j < n, b = a + BitVec.ofNat 64 j
  · obtain ⟨j, hj, rfl⟩ := hb
    rw [readByte_writeLE_inside hn a v _ hj, readByte_writeLE_inside hn a v _ hj]
  · have hout : inRun a n b = false := inRun_eq_false hn fun j hj he => hb ⟨j, hj, he⟩
    simp only [readByte_writeLE_outside n hn a b _ _ hout]

theorem storeBits_storeBits {n : Nat} (h64 : n ≤ 64) (F : Format) (i : Nat) (v w : BitVec n) {s : State}
    (h : Memory.wf s.mem) : storeBits F i v (storeBits F i w s) = storeBits F i v s :=
  congrArg s.setMem (writeLE_writeLE (by omega) _ _ _ h)

section Integer

variable (P : Params) {n : Nat} {F : Format} (i : Nat) {a b : F64}

theorem intWidth_bytes (h : intWidth F = some n) : n % 8 = 0 ∧ n ≤ 64 := by
  cases F <;> cases h <;> decide

theorem accumulate_of_intWidth (h : intWidth F = some n) (a : F64) (s : State) :
    accumulate P F i a s = accumulateInt P n F i a s := by
  cases F <;> cases h <;> rfl

/-- The addend of an integer element is truncated first, and its sum with the old value wraps (R222). -/
theorem accumulate_of_finite (h : intWidth F = some n) (ha : Fp.isFinite a = true) (s : State) :
    accumulate P F i a s = storeBits F i (loadBits n F i s + BitVec.ofInt n (Fp.trunc a)) s := by
  rw [accumulate_of_intWidth P i h, accumulateInt, convInt_of_finite P ha]

theorem loadBits_accumulate (h : intWidth F = some n) (ha : Fp.isFinite a = true) (s : State) :
    loadBits n F i (accumulate P F i a s) = loadBits n F i s + BitVec.ofInt n (Fp.trunc a) := by
  obtain ⟨h8, h64⟩ := intWidth_bytes h
  rw [accumulate_of_finite P i h ha, loadBits_storeBits h8 h64]

theorem accumulate_accumulate (h : intWidth F = some n) (ha : Fp.isFinite a = true) (hb : Fp.isFinite b = true)
    {s : State} (hm : Memory.wf s.mem) :
    accumulate P F i b (accumulate P F i a s) =
      storeBits F i (loadBits n F i s + BitVec.ofInt n (Fp.trunc a) + BitVec.ofInt n (Fp.trunc b)) s := by
  rw [accumulate_of_finite P i h hb, loadBits_accumulate P i h ha, accumulate_of_finite P i h ha,
    storeBits_storeBits (intWidth_bytes h).2 F i _ _ hm]

theorem accumulate_comm (h : intWidth F = some n) (ha : Fp.isFinite a = true) (hb : Fp.isFinite b = true)
    {s : State} (hm : Memory.wf s.mem) :
    accumulate P F i b (accumulate P F i a s) = accumulate P F i a (accumulate P F i b s) := by
  rw [accumulate_accumulate P i h ha hb hm, accumulate_accumulate P i h hb ha hm, add_right_comm]

end Integer

section Real

variable (P : Params) (i : Nat) (a : F64) (s : State)

theorem loadBits_accumulate_float :
    loadBits 32 .float i (accumulate P .float i a s) =
      (settle32 P (Fp.add32 (loadBits 32 .float i s) (Fp.toF32 a)) s).1 :=
  loadBits_storeBits (by decide) (by decide) _ i _ _

theorem loadBits_accumulateReal (F : Format) :
    loadBits 64 F i (accumulateReal P F i a s) = (settle P (Fp.add (loadBits 64 F i s) a) s).1 :=
  loadBits_storeBits (by decide) (by decide) F i _ _

end Real

/-! ## The bends -/

section Bend

variable (P : Params) (i : Nat) (c : CoreState) (b : Bent) {src : Source}

theorem bend_freq_of_routes {k : OscId} (h : routes c.regs src k.frequencyDest = true) :
    (bend P k i c b src).freq = bendFreq k src (c.sourceAt P src i) b.freq := if_pos h

theorem bend_phase_of_routes {k : OscId} (h : routes c.regs src k.phaseDest = true) :
    (bend P k i c b src).phase = bendPhase src (c.sourceAt P src i) b.phase := if_pos h

theorem bend_vol_of_routes {k : OscId} (h : routes c.regs src k.volumeDest = true) :
    (bend P k i c b src).vol = bendGain src (c.sourceAt P src i) b.vol := if_pos h

/-- An envelope's bend: the sample itself, or OSC1's frequency by its bipolar remap (R161, R162). -/
theorem bend_of_isEnv (k : OscId) (h : src.isEnv = true) :
    let x := c.sourceAt P src i
    bend P k i c b src =
      ⟨if routes c.regs src k.frequencyDest then Fp.mul b.freq (if k = .osc0 then x else bipolar x) else b.freq,
        if routes c.regs src k.phaseDest then Fp.add b.phase (Fp.mul x Fp.twoPi) else b.phase,
        if routes c.regs src k.volumeDest then Fp.mul b.vol x else b.vol⟩ := by
  cases k <;> simp only [bend, bendFreq, bendPhase, bendGain, h, reduceCtorEq, if_true, if_false]

/-- The bend of an LFO or of the noise source: the unipolar remap of the sample (R161). -/
theorem bend_of_not_isEnv (k : OscId) (h : src.isEnv = false) :
    let x := c.sourceAt P src i
    bend P k i c b src =
      ⟨if routes c.regs src k.frequencyDest then Fp.mul b.freq (unipolar x) else b.freq,
        if routes c.regs src k.phaseDest then Fp.add b.phase (Fp.mul (Fp.add x Fp.one) Fp.pi) else b.phase,
        if routes c.regs src k.volumeDest then Fp.mul b.vol (unipolar x) else b.vol⟩ := by
  simp only [bend, bendFreq, bendPhase, bendGain, h, Bool.false_eq_true, if_false]

end Bend

/-! ## The waves of the sine -/

theorem atThreshold_of_isNaN {x : F64} (h : Fp.isNaN x = true) (threshold : F64) :
    atThreshold x threshold = Fp.negOne := by
  rw [atThreshold, Fp.le_of_isNaN_right h, if_neg Bool.false_ne_true]

theorem atThreshold_zero {x : F64} (h : x = Fp.zero ∨ x = Fp.negZero) : atThreshold x Fp.zero = Fp.one := by
  have hle : Fp.le Fp.zero x = true := by rcases h with rfl | rfl <;> decide
  rw [atThreshold, if_pos hle]

end Sys2Proof.Machine

namespace Sys2Proof
open Machine

/-- Settles O43: the time in the period is between zero and the period, and rounding keeps a quotient between the
values that bound the exact one. -/
theorem periodPositionIsWithinZeroAndOne : Obligations.PeriodPositionIsWithinZeroAndOne := by
  intro f tp sr ht hp hlt
  have hpos := (Fp.lt_iff.1 hlt).2.2
  rw [Fp.units_zero] at hpos
  have h := periodPosition_upTo_one ht hp hpos
  have hnum := Fp.isNaN_of_finite h.finite
  have hone : Fp.units Fp.one = Fp.mag Fp.one := Fp.units_of_nonneg (Fp.units_nonneg_iff.2 (.inl Fp.neg_one))
  refine ⟨Fp.le_iff.2 ⟨by decide, hnum, Fp.units_zero ▸ h.nonneg⟩, Fp.le_iff.2 ⟨hnum, by decide, ?_⟩⟩
  rw [hone, Fp.units_of_nonneg h.nonneg]
  exact Int.ofNat_le.2 h.mag_le

/-- Settles O40: the clamp by the one comparison it makes, and OscRender's frames as they are defined. -/
theorem oscRenderClampsTheFrequencyOfEachFrame : Obligations.OscRenderClampsTheFrequencyOfEachFrame := by
  refine ⟨zero_lt_freqEpsilon, fun P f heps => ⟨fun hnan => ?_, clampFreq_of_lt, clampFreq_of_le, le_clampFreq heps⟩,
    fun P k F s i => ?_, fun _ _ _ _ => rfl⟩
  · exact clampFreq_of_not_lt (Fp.lt_of_isNaN_left hnan)
  · cases k <;> rfl

/-- Settles O44: what each encoding's element reads after the store, and the law of the bytes outside the access. -/
theorem accumulateAddsToTheElement : Obligations.AccumulateAddsToTheElement := by
  intro P F i a b s
  refine ⟨fun n hn ha => ⟨loadBits_accumulate P i hn ha s, fun hb hm => accumulate_comm P i hn ha hb hm⟩, ?_, ?_,
    accumulate_outside P F i a s⟩
  · rintro rfl
    rw [loadBits_accumulate_float]
    exact settled32_settle32 P _ s
  · have hreal : Settled (Fp.add (loadBits 64 F i s) a) (loadBits 64 F i (accumulateReal P F i a s)) := by
      rw [loadBits_accumulateReal]
      exact settled_settle P _ s
    rintro (rfl | rfl)
    · exact hreal
    · exact hreal

/-- Settles O38: the examples evaluate, and the clamp of a negative frequency is FREQ_EPSILON, whatever it is. -/
theorem bendExamples : Obligations.BendExamples := by
  refine ⟨?_, ?_, ?_, ?_, fun P heps => clampFreq_of_neg ?_ heps, ?_, ?_, ?_⟩
  all_goals decide +kernel

/-- Settles O39: the fold over the sources written out, with each bend's factor or term by the kind of source. -/
theorem bendsFollowTheRouting : Obligations.BendsFollowTheRouting := by
  intro P i c
  refine ⟨?_, fun b src henv => ⟨fun h => ?_, fun h => ?_, fun h0 h1 => ?_, fun h0 h1 => ?_⟩⟩
  · intro k d toFrequency toPhase toVolume w byEnv byWave
    have hosc : c.regs.osc k = d := by cases k <;> rfl
    have henv (src : Source) (b : Bent) (h : src.isEnv = true) : bend P k i c b src = byEnv src b := by
      rw [bend_of_isEnv P i c b k h]
      cases k <;> rfl
    have hwave (src : Source) (b : Bent) (h : src.isEnv = false) : bend P k i c b src = byWave src b := by
      rw [bend_of_not_isEnv P i c b k h]
      cases k <;> rfl
    rw [bendAll_eq, hosc, henv .env0 _ rfl, henv .env1 _ rfl, hwave .lfo0 _ rfl, hwave .lfo1 _ rfl, hwave .noise _ rfl]
  · rw [bend_freq_of_routes P i c b h, bendFreq, if_pos henv]
  · rw [bend_freq_of_routes P i c b h, bendFreq, if_pos henv, bipolar]
  · rw [bend_phase_of_routes P i c b h0, bend_phase_of_routes P i c b h1]
  · rw [bend_vol_of_routes P i c b h0, bend_vol_of_routes P i c b h1]

/-- Settles O41: the formulas are the definitions', and the examples evaluate. -/
theorem sawtoothAndTriangle : Obligations.SawtoothAndTriangle := by
  refine ⟨fun P f tp sr s => ⟨rfl, rfl⟩, ?_, ?_⟩
  all_goals decide +kernel

/-- Settles O42: the three waves take SIN of one settled argument, and a wave draws at most the payload of that. -/
theorem sineSquareAndPulse : Obligations.SineSquareAndPulse := by
  refine ⟨rfl, fun P f tp sr s => ⟨⟨(settle P (sineArg f tp sr) s).1, settled_settle P _ s, rfl, rfl, rfl,
    fun hnan => ⟨atThreshold_of_isNaN hnan _, atThreshold_of_isNaN hnan _⟩, atThreshold_zero⟩, fun kind => ?_⟩⟩
  have hdraws := wave_onlyDraws P kind f tp sr s
  exact ⟨hdraws.eq, hdraws.draws⟩

end Sys2Proof
end

section
/-! The pitch stage (O54, O55, O56). A ratio becomes an increment, an output frame reads at the phase on entry and then
advances it, and at ratio 1.0 every frame reads its own element and the copy-back stores it again. -/

namespace Sys2Proof.Machine.Fp

/-! ## Numbers, and zeros added to them -/

section

variable {x y z : F64}

theorem isInf_or_finite (h : isNaN x = false) : isInf x = true ∨ isFinite x = true := by
  cases hi : isInf x with
  | true => exact .inl rfl
  | false => exact .inr (finite_of_not h hi)

theorem isNaN_roundUnits (s : Bool) (v : Int) (den : Nat) : isNaN (roundUnits s v den) = false := by
  unfold roundUnits
  split
  · exact isNaN_pack _ _
  · exact isNaN_pack _ _

theorem isNaN_add_of_finite (hx : isFinite x = true) (hy : isFinite y = true) : isNaN (add x y) = false := by
  rw [add_of_finite hx hy]
  exact isNaN_roundUnits _ _ _

theorem isNaN_div_of_finite (hx : isNaN x = false) (hy : isFinite y = true) (h0 : mag y ≠ 0) :
    isNaN (div x y) = false := by
  rcases isInf_or_finite hx with hinf | hfin
  · simp only [div, hx, hinf, isNaN_of_finite hy, isInf_of_finite hy, Bool.or_false, Bool.false_eq_true, if_false,
      if_true]
    exact isNaN_pack _ _
  · rw [div_of_finite hfin hy h0]
    exact isNaN_pack _ _

/-- A finite zero that is not −0.0 is +0.0. -/
theorem eq_zero_of_ne_negZero (h : isFinite x = true) (h0 : mag x = 0) (hneg : x ≠ negZero) : x = zero := by
  have hx := eq_zero_of_mag h h0
  cases hs : neg x with
  | true => exact absurd (by rw [hx, hs]; rfl) hneg
  | false => rw [hx, hs]; rfl

/-- A zero of either sign added to a number other than −0.0 changes nothing. -/
theorem add_zero_of_ne_negZero (h : isNaN x = false) (hneg : x ≠ negZero) (hz : isFinite z = true) (hm : mag z = 0) :
    add x z = x := by
  rcases isInf_or_finite h with hinf | hfin
  · simp only [add, h, hinf, isNaN_of_finite hz, isInf_of_finite hz, Bool.or_false, Bool.false_and,
      Bool.false_eq_true, if_false, if_true]
  · by_cases h0 : mag x = 0
    · rw [eq_zero_of_ne_negZero hfin h0 hneg, eq_zero_of_mag hz hm]
      cases neg z <;> decide
    · exact add_zero_right hfin h0 hz hm

theorem zero_add_of_ne_negZero (hx : isFinite x = true) (hneg : x ≠ negZero) (hz : isFinite z = true)
    (hm : mag z = 0) : add z x = x := by
  by_cases h0 : mag x = 0
  · rw [eq_zero_of_ne_negZero hx h0 hneg, eq_zero_of_mag hz hm]
    cases neg z <;> decide
  · exact add_zero_left hx h0 hz hm

end

/-- A whole number of units, other than zero, does not round to zero. -/
theorem roundMag_one_ne_zero (frac : Nat) {n : Nat} (h : n ≠ 0) : roundMag frac n 1 ≠ 0 := by
  intro hr
  rw [roundMag_eq] at hr
  obtain ⟨he, hq⟩ := Nat.add_eq_zero_iff.1 hr
  have he0 : roundExp frac n 1 = 0 := (Nat.mul_eq_zero.1 he).resolve_right (Nat.two_pow_pos _).ne'
  rw [he0] at hq
  have := (roundHalfEven_bounds n (1 * 2 ^ 0)).1
  omega

/-- Rounding gives −0.0 only for an exact zero whose sign is negative. -/
theorem roundUnits_ne_negZero {s : Bool} {v : Int} (h : v = 0 → s = false) : roundUnits s v 1 ≠ negZero := by
  unfold roundUnits
  split
  · next hv =>
    rw [h hv]
    decide
  · next hv =>
    intro heq
    have hpos := roundMag_one_ne_zero 52 (Int.natAbs_ne_zero.2 hv)
    have hbits := congrArg BitVec.toNat heq
    rw [toNat_pack, show negZero.toNat = 2 ^ 63 from rfl] at hbits
    unfold infMag at hbits
    split at hbits <;> omega

end Sys2Proof.Machine.Fp

namespace Sys2Proof.Machine

/-! ## The increment of a ratio (R194) -/

/-- The ratios whose increment R194 fixes: those in [0, 2^32). -/
structure InFixedRange (ratio : F64) : Prop where
  finite : Fp.isFinite ratio = true
  nonneg : Fp.le Fp.zero ratio = true
  below : Fp.lt ratio (Fp.ofInt (2 ^ 32)) = true

section ToFixed

variable (P : Params) {ratio : F64} (s : State)

theorem ofInt_two_pow_32 : Fp.ofInt (2 ^ 32) = 0x41F0000000000000 := by decide +kernel

/-- The test `ToFixed` makes. -/
theorem inFixedRange_iff :
    InFixedRange ratio ↔ (Fp.isFinite ratio && Fp.le Fp.zero ratio && Fp.lt ratio 0x41F0000000000000) = true := by
  rw [Bool.and_eq_true, Bool.and_eq_true, ← ofInt_two_pow_32]
  exact ⟨fun ⟨hfin, hle, hlt⟩ => ⟨⟨hfin, hle⟩, hlt⟩, fun ⟨⟨hfin, hle⟩, hlt⟩ => ⟨hfin, hle, hlt⟩⟩

theorem toFixed_of_inRange (h : InFixedRange ratio) :
    toFixed P ratio s = (BitVec.ofNat 64 (Fp.mag ratio * 2 ^ 32 / 2 ^ 1074), s) := if_pos (inFixedRange_iff.1 h)

theorem toFixed_of_outside (h : ¬InFixedRange ratio) : toFixed P ratio s = (P.free s.draws, s.drew) :=
  if_neg (inFixedRange_iff.not.1 h)

theorem InFixedRange.units_eq_mag (h : InFixedRange ratio) : Fp.units ratio = Fp.mag ratio := by
  have hnonneg := (Fp.le_iff.1 h.nonneg).2.2
  rw [Fp.units_zero] at hnonneg
  exact Fp.units_of_nonneg hnonneg

/-- A ratio below a bound of `m` units is below it in magnitude. -/
theorem InFixedRange.mag_lt (h : InFixedRange ratio) {bound : F64} {m : Nat} (hb : Fp.units bound = m)
    (hlt : Fp.lt ratio bound = true) : Fp.mag ratio < m := by
  have hunits := (Fp.lt_iff.1 hlt).2.2
  rw [hb, h.units_eq_mag] at hunits
  exact Int.ofNat_lt.1 hunits

/-- floor(ratio × 2^32) fits the 64 bits of INCR. -/
theorem toFixed_toNat (h : InFixedRange ratio) :
    ((toFixed P ratio s).1.toNat : Int) = Fp.units ratio * 2 ^ 32 / 2 ^ 1074 := by
  have hmag : Fp.mag ratio < 2 ^ 32 * 2 ^ 1074 := h.mag_lt (by decide +kernel) h.below
  have hfits : Fp.mag ratio * 2 ^ 32 / 2 ^ 1074 < 2 ^ 64 := by
    rw [Nat.div_lt_iff_lt_mul (Nat.two_pow_pos _)]
    omega
  rw [toFixed_of_inRange P s h, BitVec.toNat_ofNat, Nat.mod_eq_of_lt hfits, h.units_eq_mag, Int.natCast_ediv,
    Int.natCast_mul, Int.natCast_pow, Int.natCast_pow]
  rfl

/-- A ratio below 2^−32 is less than one unit of the increment. -/
theorem toFixed_of_small (h : InFixedRange ratio) (hlt : Fp.lt ratio (Fp.div Fp.one (Fp.ofInt (2 ^ 32))) = true) :
    (toFixed P ratio s).1 = 0 := by
  have hmag : Fp.mag ratio < 2 ^ 1042 := h.mag_lt (by decide +kernel) hlt
  have hzero : Fp.mag ratio * 2 ^ 32 / 2 ^ 1074 = 0 := by
    refine Nat.div_eq_of_lt ?_
    rw [← Fp.two_pow_mul 1042 32 1074 rfl]
    exact Nat.mul_lt_mul_of_pos_right hmag (Nat.two_pow_pos _)
  rw [toFixed_of_inRange P s h, hzero]
  rfl

theorem toFixed_one : toFixed P Fp.one s = (BitVec.ofNat 64 (2 ^ 32), s) := by
  have hin : InFixedRange Fp.one := ⟨by decide, by decide +kernel, by decide +kernel⟩
  rw [toFixed_of_inRange P s hin, Fp.mag_one, Nat.mul_div_cancel_left _ (Nat.two_pow_pos _)]

theorem not_inFixedRange_of_neg (h : Fp.lt ratio Fp.zero = true) : ¬InFixedRange ratio := fun hin => by
  have hneg := (Fp.lt_iff.1 h).2.2
  have hnonneg := (Fp.le_iff.1 hin.nonneg).2.2
  omega

theorem not_inFixedRange_of_le (h : Fp.le (Fp.ofInt (2 ^ 32)) ratio = true) : ¬InFixedRange ratio := fun hin => by
  have habove := (Fp.le_iff.1 h).2.2
  have hbelow := (Fp.lt_iff.1 hin.below).2.2
  omega

end ToFixed

/-! ## One output frame (R190 to R199) -/

theorem phaseIndex_eq (p : BitVec 64) : phaseIndex p = p.toNat / 2 ^ 32 := by
  rw [phaseIndex, BitVec.extractLsb'_toNat, Nat.shiftRight_eq_div_pow]
  omega

theorem phaseRow_eq (p : BitVec 64) : phaseRow p = BitVec.ofNat 8 (p.toNat / 2 ^ 24) := by
  apply BitVec.eq_of_toNat_eq
  rw [phaseRow, BitVec.extractLsb'_toNat, Nat.shiftRight_eq_div_pow, BitVec.toNat_ofNat]

/-- An envelope's contribution to the tuning (R193). -/
theorem tuneBy_of_isEnv {src : Source} (h : src.isEnv = true) (x tun : F64) :
    tuneBy src x tun = Fp.add tun (Fp.mul (Fp.sub (Fp.mul Fp.two x) Fp.one) Fp.twelveHundred) := if_pos h

/-- The contribution of an LFO or of the noise source to the tuning (R193). -/
theorem tuneBy_of_not_isEnv {src : Source} (h : src.isEnv = false) (x tun : F64) :
    tuneBy src x tun = Fp.add tun (Fp.mul (Fp.div (Fp.add x Fp.one) Fp.two) Fp.twelveHundred) :=
  if_neg (Bool.eq_false_iff.1 h)

theorem tuning_of_unrouted (P : Params) {c : CoreState} (h : ∀ src, routes c.regs src .pitchTuning = false) (i : Nat) :
    tuning P i c = c.regs.pitchTuning := by
  rw [tuning_eq]
  simp only [h, Bool.false_eq_true, if_false]

/-- The argument of POW2 in output frame `i`: ((bk − 48.0) + tuning / 100.0) / 12.0 (R194). -/
def frameKey (P : Params) (i : Nat) (c : CoreState) : F64 :=
  Fp.div (Fp.add (keyDistance c.regs) (Fp.div (tuning P i c) Fp.hundred)) Fp.twelve

section Frame

variable (P : Params) (root : F64) (X : List F64) (s : State) (i : Nat)

/-- The increment is that of the bent key's pitch over the root pitch, with the fallback to 1.0 (R194). -/
theorem pitchFrame_incr_eq :
    ∃ e u, Settled (frameKey P i s.core) e ∧ s.draws ≤ u.draws ∧
      (pitchFrame P root X s i).core.incr =
        (toFixed P (ratioFallback (Fp.div (Fp.mul (P.pow2 e) Fp.fourForty) root)) u).1 := by
  rw [pitchFrame_incr]
  exact ⟨_, _, settled_settle P _ s, (keyPitch_onlyDraws P _ s).draws, rfl⟩

/-- The phase advances by this frame's increment (R199). -/
theorem pitchFrame_phaseAcc :
    (pitchFrame P root X s i).core.phaseAcc = s.core.phaseAcc + (pitchFrame P root X s i).core.incr := by
  rw [pitchFrame_eq]
  rfl

/-- The entry of W_PITCH an output frame writes: the weighted sum at the phase on entry (R195, R198). -/
theorem pitchFrame_pitch :
    ∃ v, Settled (interpolate (P.coeff (phaseRow s.core.phaseAcc)) X (phaseIndex s.core.phaseAcc)) v ∧
      (pitchFrame P root X s i).core.work.pitch = putEntry s.core.work.pitch i v := by
  rw [pitchFrame_eq]
  exact ⟨_, settled_settle P _ _, rfl⟩

end Frame

/-! ## The copy-back (R200) -/

/-- Where W_PITCH has an entry for every frame, the copy-back stores these entries: no frame's store changes one. -/
theorem foldl_copyBack (P : Params) (F : Format) (s : State) (l : List Nat)
    (hl : ∀ i ∈ l, i < s.core.work.pitch.length) :
    l.foldl (copyBack P F) s =
      l.foldl (fun t i => storeFromDouble P F i (s.core.work.pitch.getD i Fp.zero) t) s := by
  refine (List.foldl_rel (r := fun t u => t = u ∧ t.core = s.core) ⟨rfl, rfl⟩ fun i hi t u h => ?_).1
  obtain ⟨rfl, hcore⟩ := h
  have hentry : entry P t.core.work.pitch i = s.core.work.pitch.getD i Fp.zero := by
    rw [hcore, entry, List.getD_eq_getElem _ _ (hl i hi), List.getD_eq_getElem _ _ (hl i hi)]
  refine ⟨?_, (copyBack_core P F t i).trans hcore⟩
  rw [copyBack, hentry]

/-! ## Elements as binary64 values and back (R201, R223) -/

section Elements

variable (P : Params) {F : Format} {n : Nat} {i : Nat} {s t : State}

theorem loadAsDouble_of_intWidth (h : intWidth F = some n) :
    loadAsDouble F i s = Fp.ofInt (loadBits n F i s).toInt := by
  cases F <;> cases h <;> rfl

theorem storeFromDouble_of_intWidth (h : intWidth F = some n) (v : F64) :
    storeFromDouble P F i v s = storeInt P n F i v s := by
  cases F <;> cases h <;> rfl

theorem convertsBack_congr (hr : t.core.regs = s.core.regs) (hm : t.mem = s.mem) :
    ConvertsBack F i t ↔ ConvertsBack F i s := by
  cases F <;> simp only [ConvertsBack, loadBits_congr _ _ i hr hm]

/-- An integer element that converts back has at most 53 bits: S64 by its condition, the others by their width. -/
theorem natAbs_le_of_convertsBack (h : intWidth F = some n) (hc : ConvertsBack F i s) :
    (loadBits n F i s).toInt.natAbs ≤ 2 ^ 53 := by
  cases F <;> cases h
  case s64 => exact hc
  all_goals exact (natAbs_toInt_le (by decide) _).trans (by decide)

/-- Storing what was loaded restores the element and draws nothing (R223). -/
theorem storeFromDouble_loadAsDouble (hm : Memory.wf s.mem) (hc : ConvertsBack F i s) :
    storeFromDouble P F i (loadAsDouble F i s) s = s := by
  cases hw : intWidth F with
  | some n =>
    obtain ⟨h8, h64⟩ := intWidth_bytes hw
    have hle := natAbs_le_of_convertsBack hw hc
    rw [storeFromDouble_of_intWidth P hw, loadAsDouble_of_intWidth hw, storeInt,
      convInt_of_finite P (Fp.ofInt_exact _ hle).1, Fp.trunc_ofInt _ hle, BitVec.ofInt_toInt]
    exact storeBits_loadBits h8 h64 F i s hm
  | none =>
    cases F with
    | float =>
      rw [storeFromDouble, loadAsDouble, Fp.toF32_widen _ hc, settle32_of_number P hc]
      exact storeBits_loadBits (by decide) (by decide) _ i s hm
    | double => exact storeBits_loadBits (by decide) (by decide) _ i s hm
    | complex => exact storeBits_loadBits (by decide) (by decide) _ i s hm
    | _ => cases hw

theorem convertsBack_of_steady (h : SteadyElement F i s) : ConvertsBack F i s := by
  cases F
  case s64 => exact h
  case float =>
    obtain ⟨hexp, -⟩ := h
    rw [ConvertsBack, Fp.isNaN32, beq_eq_false_iff_ne.2 hexp, Bool.false_and]
  all_goals trivial

/-- The value of an element that the pitch pass restores is finite and not −0.0. -/
theorem loadAsDouble_of_steady (h : SteadyElement F i s) :
    Fp.isFinite (loadAsDouble F i s) = true ∧ loadAsDouble F i s ≠ Fp.negZero := by
  cases hw : intWidth F with
  | some n =>
    rw [loadAsDouble_of_intWidth hw]
    exact ⟨(Fp.ofInt_exact _ (natAbs_le_of_convertsBack hw (convertsBack_of_steady h))).1,
      Fp.roundUnits_ne_negZero fun _ => rfl⟩
  | none =>
    cases F with
    | float =>
      have hnum : Fp.isNaN32 (loadBits 32 .float i s) = false := convertsBack_of_steady h
      obtain ⟨hexp, hneg⟩ := h
      have hinf : Fp.isInf32 (loadBits 32 .float i s) = false := by
        rw [Fp.isInf32, beq_eq_false_iff_ne.2 hexp, Bool.false_and]
      refine ⟨(Fp.widen_exact _ hnum hinf).1, fun hz => hneg ?_⟩
      have hzero : Fp.toF32 Fp.negZero = 0x80000000 := by decide +kernel
      rw [← Fp.toF32_widen _ hnum, ← hzero]
      exact congrArg Fp.toF32 hz
    | double => exact h
    | complex => exact h
    | _ => cases hw

end Elements

/-! ## The pass at ratio 1.0 (R201) -/

/-- Row 0 of the table gives an element back whose neighbours are finite (A_COEFF_ROW0). -/
theorem interpolate_row0 {X : List F64} (hX : ∀ x ∈ X, Fp.isFinite x = true) {k : Nat} (hk : k < X.length)
    (hneg : X[k] ≠ Fp.negZero) : interpolate ⟨Fp.zero, Fp.one, Fp.zero, Fp.zero⟩ X k = X[k] := by
  have hzero (j : Int) : Fp.isFinite (Fp.mul Fp.zero (neighbour X j)) = true ∧
      Fp.mag (Fp.mul Fp.zero (neighbour X j)) = 0 := by
    have hfin : Fp.isFinite (neighbour X j) = true := by
      rw [neighbour, List.getD_eq_getElem?_getD]
      cases hj : X[clampIndex X.length j]? with
      | none => decide
      | some x => exact hX x (List.mem_of_getElem? hj)
    rw [Fp.mul_zero_finite (by decide) (by decide) hfin]
    exact ⟨Fp.isFinite_pack_zero _, Fp.mag_pack_zero _⟩
  have hself : neighbour X k = X[k] := by
    have hcl : clampIndex X.length k = k := by
      unfold clampIndex
      omega
    rw [neighbour, hcl, List.getD_eq_getElem _ _ hk]
  have hfin := hX _ (List.getElem_mem hk)
  have hnum := Fp.isNaN_of_finite hfin
  rw [interpolate, hself, Fp.mul_one_left _ hnum, Fp.zero_add_of_ne_negZero hfin hneg (hzero _).1 (hzero _).2,
    Fp.add_zero_of_ne_negZero hnum hneg (hzero _).1 (hzero _).2,
    Fp.add_zero_of_ne_negZero hnum hneg (hzero _).1 (hzero _).2]

/-- bk − 48.0 of a finite key is a number, and never −0.0: a difference that is zero is +0.0. -/
theorem keyDistance_of_finite {r : Regs} (h : Fp.isFinite r.pitchBaseKey = true) :
    Fp.isNaN (keyDistance r) = false ∧ keyDistance r ≠ Fp.negZero := by
  have hfin : Fp.isFinite (Fp.negate Fp.fortyEight) = true := by decide
  refine ⟨Fp.isNaN_add_of_finite h hfin, ?_⟩
  rw [keyDistance, Fp.sub, Fp.add_of_finite h hfin]
  refine Fp.roundUnits_ne_negZero fun hdiff => ?_
  have hsub : Fp.units (Fp.negate Fp.fortyEight) < 0 := by decide +kernel
  have hneg : Fp.neg r.pitchBaseKey = false :=
    (Fp.units_nonneg_iff.1 (by omega)).resolve_right (Fp.units_eq_zero.not.1 (by omega))
  rw [hneg, Bool.false_and]

/-- The pitch of a key at a distance that is a number draws nothing. -/
theorem keyPitch_of_number (P : Params) {x : F64} (h : Fp.isNaN x = false) (s : State) :
    keyPitch P x s = (Fp.mul (P.pow2 (Fp.div x Fp.twelve)) Fp.fourForty, s) := by
  rw [keyPitch, pow2Of, settle_of_number P (Fp.isNaN_div_of_finite h (by decide) (by decide +kernel))]

/-- The registers of R201: nothing routed to PITCH_TUNING, PITCH_TUNING +0.0 and a finite base key. -/
structure ZeroTuning (r : Regs) : Prop where
  unrouted : ∀ src, routes r src .pitchTuning = false
  tuning : r.pitchTuning = Fp.zero
  finite : Fp.isFinite r.pitchBaseKey = true

/-- At zero tuning the ratio is the root over itself, and the increment 2^32. -/
theorem frameIncr_of_zeroTuning (P : Params) {s t : State} (hz : ZeroTuning s.core.regs)
    (hfin : Fp.isFinite (keyPitch P (keyDistance s.core.regs) s).1 = true)
    (h0 : Fp.mag (keyPitch P (keyDistance s.core.regs) s).1 ≠ 0) (ht : t.core.regs = s.core.regs) (i : Nat) :
    frameIncr P (keyPitch P (keyDistance s.core.regs) s).1 i t = (BitVec.ofNat 64 (2 ^ 32), t) := by
  obtain ⟨hnum, hneg⟩ := keyDistance_of_finite hz.finite
  have htun : Fp.div (tuning P i t.core) Fp.hundred = Fp.zero := by
    rw [tuning_of_unrouted P (ht ▸ hz.unrouted), ht, hz.tuning]
    decide +kernel
  have hkey : Fp.add (keyDistance s.core.regs) Fp.zero = keyDistance s.core.regs :=
    Fp.add_zero_of_ne_negZero hnum hneg (by decide) (by decide)
  have hone : ratioFallback Fp.one = Fp.one := by decide +kernel
  rw [keyPitch_of_number P hnum] at hfin h0 ⊢
  rw [frameIncr, htun, ht, hkey, keyPitch_of_number P hnum, Fp.div_self_eq_one _ hfin h0, hone, toFixed_one]

/-- State `t` after `n` output frames from `s` at ratio 1.0: the phase is at frame `n`, and W_PITCH holds the first `n`
entries of the snapshot `X`. -/
structure AfterUnityFrames (X : List F64) (s : State) (n : Nat) (t : State) : Prop where
  regs : t.core.regs = s.core.regs
  mem : t.mem = s.mem
  phase : t.core.phaseAcc = BitVec.ofNat 64 (n * 2 ^ 32)
  pitch : t.core.work.pitch.take n = X.take n
  incr : 0 < n → t.core.incr = BitVec.ofNat 64 (2 ^ 32)

section UnityPass

variable {P : Params} {root : F64} {X : List F64} {s t : State} {i : Nat} (hrow : P.CoeffRow0)
  (hX : ∀ x ∈ X, Fp.isFinite x = true ∧ x ≠ Fp.negZero) (hlen : X.length ≤ 2 ^ 32)
include hrow hX hlen

/-- At the phase i × 2^32 and with the increment 2^32, output frame `i` takes over the entry `i` of the snapshot. -/
theorem pitchFrame_of_unity (hi : i < X.length) (hincr : frameIncr P root i t = (BitVec.ofNat 64 (2 ^ 32), t))
    (hphase : t.core.phaseAcc = BitVec.ofNat 64 (i * 2 ^ 32)) :
    pitchFrame P root X t i =
      (t.setTableLock none).setCore (afterPitchFrame i (BitVec.ofNat 64 (2 ^ 32)) X[i] t.core) := by
  have hnat : t.core.phaseAcc.toNat = i * 2 ^ 32 := by
    rw [hphase, BitVec.toNat_ofNat]
    omega
  have hindex : phaseIndex t.core.phaseAcc = i := by
    rw [phaseIndex_eq, hnat]
    omega
  have hzero : phaseRow t.core.phaseAcc = 0 := by
    rw [phaseRow_eq, hnat]
    bv_omega
  obtain ⟨hfin, hneg⟩ := hX _ (List.getElem_mem hi)
  have hvalue : interpolate (P.coeff (phaseRow t.core.phaseAcc)) X (phaseIndex t.core.phaseAcc) = X[i] := by
    rw [hindex, hzero, hrow]
    exact interpolate_row0 (fun x hx => (hX x hx).1) hi hneg
  rw [pitchFrame_eq, hincr, hvalue, settle_of_number P (Fp.isNaN_of_finite hfin)]

theorem AfterUnityFrames.pitchFrame (hi : i < X.length)
    (hincr : frameIncr P root i t = (BitVec.ofNat 64 (2 ^ 32), t)) (h : AfterUnityFrames X s i t) :
    AfterUnityFrames X s (i + 1) (pitchFrame P root X t i) := by
  rw [pitchFrame_of_unity hrow hX hlen hi hincr h.phase]
  refine ⟨h.regs, h.mem, ?_, ?_, fun _ => rfl⟩
  · rw [State.setCore_core, afterPitchFrame, h.phase, Nat.succ_mul, BitVec.ofNat_add]
  · rw [State.setCore_core, afterPitchFrame, Work.setPitch_pitch, putEntry_take, h.pitch, List.take_add_one,
      List.getElem?_eq_getElem hi, Option.toList_some]

theorem AfterUnityFrames.foldl
    (hincr : ∀ u : State, u.core.regs = s.core.regs → ∀ i, frameIncr P root i u = (BitVec.ofNat 64 (2 ^ 32), u))
    (h : AfterUnityFrames X s 0 t) {n : Nat} (hn : n ≤ X.length) :
    AfterUnityFrames X s n ((List.range n).foldl (Machine.pitchFrame P root X) t) := by
  induction n with
  | zero => exact h
  | succ n ih =>
    have hbefore := ih (by omega)
    rw [List.range_succ, List.foldl_append]
    exact hbefore.pitchFrame hrow hX hlen (by omega) (hincr _ hbefore.regs n)

end UnityPass

/-- After the pass at ratio 1.0 the copy-back stores every element where it was loaded from. -/
theorem AfterUnityFrames.foldl_copyBack (P : Params) {F : Format} {s t : State} (hm : Memory.wf s.mem)
    (hc : ∀ i < s.core.frames, ConvertsBack F i s) (h : AfterUnityFrames (snapshot F s) s s.core.frames t) :
    (List.range s.core.frames).foldl (copyBack P F) t = t := by
  refine List.foldlRecOn (motive := (· = t)) _ _ rfl fun u hu i hi => ?_
  have hi := List.mem_range.1 hi
  have hback : ConvertsBack F i t := (convertsBack_congr h.regs h.mem).2 (hc i hi)
  have hentry : entry P t.core.work.pitch i = loadAsDouble F i t := by
    rw [entry_of_take h.pitch hi, loadAsDouble_congr F i h.regs h.mem, entry, snapshot, List.getD_eq_getElem?_getD,
      List.getElem?_map, List.getElem?_range hi]
    rfl
  rw [hu, copyBack, hentry, storeFromDouble_loadAsDouble P (h.mem ▸ hm) hback]

end Sys2Proof.Machine

namespace Sys2Proof
open Machine

/-- Settles O56: inside [0, 2^32) the floor fits INCR, and each of the other cases is outside. -/
theorem ratioBecomesFixedPoint : Obligations.RatioBecomesFixedPoint := by
  refine fun P ratio s => ⟨fun h => if_pos h, fun h => if_neg (Bool.eq_false_iff.1 h), fun hfin hle hlt => ?_,
    fun h => toFixed_of_outside P s ?_⟩
  · have hin : InFixedRange ratio := ⟨hfin, hle, hlt⟩
    exact ⟨congrArg Prod.snd (toFixed_of_inRange P s hin), toFixed_toNat P s hin, toFixed_of_small P s hin⟩
  · rcases h with hfin | hneg | hbig
    · exact fun hin => Bool.eq_false_iff.1 hfin hin.finite
    · exact not_inFixedRange_of_neg hneg
    · exact not_inFixedRange_of_le hbig

/-- Settles O55: the increment, the value and the phase of an output frame one by one, and the stage's copy-back, which
finds the entry of each frame in W_PITCH. -/
theorem pitchPassReadsBeforeItAdvances : Obligations.PitchPassReadsBeforeItAdvances := by
  refine ⟨fun P root X s i => ?_, fun P F s => ?_⟩
  · intro p t c k x r w byEnv byWave tun key
    obtain ⟨e, u, he, hdraws, hincr⟩ := pitchFrame_incr_eq P root X s i
    obtain ⟨v, hv, hpitch⟩ := pitchFrame_pitch P root X s i
    obtain ⟨hmem, hregs, hwork, -⟩ := pitchFrame_keeps P root X s i
    have htun : tuning P i s.core = tun := by
      rw [tuning_eq]
      beta_reduce
      rw [tuneBy_of_isEnv (src := .env0) rfl, tuneBy_of_isEnv (src := .env1) rfl,
        tuneBy_of_not_isEnv (src := .lfo0) rfl, tuneBy_of_not_isEnv (src := .lfo1) rfl,
        tuneBy_of_not_isEnv (src := .noise) rfl]
    rw [frameKey, htun] at he
    refine ⟨⟨e, he, ?_⟩, ?_, fun hi => ?_, hmem, hregs, hwork⟩
    · intro quotient ratio inRange
      have hratio : t.core.incr = (toFixed P ratio u).1 := hincr
      rw [hratio]
      refine ⟨fun ⟨hfin, hle, hlt⟩ => toFixed_toNat P u ⟨hfin, hle, hlt⟩, fun hout => ⟨u.draws, hdraws, ?_⟩⟩
      exact congrArg Prod.fst (toFixed_of_outside P u fun hin => hout ⟨hin.finite, hin.nonneg, hin.below⟩)
    · exact (congrArg BitVec.toNat (pitchFrame_phaseAcc P root X s i)).trans (BitVec.toNat_add _ _)
    · obtain ⟨hsame, hothers⟩ := putEntry_getElem? s.core.work.pitch i v hi
      rw [← hpitch] at hsame hothers
      have hk : k = (phaseIndex p : Int) := by
        rw [phaseIndex_eq, Int.natCast_ediv]
        rfl
      rw [phaseRow_eq] at hv
      refine ⟨⟨v, hsame, ?_⟩, hothers⟩
      rw [hk]
      exact hv
  · intro frames
    refine ⟨fun h => pitchStage_no_frames P (congrArg BitVec.toNat h) F, fun h => ?_⟩
    have hframes : s.core.frames ≠ 0 := fun h0 => h (BitVec.eq_of_toNat_eq h0)
    have hu := keyPitch_onlyDraws P (keyDistance s.core.regs) s
    refine ⟨_, _, settled_settle P _ s, hu.eq, hu.draws, ?_⟩
    intro root X done
    have hlen : frames.length ≤ done.core.work.pitch.length := by
      rw [List.length_range]
      exact (pitchFrames_length P root X _ _).1
    refine ⟨hlen, (if_neg hframes).trans (foldl_copyBack P F done _ fun i hi => ?_)⟩
    rw [List.length_range] at hlen
    exact Nat.lt_of_lt_of_le (List.mem_range.1 hi) hlen

/-- Settles O54: every output frame advances the phase by exactly one sample and takes over its own entry of the
snapshot, so that the copy-back stores each element's own value. -/
theorem pitchIdentityAtZeroTuning : Obligations.PitchIdentityAtZeroTuning := by
  intro P F s hrow hm hunrouted htuning hkey hfin h0 hsteady
  by_cases hframes : s.core.frames = 0
  · rw [pitchStage_no_frames P hframes]
    exact ⟨rfl, fun hpos => absurd hframes hpos.ne'⟩
  unfold pitchStage
  rw [if_neg hframes]
  extract_lets X root start done
  have hX : ∀ x ∈ X, Fp.isFinite x = true ∧ x ≠ Fp.negZero := by
    intro x hx
    obtain ⟨i, hi, rfl⟩ := List.mem_map.1 hx
    exact loadAsDouble_of_steady (hsteady i (List.mem_range.1 hi))
  have hlen : X.length = s.core.frames := (List.length_map _).trans List.length_range
  have hfit : s.core.frames < 2 ^ 32 := s.core.regs.bufferLength.isLt
  have hroot : root.2 = s := congrArg Prod.snd (keyPitch_of_number P (keyDistance_of_finite hkey).1 s)
  have hstart : AfterUnityFrames X s 0 start := by
    simp only [start, hroot]
    exact ⟨rfl, rfl, rfl, rfl, fun h => absurd h (Nat.lt_irrefl 0)⟩
  have hincr (u : State) (hu : u.core.regs = s.core.regs) (i : Nat) :=
    frameIncr_of_zeroTuning P ⟨hunrouted, htuning, hkey⟩ hfin h0 hu i
  have hdone : AfterUnityFrames X s s.core.frames done := hstart.foldl hrow hX (by omega) hincr hlen.ge
  rw [hdone.foldl_copyBack P hm fun i hi => convertsBack_of_steady (hsteady i hi)]
  exact ⟨hdone.mem, fun hpos => ⟨hdone.incr hpos, hdone.phase⟩⟩

end Sys2Proof
end

section
/-! The volume stage (O57, O58). With nothing routed to VOLUME the gain is the register's own value: at 1.0 a frame
stores the element it loaded, and at +0.0 an integer element becomes 0, whichever frames share it. -/

namespace Sys2Proof.Machine.Fp

/-! ## Products with a zero, and conversions that give numbers -/

theorem mul_comm (x y : F64) : mul x y = mul y x := by
  have hsign : (neg x != neg y) = (neg y != neg x) := bne_comm
  simp only [mul, hsign, Bool.or_comm (isNaN x), Bool.or_comm (isInf x), Nat.mul_comm (mag x), or_comm (a := mag x = 0)]

/-- A finite value times a zero is a zero. -/
theorem mul_zero_right_finite {x z : F64} (h : isFinite x = true) (hz : isFinite z = true) (hm : mag z = 0) :
    isFinite (mul x z) = true ∧ mag (mul x z) = 0 := by
  rw [mul_comm, mul_zero_finite hz hm h]
  exact ⟨isFinite_pack_zero _, mag_pack_zero _⟩

/-- An integer of at most 64 bits is far from overflow, also where its conversion rounds. -/
theorem isFinite_ofInt {v : Int} (h : v.natAbs ≤ 2 ^ 63) : isFinite (ofInt v) = true := by
  have hbound : mag 0x43E0000000000000 = 2 ^ 63 * (2 ^ 1074 : Int).natAbs := by decide +kernel
  unfold ofInt roundUnits
  split
  · exact isFinite_pack_zero _
  · refine isFinite_pack_roundMag _ (x := 0x43E0000000000000) (by decide) Nat.one_pos ?_
    rw [Nat.mul_one, hbound, Int.natAbs_mul]
    exact Nat.mul_le_mul_right _ h

theorem isNaN_widen {y : F32} (h : isNaN32 y = false) : isNaN (widen y) = false := by
  rw [widen, if_neg (Bool.eq_false_iff.1 h)]
  split
  · exact isNaN_pack _ _
  · exact isNaN_pack _ _

end Sys2Proof.Machine.Fp

namespace Sys2Proof.Machine

/-! ## The gain (R210) -/

/-- An envelope's factor of the gain is its sample. -/
theorem bendGain_of_isEnv {src : Source} (h : src.isEnv = true) (x g : F64) : bendGain src x g = Fp.mul g x := if_pos h

/-- The factor of an LFO or of the noise source is the unipolar remap of its sample. -/
theorem bendGain_of_not_isEnv {src : Source} (h : src.isEnv = false) (x g : F64) :
    bendGain src x g = Fp.mul g (Fp.div (Fp.add x Fp.one) Fp.two) := if_neg (Bool.eq_false_iff.1 h)

theorem gain_of_unrouted (P : Params) {c : CoreState} (h : ∀ src, routes c.regs src .volume = false) (i : Nat) :
    gain P i c = c.regs.volume := by
  rw [gain_eq]
  simp only [h, Bool.false_eq_true, if_false]

/-! ## Frames at unity gain (R212) -/

section Frames

variable (P : Params) {F : Format} {n : Nat} {i : Nat} {s : State}

theorem convertsBack_of_number (h : NumberElement F i s) : ConvertsBack F i s := by
  cases F
  case double => trivial
  case complex => trivial
  all_goals exact h

theorem isNaN_loadAsDouble_of_number (h : NumberElement F i s) : Fp.isNaN (loadAsDouble F i s) = false := by
  cases hw : intWidth F with
  | some n =>
    rw [loadAsDouble_of_intWidth hw]
    exact Fp.isNaN_roundUnits _ _ _
  | none =>
    cases F with
    | float => exact Fp.isNaN_widen h
    | double => exact h
    | complex => exact h
    | _ => cases hw

/-- At unity gain a frame stores what it loaded, and draws nothing. -/
theorem volumeFrame_of_unity (hg : gain P i s.core = Fp.one) (hm : Memory.wf s.mem) (h : NumberElement F i s) :
    volumeFrame P F s i = s := by
  have hnum := isNaN_loadAsDouble_of_number h
  rw [volumeFrame, hg, Fp.mul_one_right _ hnum, settle_of_number P hnum]
  exact storeFromDouble_loadAsDouble P hm (convertsBack_of_number h)

/-! ## Frames at gain +0.0 (R211, R212) -/

theorem isFinite_loadAsDouble_of_intWidth (h : intWidth F = some n) : Fp.isFinite (loadAsDouble F i s) = true := by
  have hwidth : 0 < n ∧ n - 1 ≤ 63 := by cases F <;> cases h <;> decide
  rw [loadAsDouble_of_intWidth h]
  exact Fp.isFinite_ofInt <| (natAbs_toInt_le hwidth.1 _).trans (Nat.pow_le_pow_right Nat.two_pos hwidth.2)

/-- At gain +0.0 a frame stores 0 in an integer element. -/
theorem volumeFrame_of_zero (h : intWidth F = some n) (hg : gain P i s.core = Fp.zero) :
    volumeFrame P F s i = storeBits F i (0 : BitVec n) s := by
  obtain ⟨hfin, hmag⟩ :=
    Fp.mul_zero_right_finite (z := Fp.zero) (isFinite_loadAsDouble_of_intWidth (i := i) (s := s) h) (by decide)
      (by decide)
  rw [volumeFrame, hg, settle_of_number P (Fp.isNaN_of_finite hfin), storeFromDouble_of_intWidth P h, storeInt,
    convInt_of_finite P hfin, Fp.trunc_of_mag_zero hmag]
  rfl

/-- A store into the element of one frame either is a store into that of another, or leaves it as it was (R61). -/
theorem loadBits_storeBits_other (h : intWidth F = some n) (j : Nat) (v : BitVec n) :
    loadBits n F i (storeBits F j v s) = v ∨ loadBits n F i (storeBits F j v s) = loadBits n F i s := by
  have hbytes : n / 8 = F.accessBytes ∧ F.accessBytes = F.esize := by cases F <;> cases h <;> exact ⟨rfl, rfl⟩
  rcases elementsCoincideOrAreDisjoint F s.core i j with hsame | hdisjoint
  · obtain ⟨h8, h64⟩ := intWidth_bytes h
    have hother : loadBits n F i (storeBits F j v s) = loadBits n F j (storeBits F j v s) :=
      congrArg (fun a => BitVec.ofNat n (readLE (storeBits F j v s).mem a (n / 8))) hsame
    exact .inl (hother.trans (loadBits_storeBits h8 h64 F j v s))
  · refine .inr (congrArg (BitVec.ofNat n) (readLE_congr _ _ fun x hx => ?_))
    refine storeBits_outside hbytes.1 j v s _ fun y hy => hdisjoint x ?_ y ?_
    · omega
    · omega

/-- Over frames at gain +0.0 every integer element becomes 0 and stays so. -/
theorem loadBits_volumeFrames (h : intWidth F = some n) (hg : ∀ j, gain P j s.core = Fp.zero) (m : Nat) :
    ∀ i < m, loadBits n F i ((List.range m).foldl (volumeFrame P F) s) = 0 := by
  induction m with
  | zero => exact fun i hi => absurd hi (Nat.not_lt_zero i)
  | succ m ih =>
    intro i hi
    have hcore : ((List.range m).foldl (volumeFrame P F) s).core = s.core :=
      foldl_keeps State.core (volumeFrame_core P F) _ s
    rw [List.range_succ, List.foldl_append, List.foldl_cons, List.foldl_nil,
      volumeFrame_of_zero P h (hcore ▸ hg m)]
    rcases Nat.lt_succ_iff_lt_or_eq.1 hi with hlt | rfl
    · exact (loadBits_storeBits_other h m 0).elim id fun hkept => hkept.trans (ih i hlt)
    · obtain ⟨h8, h64⟩ := intWidth_bytes h
      exact loadBits_storeBits h8 h64 F i 0 _

end Frames

end Sys2Proof.Machine

namespace Sys2Proof
open Machine

/-- Settles O57: the gain's fold written out by the kind of source, and at unity gain a frame changes nothing. -/
theorem volumeAppliesTheRoutedGain : Obligations.VolumeAppliesTheRoutedGain := by
  refine ⟨fun P F s i => ?_, fun P F s => rfl, fun P F s hm hone hunrouted hnum => ?_⟩
  · intro r w byEnv byWave g
    have hgain : gain P i s.core = g := by
      rw [gain_eq]
      beta_reduce
      rw [bendGain_of_isEnv (src := .env0) rfl, bendGain_of_isEnv (src := .env1) rfl,
        bendGain_of_not_isEnv (src := .lfo0) rfl, bendGain_of_not_isEnv (src := .lfo1) rfl,
        bendGain_of_not_isEnv (src := .noise) rfl]
    have hdraws := settle_onlyDraws P (Fp.mul (loadAsDouble F i s) g) s
    refine ⟨_, _, settled_settle P _ s, hdraws.eq, hdraws.draws, ?_⟩
    rw [volumeFrame, hgain]
  · have hsame : volumeStage P F s = s := by
      refine List.foldlRecOn (motive := (· = s)) _ _ rfl fun u hu i hi => ?_
      rw [hu]
      exact volumeFrame_of_unity P ((gain_of_unrouted P hunrouted i).trans hone) hm (hnum i (List.mem_range.1 hi))
    rw [hsame]

/-- Settles O58: a frame stores 0 in its own element, and every other frame's element is that one or keeps its bytes. -/
theorem zeroVolumeClearsIntegers : Obligations.ZeroVolumeClearsIntegers := by
  intro P F n s h hzero hunrouted
  exact loadBits_volumeFrames P h (fun j => (gain_of_unrouted P hunrouted j).trans hzero) s.core.frames

end Sys2Proof
end

section
/-! Which commands fault, and with which fault: the duties of the host and the platform (O21, O22), and a register write
while BUSY (O12). -/

namespace Sys2Proof.Machine

/-- A command answers a next state only while nothing is in flight, and then its effect. -/
theorem next_of_command {s t : State} {o : Host.Outcome State Fault Refusal} (ht : command s o = .next t) :
    s.core.busy = false ∧ o = .next t := by
  cases hb : s.core.busy with
  | true =>
    rw [command_of_busy hb] at ht
    cases ht
  | false => exact ⟨rfl, command_of_idle hb o ▸ ht⟩

/-! ## While BUSY = 1 (R270) -/

section Busy

variable {s : State} (h : s.core.busy = true)
include h

theorem exec_of_busy (i : Instr) : exec i s = .fault .hostWriteWhileBusy := by
  cases hF : i.computeFormat with
  | none => exact (exec_of_no_format hF s).trans (command_of_busy h _)
  | some F => exact (exec_of_format hF s).trans (command_of_busy h _)

theorem issue_of_busy (data : Data) (ov : Bool) : issue data ov s = .fault .hostWriteWhileBusy := by
  rcases issue_cases data ov s with e | ⟨-, F, -, e⟩ <;> rw [e]
  · exact exec_of_busy h _
  · exact command_of_busy h _

/-- A write of any register, CMD included, is a fault. -/
theorem hostWrite_of_busy (reg : Reg) (data : Data) (ov : Bool) :
    hostWrite (regOffset reg) 8 data ov s = .fault .hostWriteWhileBusy := by
  rw [hostWrite, if_pos (regOffset_aligned reg), regAt_regOffset]
  split
  · next hnone => cases hnone
  · exact issue_of_busy h data ov
  · exact command_of_busy h _

end Busy

/-! ## Which duty a COMPUTE breaks first (R241) -/

section Duties

variable {F : Format} {s : State} {f : Fault}

/-- Some byte of the call window's elements has the property. -/
theorem any_windowBytes {c : CoreState} {p : Addr → Bool} :
    (windowBytes F c).any p = true ↔
      ∃ k < c.frames, ∃ j < F.esize, p (elementAddr F c k + BitVec.ofNat 64 j) = true := by
  rw [List.any_eq_true]
  constructor
  · rintro ⟨a, ha, hp⟩
    obtain ⟨k, hk, j, hj, rfl⟩ := mem_windowBytes.1 ha
    exact ⟨k, hk, j, hj, hp⟩
  · rintro ⟨k, hk, j, hj, hp⟩
    exact ⟨_, mem_windowBytes.2 ⟨k, hk, j, hj, rfl⟩, hp⟩

/-- Some byte of a frame's access has the property. -/
theorem any_frameBytes {c : CoreState} {n k : Nat} {p : Addr → Bool} :
    (frameBytes F c n k).any p = true ↔ ∃ j < n, p (elementAddr F c k + BitVec.ofNat 64 j) = true := by
  simp [frameBytes]

theorem placementFault_of_window_or_table
    (h : ∃ k < s.core.frames, ∃ j < F.esize, InRegisterWindow s (elementAddr F s.core k + BitVec.ofNat 64 j) ∨
      IsTable s (elementAddr F s.core k + BitVec.ofNat 64 j)) :
    placementFault F s = some .bufferInWindow := by
  simp only [← inWindowOrTable_iff] at h
  exact if_pos (any_windowBytes.2 h)

theorem placementFault_of_device
    (hfree : ∀ k < s.core.frames, ∀ j < F.esize, ¬InRegisterWindow s (elementAddr F s.core k + BitVec.ofNat 64 j) ∧
      ¬IsTable s (elementAddr F s.core k + BitVec.ofNat 64 j))
    (h : ∃ k < s.core.frames, ∃ j < F.esize, IsDevice s (elementAddr F s.core k + BitVec.ofNat 64 j)) :
    placementFault F s = some .deviceMemory := by
  have hnone : ¬(windowBytes F s.core).any (inWindowOrTable s.platform) = true := fun hany => by
    obtain ⟨k, hk, j, hj, hp⟩ := any_windowBytes.1 hany
    exact not_or.2 (hfree k hk j hj) ((inWindowOrTable_iff s _).1 hp)
  simp only [← inDevice_iff] at h
  exact (if_neg hnone).trans (if_pos (any_windowBytes.2 h))

theorem accessFault_of_held {k : Nat}
    (h : ∃ j < F.accessBytes, HeldByOther s (elementAddr F s.core k + BitVec.ofNat 64 j)) :
    accessFault F s k = some .bufferShared := by
  simp only [← heldByOther_iff] at h
  exact if_pos (any_frameBytes.2 h)

theorem accessFault_of_unreachable {k : Nat}
    (hfree : ∀ j < F.accessBytes, ¬HeldByOther s (elementAddr F s.core k + BitVec.ofNat 64 j))
    (h : ∃ j < F.accessBytes, IsUnreachable s (elementAddr F s.core k + BitVec.ofNat 64 j)) :
    accessFault F s k = some .busError := by
  have hnone : ¬(frameBytes F s.core F.accessBytes k).any (heldByOther s) = true := fun hany => by
    obtain ⟨j, hj, hp⟩ := any_frameBytes.1 hany
    exact hfree j hj ((heldByOther_iff s _).1 hp)
  simp only [← inUnreachable_iff] at h
  exact (if_neg hnone).trans (if_pos (any_frameBytes.2 h))

/-- The first answer of a search through the frames in order. -/
theorem findSome?_range_eq_some {α : Type} {g : Nat → Option α} {b : α} {k n : Nat} (hk : k < n)
    (hbefore : ∀ m < k, g m = none) (h : g k = some b) : (List.range n).findSome? g = some b := by
  obtain ⟨d, rfl⟩ := Nat.exists_eq_add_of_lt hk
  have hnone : (List.range k).findSome? g = none :=
    List.findSome?_eq_none_iff.2 fun m hm => hbefore m (List.mem_range.1 hm)
  rw [Nat.add_assoc, List.range_add, List.findSome?_append, hnone, List.range_succ_eq_map]
  simp [h]

theorem computeFault_of_placementFault (h : placementFault F s = some f) : computeFault F s = some f := by
  simp only [computeFault, h]

/-- The accesses are made frame by frame, so the first frame that breaks a duty names the fault (log 15). -/
theorem computeFault_of_accessFault (hp : PlacementMet F s) {k : Nat} (hk : k < s.core.frames)
    (hbefore : ∀ m < k, accessFault F s m = none) (h : accessFault F s k = some f) : computeFault F s = some f := by
  simp only [computeFault, placementFault_eq_none.2 hp, findSome?_range_eq_some hk hbefore h]

theorem computeFault_of_unconstructed (hp : PlacementMet F s) (ha : AccessesMet F s) (hb : s.tableBuilt = false) :
    computeFault F s = some .tableUnconstructed := by
  simp only [computeFault, placementFault_eq_none.2 hp, accessesMet_iff.2 ha, tableFault, hb, Bool.false_eq_true,
    if_false]

theorem runCompute_of_computeFault (P : Params) (hbase : s.core.regs.bufferBase ≠ 0) (h : computeFault F s = some f) :
    runCompute P F s = .fault f := by
  simp only [runCompute, if_neg hbase, h]

theorem placementFault_names (h : placementFault F s = some f) : f = .bufferInWindow ∨ f = .deviceMemory := by
  unfold placementFault at h
  split at h
  · exact .inl (Option.some.inj h).symm
  · obtain ⟨-, hsome⟩ := Option.ite_none_right_eq_some.1 h
    exact .inr (Option.some.inj hsome).symm

theorem accessFault_names {k : Nat} (h : accessFault F s k = some f) : f = .bufferShared ∨ f = .busError := by
  unfold accessFault at h
  split at h
  · exact .inl (Option.some.inj h).symm
  · obtain ⟨-, hsome⟩ := Option.ite_none_right_eq_some.1 h
    exact .inr (Option.some.inj hsome).symm

/-- The duties of a COMPUTE are others than that of R270. -/
theorem computeFault_ne_hostWriteWhileBusy (h : computeFault F s = some f) : f ≠ .hostWriteWhileBusy := by
  unfold computeFault at h
  split at h
  · next g hg =>
    obtain rfl := Option.some.inj h
    rcases placementFault_names hg with rfl | rfl <;> decide
  · split at h
    · next g hg =>
      obtain rfl := Option.some.inj h
      obtain ⟨k, -, hk⟩ := List.exists_of_findSome?_eq_some hg
      rcases accessFault_names hk with rfl | rfl <;> decide
    · obtain ⟨-, hsome⟩ := Option.ite_none_left_eq_some.1 h
      obtain rfl := Option.some.inj hsome
      decide

end Duties

end Sys2Proof.Machine

namespace Sys2Proof
open Machine

/-- Settles O12: the write reaches the instance, where the duty of R270 is broken, and the read is that of its word. -/
theorem writeWhileBusyFaults : Obligations.WriteWhileBusyFaults := by
  intro s n reg rest hn hb
  refine ⟨fun data ov hbus => ?_, fun hbus => ?_⟩
  · rw [step_regWrite hn hbus]
    refine hostWrite_of_busy ?_ reg data ov
    rw [focus_core]
    exact hb
  · rw [step_regRead hn hbus, readWord_register]

/-- Settles O21: a command faults for BUSY = 1, and else only a COMPUTE with a buffer can, by the first duty it
breaks. -/
theorem execFaultsOnlyForBrokenDuties : Obligations.ExecFaultsOnlyForBrokenDuties := by
  intro i s
  cases hb : s.core.busy with
  | true =>
    rw [exec_of_busy hb]
    exact ⟨nofun, fun f hf => .inl ⟨rfl, by cases hf; rfl⟩⟩
  | false =>
    cases hF : i.computeFormat with
    | none =>
      rw [exec_of_no_format_of_idle hb hF]
      exact ⟨nofun, nofun⟩
    | some F =>
      rw [exec_of_format_of_idle hb hF]
      refine ⟨runCompute_not_refused _ F s, fun f hf => .inr ⟨F, rfl, ?_⟩⟩
      rcases runCompute_cases Config.params F s with ⟨-, e⟩ | ⟨hbase, g, hg, e⟩ | ⟨-, -, e⟩ <;> rw [e] at hf
      · cases hf
      · cases hf
        refine ⟨hbase, fun hd => ?_, computeFault_ne_hostWriteWhileBusy hg⟩
        exact Option.some_ne_none f (hg.symm.trans (computeFault_eq_none.2 hd))
      · cases hf

/-- Settles O22: where the buffer lies is looked at first, then the accesses frame by frame, then the table. -/
theorem brokenDutyNamesItsFault : Obligations.BrokenDutyNamesItsFault := by
  intro i F s hF hb hbase at_ L
  have hexec {f : Fault} (h : computeFault F s = some f) : exec i s = .fault f :=
    (exec_of_format_of_idle hb hF).trans (runCompute_of_computeFault _ hbase h)
  refine ⟨fun h => hexec (computeFault_of_placementFault (placementFault_of_window_or_table h)),
    fun hfree h => hexec (computeFault_of_placementFault (placementFault_of_device hfree h)),
    fun hp k hk hbefore => ?_, fun hp ha hbuilt => hexec (computeFault_of_unconstructed hp ha hbuilt)⟩
  have hfirst {f : Fault} (h : accessFault F s k = some f) : exec i s = .fault f :=
    hexec (computeFault_of_accessFault hp hk (fun m hm => accessFault_eq_none.2 (hbefore m hm)) h)
  exact ⟨fun h => hfirst (accessFault_of_held h), fun hfree h => hfirst (accessFault_of_unreachable hfree h)⟩

end Sys2Proof
end

section
/-! The sample encodings and the conversions they rest on (O45 to O48), and the imaginary parts of COMPLEX elements
(O24). -/

namespace Sys2Proof.Machine

/-- The conversion of a NaN or an infinity is a free value (R220). -/
theorem convInt_of_not_finite (P : Params) {x : F64} (h : Fp.isFinite x = false) (n : Nat) (s : State) :
    convInt P n x s = ((P.free s.draws).setWidth n, s.drew) :=
  if_neg (Bool.eq_false_iff.1 h)

/-- 2^63, the multiplier of a full-scale S64 sample, is one past the greatest S64 element and wraps to the least
(R220, R234). -/
theorem convInt_two_pow_63 (P : Params) (s : State) :
    convInt P 64 0x43E0000000000000 s = (0x8000000000000000, s) := by
  have htrunc : BitVec.ofInt 64 (Fp.trunc 0x43E0000000000000) = 0x8000000000000000#64 := by decide +kernel
  exact (convInt_of_finite P (by decide) 64 s).trans (congrArg (·, s) htrunc)

/-- A sample at full scale and unity gain has the multiplier itself as its addend (R172). -/
theorem addend_one_one (P : Params) {F : Format} (h : Fp.isNaN (scale P F) = false) :
    addend P F Fp.one Fp.one = scale P F := by
  rw [addend, Fp.mul_one_left _ h, Fp.mul_one_right _ h]

/-- No access touches an imaginary part: an access covers the first eight bytes of its element, and a byte that two
elements share stands at one place of both (R65, R219). -/
theorem accessHas_imaginary (c : CoreState) (i : Nat) {j : Nat} (hlow : 8 ≤ j) (hhigh : j < 16) :
    accessHas .complex c (elementAddr .complex c i + BitVec.ofNat 64 j) = false := by
  refine accessHas_eq_false fun k _ x (hx : x < 8) hsame => ?_
  have hplace : j = x := index_eq_of_shared_byte (F := .complex) hhigh (show x < 16 by omega) hsame
  omega

end Sys2Proof.Machine

namespace Sys2Proof
open Machine

/-- Settles O45: an integer that converts back has at most 53 bits, and the real encodings round nothing. -/
theorem storeAfterLoadRestores : Obligations.StoreAfterLoadRestores :=
  fun P _ _ _ hm hc => storeFromDouble_loadAsDouble P hm hc

/-- Settles O46: 2^63 − 1 rounds to 2^63, whose conversion wraps, and the full-scale addend is 2^63 too. -/
theorem largestS64WrapsToSmallest : Obligations.LargestS64WrapsToSmallest := by
  intro P i s
  refine ⟨fun hmax => ?_, ?_⟩
  · have hload : loadAsDouble .s64 i s = 0x43E0000000000000 := by
      have hround : Fp.ofInt (0x7FFFFFFFFFFFFFFF#64).toInt = 0x43E0000000000000 := by decide +kernel
      rw [loadAsDouble, hmax]
      exact hround
    refine ⟨hload, ?_⟩
    rw [hload, storeFromDouble, storeInt, convInt_two_pow_63]
    exact loadBits_storeBits (by decide) (by decide) _ i _ s
  · rw [addend_one_one P (F := .s64) (by rw [scale]; decide)]
    exact convInt_two_pow_63 P s

/-- Settles O47: the two branches of the conversion, and each example is finite, with the truncation its value has. -/
theorem integerConversion : Obligations.IntegerConversion := by
  intro P n s
  have hexample {w : Nat} {x : F64} {v : BitVec w} (hfin : Fp.isFinite x = true)
      (hv : BitVec.ofInt w (Fp.trunc x) = v) : (convInt P w x s).1 = v := by
    rw [convInt_of_finite P hfin, hv]
  refine ⟨fun x hx => convInt_of_finite P hx n s, fun x hx => convInt_of_not_finite P hx n s,
    hexample ?_ ?_, hexample ?_ ?_, hexample ?_ ?_, hexample ?_ ?_⟩
  all_goals decide +kernel

/-- Settles O48: S32's multiplier is its parameter, and the others are the patterns their integers convert to. -/
theorem fullScaleMultipliers : Obligations.FullScaleMultipliers := by
  intro P
  refine ⟨?_, ?_, ?_, rfl, ?_, ?_, rfl, ?_, ?_, ?_⟩
  all_goals
    rw [scale]
    decide +kernel

/-- Settles O24: the frame of the COMPUTE keeps every byte that no access touches. -/
theorem complexKeepsImaginaryParts : Obligations.ComplexKeepsImaginaryParts := by
  intro s t ht i _ j hlow hhigh
  rw [exec_of_format (F := .complex) rfl] at ht
  obtain ⟨-, hrun⟩ := next_of_command ht
  exact (runCompute_next hrun).frame.bytes _ (accessHas_imaginary s.core i hlow hhigh)

end Sys2Proof
end

section
/-! The instances of the platform (O7, O28), and a reset while a COMPUTE is in flight (O14). -/

namespace Sys2Proof.Machine

/-! ## Events and the instances they are not addressed to (R247) -/

/-- Every next state the operation answers has the addressed instance's number and the other instances as they were. -/
def KeepsOthers (k : State → Host.Outcome State Fault Refusal) : Prop :=
  ∀ s t, k s = .next t → t.cur = s.cur ∧ t.others = s.others

theorem keepsOthers_runCompute (P : Params) (F : Format) : KeepsOthers (runCompute P F) := by
  intro s t ht
  obtain ⟨hframe, -⟩ := runCompute_next ht
  exact ⟨hframe.cur, hframe.others⟩

theorem keepsOthers_exec (i : Instr) : KeepsOthers (exec i) := by
  intro s t ht
  cases hF : i.computeFormat with
  | none =>
    rw [exec_of_no_format hF] at ht
    obtain ⟨-, hself⟩ := next_of_command ht
    cases hself
    exact ⟨rfl, rfl⟩
  | some F =>
    rw [exec_of_format hF] at ht
    exact keepsOthers_runCompute _ F s t (next_of_command ht).2

theorem keepsOthers_startCompute (F : Format) : KeepsOthers (startCompute F) := by
  intro s t ht
  obtain ⟨hb, -⟩ := next_of_command ht
  rcases startCompute_cases F s hb with ⟨-, e⟩ | ⟨-, f, -, e⟩ | ⟨-, -, e⟩ <;> rw [e] at ht <;> cases ht
  · exact ⟨rfl, rfl⟩
  · exact ⟨rfl, rfl⟩

theorem keepsOthers_issue (data : Data) (ov : Bool) : KeepsOthers (issue data ov) := by
  intro s t ht
  rcases issue_cases data ov s with e | ⟨-, F, -, e⟩ <;> rw [e] at ht
  · exact keepsOthers_exec _ s t ht
  · exact keepsOthers_startCompute F s t ht

theorem keepsOthers_hostWrite (off : BitVec 10) (bytes : Nat) (data : Data) (ov : Bool) :
    KeepsOthers (hostWrite off bytes data ov) := by
  intro s t ht
  unfold hostWrite at ht
  split at ht
  · split at ht
    · cases ht
      exact ⟨rfl, rfl⟩
    · exact keepsOthers_issue data ov s t ht
    · obtain ⟨-, hstored⟩ := next_of_command ht
      cases hstored
      exact ⟨rfl, rfl⟩
  · cases ht
    exact ⟨rfl, rfl⟩

theorem keepsOthers_reply (r : State → Reply) : KeepsOthers fun s => .next (s.reply (r s)) := by
  intro s t ht
  cases ht
  exact ⟨rfl, rfl⟩

theorem keepsOthers_hostRead (off : BitVec 10) (bytes : Nat) : KeepsOthers (hostRead off bytes) := keepsOthers_reply _

theorem keepsOthers_proceed (P : Params) : KeepsOthers (proceed P) := by
  intro s t ht
  unfold proceed at ht
  split at ht
  · exact keepsOthers_runCompute P _ s t ht
  · cases ht
    exact ⟨rfl, rfl⟩

theorem keepsOthers_resetInstance (P : Params) : KeepsOthers fun s => .next (resetInstance P s) := by
  intro s t ht
  cases ht
  obtain ⟨-, hcur, hothers, -⟩ := resetInstance_spec P s
  exact ⟨hcur, hothers⟩

/-- An operation at instance `n` changes no other instance. -/
theorem KeepsOthers.coreOf_atInstance {k : State → Host.Outcome State Fault Refusal} (hk : KeepsOthers k)
    {s t : State} {n m : Nat} (hm : n ≠ m) (ht : atInstance n s k = .next t) : t.coreOf m = s.coreOf m := by
  rcases atInstance_cases n s k with ⟨-, e⟩ | e <;> rw [e] at ht
  · obtain ⟨hcur, hothers⟩ := hk _ t ht
    exact (coreOf_congr hcur hothers (by rw [focus_cur]; exact hm.symm)).trans (coreOf_focus n m s)
  · cases ht

/-- An access that is no register access answers its effect, if a next state. -/
theorem agentAccess_next {store : Bool} {a : Addr} {n : Nat} {s effect t : State}
    (ht : agentAccess store a n s effect = .next t) : t = effect := by
  rcases agentAccess_cases store a n s effect with e | e | e | e <;> rw [e] at ht <;> cases ht
  rfl

/-- A store by byte address changes no instance but the one in whose window it lies (R23). -/
theorem memWrite_coreOf {a : Addr} {data : List Byte} {ov : Bool} {s t : State} {m : Nat}
    (hm : windowAt s.platform a ≠ some m) (ht : memWrite a data ov s = .next t) : t.coreOf m = s.coreOf m := by
  unfold memWrite at ht
  split at ht
  · next n off hreg =>
    obtain ⟨hwindow, -⟩ := registerAccess_window hreg
    exact (keepsOthers_hostWrite _ _ _ _).coreOf_atInstance (fun he => hm (he ▸ hwindow)) ht
  · rw [agentAccess_next ht]
    rfl

/-- A read by byte address may make that one the addressed one, and changes no other. -/
theorem memRead_coreOf {a : Addr} {n : Nat} {s t : State} {m : Nat} (hm : windowAt s.platform a ≠ some m)
    (ht : memRead a n s = .next t) : t.coreOf m = s.coreOf m := by
  unfold memRead at ht
  split at ht
  · next k off hreg =>
    obtain ⟨hwindow, -⟩ := registerAccess_window hreg
    exact (keepsOthers_reply _).coreOf_atInstance (fun he => hm (he ▸ hwindow)) ht
  · rw [agentAccess_next ht]
    rfl

theorem constructTable_coreOf {s t : State} (ht : constructTable s = .next t) (m : Nat) : t.coreOf m = s.coreOf m := by
  unfold constructTable at ht
  split at ht <;> cases ht
  rfl

theorem handle_coreOf {e : Event} {s t : State} (ht : handle e s = .next t) {m : Nat}
    (hm : eventTarget s.platform e ≠ some m) : t.coreOf m = s.coreOf m := by
  cases e with
  | regWrite n off bytes data ov =>
    exact (keepsOthers_hostWrite off bytes data ov).coreOf_atInstance (fun he => hm (congrArg some he)) ht
  | regRead n off bytes => exact (keepsOthers_hostRead off bytes).coreOf_atInstance (fun he => hm (congrArg some he)) ht
  | memWrite a data ov => exact memWrite_coreOf hm ht
  | memRead a n => exact memRead_coreOf hm ht
  | proceed n => exact (keepsOthers_proceed _).coreOf_atInstance (fun he => hm (congrArg some he)) ht
  | reset n => exact (keepsOthers_resetInstance _).coreOf_atInstance (fun he => hm (congrArg some he)) ht
  | constructTable => exact constructTable_coreOf ht m

/-! ## A reset during a COMPUTE (R261) -/

theorem step_reset {s : State} {n : Nat} {rest : List Event} (hn : HasInstance s n)
    (hbus : s.bus = .reset n :: rest) :
    step s = .next (resetInstance Config.params ((s.setBus rest).focus n)) := by
  rw [step_cons hbus, handle, atInstance_of_hasInstance (s := s.setBus rest) hn]

/-- A reset during a COMPUTE leaves the memory with the call window's bytes made free values. -/
theorem resetInstance_mem_of_inFlight (P : Params) {F : Format} {s : State} (h : s.core.inFlight = some F) :
    (resetInstance P s).mem = (scribble P (windowBytes F s.core) s).mem := by
  simp only [resetInstance, h, State.setCore_mem]
  split
  · exact State.setTableLock_mem _ _
  · rfl

end Sys2Proof.Machine

namespace Sys2Proof
open Machine

/-- Settles O7: the fields after a change of the addressed instance, one by one. -/
theorem addressingKeepsEveryInstance : Obligations.AddressingKeepsEveryInstance :=
  fun s n => ⟨focus_cur n s, focus_core n s, fun m => coreOf_focus n m s, focus_mem n s, focus_tableBuilt n s,
    focus_tableLock n s, focus_platform n s, focus_bus n s, focus_replies n s⟩

/-- Settles O28: an event at an instance leaves the others as they are listed, and the remaining events reach none. -/
theorem eventsKeepOtherInstances : Obligations.EventsKeepOtherInstances := by
  intro s t e rest hbus ht m hm
  rw [step_cons hbus] at ht
  exact handle_coreOf (s := s.setBus rest) ht hm

/-- Settles O14: STATUS is at reset, and of memory the reset writes the bytes of the call window alone, each with a
value it draws. -/
theorem resetDuringComputeFreesTheWindow : Obligations.ResetDuringComputeFreesTheWindow := by
  intro s n F rest hn hbus hflight
  let u := (s.setBus rest).focus n
  let w := windowBytes F (s.coreOf n)
  have hcore : u.core = s.coreOf n := focus_core n _
  have hbefore : u.mem = s.mem := focus_mem n _
  have hmem : (resetInstance Config.params u).mem = (scribble Config.params w u).mem := by
    rw [resetInstance_mem_of_inFlight _ (by rwa [hcore]), hcore]
  obtain ⟨t, hstep, -, hreads, -⟩ := resetSetsEveryRegister s n rest hn hbus
  obtain rfl : resetInstance Config.params u = t := Host.Outcome.next.inj ((step_reset hn hbus).symm.trans hstep)
  refine ⟨_, hstep, hreads .status, fun a => ⟨fun ⟨i, hi, j, hj, ha⟩ => ?_, fun hout => ?_⟩⟩
  · have hin : a ∈ w := mem_windowBytes.2 ⟨i, hi, j, hj, ha.symm⟩
    obtain ⟨k, hk, hbyte⟩ := scribble_byte Config.params w u a hin
    rw [focus_draws] at hk
    exact ⟨k, hk, hmem ▸ hbyte⟩
  · have hnotin : a ∉ w := fun hin => by
      obtain ⟨i, hi, j, hj, ha⟩ := mem_windowBytes.1 hin
      exact hout i hi j hj ha.symm
    obtain ⟨-, -, -, -, -, -, -, -, -, hkept⟩ := scribble_spec Config.params w u
    rw [hmem, hkept a hnotin, hbefore]

end Sys2Proof
end
